-- ==== Sys2Proof/Word.lean ====
section
/-! DEFINITION. The widths of the block (spec/00_scope.md R7, R9): every value is an unsigned bit vector. -/

namespace Sys2Proof

/-- A 32-bit hardware cell (R7 CELL_BITS, R24). -/
abbrev Word := BitVec 32

/-- The 64-bit command word of one host command (R100). -/
abbrev CommandWord := BitVec 64

/-- A reading of the monotonic microsecond clock (R7 CLOCK_BITS, R45). -/
abbrev Clock := BitVec 64

/-- A duration or a timeout in microseconds (R7 USEC_BITS). -/
abbrev Micros := BitVec 32

/-- A pin index as the command word carries it, 0 to 255 (R7 PIN_BITS, R101). -/
abbrev Pin := BitVec 8

/-- A decoder bit count N (R7 COUNT_BITS). -/
abbrev BitCount := BitVec 16

/-- One byte of a decoded sequence or of a serialized command word (R75). -/
abbrev Byte := BitVec 8

end Sys2Proof
end

