-- ==== Sys2Proof/Syntax.lean ====
section
/-! DEFINITION. The commands of the block, one constructor per row of spec/opcode_table.json (R103, R104). -/

namespace Sys2Proof

/-- A logic level (R12). -/
inductive Level where
  | low
  | high
  deriving DecidableEq, Repr, Inhabited

/-- A pin mode (R27). -/
inductive Mode where
  | input
  | output
  | alt0
  | alt1
  | alt2
  | alt3
  | alt4
  | alt5
  deriving DecidableEq, Repr, Inhabited

/-- A pull mode that a command can name (R35). -/
inductive Pull where
  | off
  | down
  | up
  deriving DecidableEq, Repr, Inhabited

/-- A host command with its operands (R103, R105 to R110).
The operands are exactly the fields the command uses, so every term is a well-formed command: pull
code 3 has no constructor (R112), and a pin at or above NUM_PINS is well formed and turned away when
the command runs (R111). -/
inductive Instr where
  /-- INIT, R140. -/
  | init
  /-- TEARDOWN, R146. -/
  | teardown
  /-- SET_MODE, R160. -/
  | setMode (pin : Pin) (mode : Mode)
  /-- GET_MODE, R165. -/
  | getMode (pin : Pin)
  /-- SET_PULL, R170. -/
  | setPull (pin : Pin) (pull : Pull)
  /-- READ, R190. -/
  | read (pin : Pin)
  /-- WRITE, R195. -/
  | write (pin : Pin) (level : Level)
  /-- TRIGGER_PULSE, R200: the hold lasts at least `duration`. -/
  | triggerPulse (pin : Pin) (level : Level) (duration : Micros)
  /-- READ_PULSE, R220. -/
  | readPulse (pin : Pin) (target : Level) (timeout : Micros)
  /-- DECODE, R240. -/
  | decode (pin : Pin) (count : BitCount) (timeout : Micros)
  deriving DecidableEq, Repr

end Sys2Proof
end

