-- ==== Sys2Proof/Config.lean ====
section
/-! DEFINITION. The parameters of the block (spec/00_scope.md R7, R8) and its free values. -/

namespace Sys2Proof

/-- The LAYOUT parameter: where the named cells lie in the mapped block (R7, R25). -/
structure Layout where
  fselBase : Nat
  setBase : Nat
  clrBase : Nat
  levBase : Nat
  pudIndex : Nat
  pudclkBase : Nat
  deriving DecidableEq, Repr

/-- The parameters the model takes as arguments (R7). -/
structure Config where
  /-- BLOCK_WORDS, the number of 32-bit cells in the mapped block. -/
  blockWords : Nat
  /-- NUM_PINS: the valid pins are those below it. -/
  numPins : Nat
  layout : Layout
  deriving DecidableEq, Repr

/-- The answer of the operating system's device resource to one INIT (R46). -/
inductive DeviceOutcome where
  | ok
  | resourceUnavailable
  | mapFailed
  deriving DecidableEq, Repr, Inhabited

namespace Config

/-- The defaults of R7: 180 cells, 54 pins and the reference layout.
PRESUMED (log 4): the pin count and the layout are the spec's general knowledge of the BCM2835
family, not the source's; the model keeps all three as arguments. -/
def reference : Config where
  blockWords := 180
  numPins := 54
  layout :=
    { fselBase := 0, setBase := 7, clrBase := 10, levBase := 13, pudIndex := 37, pudclkBase := 38 }

/-- PULL_SETTLE_USEC: the pull clock-enable stays asserted at least this long (R7, D12). -/
def pullSettleUsec : Micros := 20

/-- How many function-select cells serve the pins: k ranges over 0 .. (NUM_PINS-1)/10 (R25). -/
def fselCells (c : Config) : Nat := (c.numPins - 1) / 10 + 1

/-- How many banks serve the pins: b ranges over 0 .. (NUM_PINS-1)/32 (R25). -/
def banks (c : Config) : Nat := (c.numPins - 1) / 32 + 1

/-! Free values (log 2). A constant here has no body, so nothing in Lean can say what it answers;
the argument is State's draw counter, or the cell or pin that the value belongs to. -/

/-- A clock reading that the environment has not fixed in State (R45, U13). -/
opaque freeClock : Nat → Clock

/-- The levels on 32 pads at one level-cell read that the environment has not fixed (R41, U11, U12). -/
opaque freePads : Nat → Word

/-- A device outcome that the environment has not fixed (R46, U14). -/
opaque freeDevice : Nat → DeviceOutcome

/-- The contents that a cell holds before the block writes it (R39, U10), by cell index. -/
opaque freeCell : Nat → Word

/-- The level that an output latch holds before the block writes it (R39, U10), by pin. -/
opaque freeLatch : Nat → Level

/-- The bytes of a failed DECODE (R244, U4): no claim may read them. -/
opaque freeBytes : Nat → List Byte

end Config

end Sys2Proof
end

