-- ==== Sys2Proof/Machine/State.lean ====
section
/-! DEFINITION. The state of one block (spec/10_state.md R19 to R51, spec/20_memory.md R86) as plain data,
the reasons a step can stop, and the state at reset (R340). -/

namespace Sys2Proof.Machine

/-- Sparse data by index, the indices strictly rising (kept by Machine/Table.lean). -/
abbrev Table (α : Type) := List (Nat × α)

/-- The port lifecycle state (R23). -/
inductive Port where
  | unmapped
  | mapped
  | released
  deriving DecidableEq, Repr

/-- Which measurement of a bit DECODE is making (R240, R241). -/
inductive Half where
  /-- The low reference pulse. -/
  | pivot
  /-- The high comparison pulse, after a pivot of `pivot` microseconds. -/
  | pulse (pivot : Micros)
  deriving DecidableEq, Repr

/-- The position of a running command between two passes of its loop (R22). -/
inductive Phase where
  /-- SET_PULL inside its settle delay, which began at `t0` (R170 step 3). -/
  | settle (t0 : Clock)
  /-- TRIGGER_PULSE inside its hold, which began at `t0` (R200). -/
  | hold (t0 : Clock)
  /-- READ_PULSE between two loop passes (R220). -/
  | poll (t0 elapsed : Clock)
  /-- DECODE between two loop passes of bit `i`'s measurement, with the bytes so far (R240). -/
  | bit (i : Nat) (half : Half) (t0 elapsed : Clock) (buf : List Byte)
  deriving DecidableEq, Repr

/-- The sequencer state (R22). -/
inductive Seq where
  | idle
  | busy (cmd : Instr) (phase : Phase)
  deriving DecidableEq, Repr

/-- The result codes (R300). -/
inductive ResultCode where
  | ok
  | resourceUnavailable
  | mapFailed
  | alreadyInitialized
  | notMapped
  | pinOutOfRange
  | illegalCommand
  | decodeFailure
  deriving DecidableEq, Repr

/-- The payload of a result (R119). -/
inductive Payload where
  | none
  /-- GET_MODE: the mode, as a 3-bit code. -/
  | mode (code : BitVec 3)
  /-- READ. -/
  | level (l : Level)
  /-- READ_PULSE (R222). -/
  | pulse (duration : Micros) (level : Level) (timedOut : Bool)
  /-- DECODE (R244). -/
  | decoded (bytes : List Byte) (success : Bool)
  deriving DecidableEq, Repr

/-- What a command returns to the host (R119, R300). -/
structure Result where
  code : ResultCode
  payload : Payload
  deriving DecidableEq, Repr

/-- One entry of the event history (R86).
`issue` carries the command word, so that a word that is no command has its boundary too (log 8). -/
inductive Event where
  /-- Read(i, v): a read of cell i that returned v. -/
  | read (i : Nat) (v : Word)
  /-- Write(i, v). -/
  | write (i : Nat) (v : Word)
  /-- Clock(t): a clock reading that returned t. -/
  | clock (t : Clock)
  /-- Sample(p, l): the pad sample of the addressed pin inside a level-cell read (log 7). -/
  | sample (p : Pin) (l : Level)
  /-- Issue(cmd). -/
  | issue (w : CommandWord)
  /-- Result(r). -/
  | result (r : Result)
  deriving DecidableEq, Repr

/-- What the agents outside the block answer (R19): the answers already fixed, each list read from its
front, and how many free answers have been drawn. Where a list is empty, or holds no entry, the answer
is a free value of Config (log 2). -/
structure Env where
  /-- The coming answers of the clock, raised to the last reading where they lie below it (R45). -/
  clock : List Clock
  /-- The coming answers of the pin environment: the levels on the 32 pads of the bank read (R41). -/
  pads : List Word
  /-- The coming device outcomes (R46). -/
  device : List DeviceOutcome
  /-- Cell contents from before the block, by cell index (R39). -/
  cells : Table Word
  /-- Output latches from before the block, by pin (R39). -/
  latch : Table Level
  /-- How many free answers have been drawn. -/
  drawn : Nat
  deriving DecidableEq, Repr

/-- The state of one block and of what it is connected to (R51). -/
structure State where
  /-- The parameters (R7); no step changes them. -/
  cfg : Config
  /-- The port lifecycle state (R23). -/
  port : Port
  /-- The sequencer (R22). -/
  seq : Seq
  /-- The stored 32-bit cells by index: function select, pull control, pull clock (R24 to R26, R34,
  R36). Set, clear and level cells store nothing that the block reads (R51). An unlisted cell reads
  as 0 (log 5). -/
  cells : Table Word
  /-- The output latches by pin (R40). A pin without an entry reads as Low (log 6). -/
  latch : Table Level
  /-- The pulls that the host configured, by pin; a pin without an entry is Unknown (R37). -/
  pull : Table Pull
  /-- The last clock reading, which every later one is at or above (R45); 0 before the first. -/
  clock : Clock
  /-- The event history, newest first (R86). -/
  history : List Event
  /-- The command words that the host will issue, the next one first (R21, R70). -/
  host : List CommandWord
  /-- The answers of the other agents (R19). -/
  env : Env
  deriving DecidableEq, Repr

/-- Why the machine stops: the block raises no trap (R313), so nothing a host does leads here. -/
inductive Fault where
  /-- Raised by a running command whose phase is not one of that command's phases (R22 gives such a
  state no meaning). Safe: no run from reset reaches it, and the model stops. -/
  | phaseMismatch
  deriving DecidableEq, Repr

/-- Why the model gives a step no meaning. -/
inductive Refusal where
  /-- Raised by an arm of exec whose instruction has no meaning yet. Safe: the model stops. -/
  | notModelled (mnemonic : String)
  /-- Raised by step where the parameters break R8, which has the model refuse them. Safe. -/
  | badConfig
  /-- Raised by exec for a command other than the one that is running: the host may issue a command
  only when the sequencer is Idle (R22). Safe: step never asks for it. -/
  | sequencerBusy
  deriving DecidableEq, Repr

/-- A result with code OK. -/
def Result.ok (p : Payload) : Result := ⟨.ok, p⟩

/-- The block at reset (R51, R340): Unmapped, Idle, every pull Unknown, no command issued.
What R51 leaves unspecified or says can be any value is stored as it is said to read in log 6: no cell
and no latch is listed, the clock has had no reading, and the environment has fixed nothing. -/
def State.reset : State where
  cfg := Config.reference
  port := .unmapped
  seq := .idle
  cells := []
  latch := []
  pull := []
  clock := 0
  history := []
  host := []
  env := { clock := [], pads := [], device := [], cells := [], latch := [], drawn := 0 }

end Sys2Proof.Machine
end

