-- ==== Sys2Proof/Machine/Flags.lean ====
section
/-! DEFINITION. The flags of results and the decoder's bit rule
(R50: no flag is stored; R222, R242, R243, R244, R300). -/

namespace Sys2Proof.Machine

/-- `timed_out` of a READ_PULSE result: true exactly when duration ≥ timeout (R222). DECODE makes the
same comparison on each of its durations (R240). -/
def timedOut (duration timeout : Micros) : Bool := decide (timeout ≤ duration)

/-- The value of a decoded bit: 1 exactly when the pulse is longer than the pivot, compared as unsigned
numbers, so that equal durations give 0 (R242). -/
def decodedBit (pivot pulse : Micros) : Bool := decide (pivot < pulse)

/-- How many bytes N bits take: ⌈N/8⌉ (R240, R243). -/
def byteCount (n : Nat) : Nat := (n + 7) / 8

/-- The buffer with bit `i` set, packed most significant bit first: byte ⌊i/8⌋, bit position
7 - (i mod 8) (R243). -/
def setBufferBit (buf : List Byte) (i : Nat) : List Byte :=
  buf.modify (i / 8) fun v => v ||| (1#8 <<< (7 - i % 8))

/-- Bit `i` of a packed byte sequence (R243). -/
def bufferBit (buf : List Byte) (i : Nat) : Bool := ((buf[i / 8]?).getD 0).getLsbD (7 - i % 8)

/-- The number of a result code (R300). -/
def ResultCode.number : ResultCode → Nat
  | .ok => 0
  | .resourceUnavailable => 1
  | .mapFailed => 2
  | .alreadyInitialized => 3
  | .notMapped => 4
  | .pinOutOfRange => 5
  | .illegalCommand => 6
  | .decodeFailure => 7

end Sys2Proof.Machine
end

