-- ==== Sys2Proof/Decode.lean ====
section
/-! DEFINITION. Decoding of command words, total on any 64 bits and on any bytes, and the encoder
(spec/30_encoding.md R100 to R116). -/

namespace Sys2Proof

/-! ### Operand codes -/

/-- The mode that a 3-bit code names; every code names one (R27). -/
def Mode.ofCode (c : BitVec 3) : Mode :=
  match c.toNat with
  | 0 => .input
  | 1 => .output
  | 2 => .alt5
  | 3 => .alt4
  | 4 => .alt0
  | 5 => .alt1
  | 6 => .alt2
  | _ => .alt3

/-- The 3-bit code of a mode (R27). -/
def Mode.code : Mode → BitVec 3
  | .input => 0
  | .output => 1
  | .alt5 => 2
  | .alt4 => 3
  | .alt0 => 4
  | .alt1 => 5
  | .alt2 => 6
  | .alt3 => 7

/-- The pull mode that a 2-bit code names; code 3 is reserved (R35, R112). -/
def Pull.ofCode (c : BitVec 2) : Option Pull :=
  match c.toNat with
  | 0 => some .off
  | 1 => some .down
  | 2 => some .up
  | _ => none

/-- The 2-bit code of a pull mode (R35). -/
def Pull.code : Pull → BitVec 2
  | .off => 0
  | .down => 1
  | .up => 2

/-- In a level cell and in the level field of a command, 1 is High (R12). -/
def Level.ofBit (b : Bool) : Level := if b then .high else .low

/-- The bit of a level (R12). -/
def Level.bit : Level → Bool
  | .low => false
  | .high => true

/-- The opposite level (R12). -/
def Level.flip : Level → Level
  | .low => .high
  | .high => .low

/-! ### The CMD format -/

/-- The fields of a command word (R101). -/
structure Fields where
  op : BitVec 4
  arg : BitVec 3
  rsv : BitVec 1
  pin : Pin
  count : BitCount
  usec : Micros
  deriving DecidableEq, Repr

/-- The fields of a word, each read with no scaling, shift or sign extension (R101, R102). -/
def Fields.ofWord (w : CommandWord) : Fields where
  op := w.extractLsb' 0 4
  arg := w.extractLsb' 4 3
  rsv := w.extractLsb' 7 1
  pin := w.extractLsb' 8 8
  count := w.extractLsb' 16 16
  usec := w.extractLsb' 32 32

/-- The word with these fields, laid out as the bit diagram of R101 has them, USEC at the top. -/
def Fields.toWord (f : Fields) : CommandWord :=
  f.usec ++ f.count ++ f.pin ++ f.rsv ++ f.arg ++ f.op

/-! ### Decoding -/

/-- Why a word is no command (R115): each gives ILLEGAL_COMMAND (R303). -/
inductive Illegal where
  /-- OP is 0x0 or 0xB to 0xF. -/
  | reservedOp
  /-- The reserved bit RSV is 1. -/
  | reservedBit
  /-- A field that the command does not use is not 0. -/
  | unusedField
  /-- SET_PULL with pull code 3 (R112). -/
  | pullCode
  /-- A byte sequence shorter than one command word (R100). -/
  | tooShort
  deriving DecidableEq, Repr

/-- The command, unless a field that it does not use is set (R103). -/
def accept (unusedClear : Bool) (i : Instr) : Except Illegal Instr :=
  if unusedClear then .ok i else .error .unusedField

/-- The command that the fields name (R103, R105 to R112). -/
def Fields.decode (f : Fields) : Except Illegal Instr :=
  if f.rsv ≠ 0 then .error .reservedBit
  else
    match f.op.toNat with
    | 0x1 => accept (f.arg == 0 && f.pin == 0 && f.count == 0 && f.usec == 0) .init
    | 0x2 => accept (f.arg == 0 && f.pin == 0 && f.count == 0 && f.usec == 0) .teardown
    | 0x3 => accept (f.count == 0 && f.usec == 0) (.setMode f.pin (Mode.ofCode f.arg))
    | 0x4 => accept (f.arg == 0 && f.count == 0 && f.usec == 0) (.getMode f.pin)
    | 0x5 =>
      match Pull.ofCode (f.arg.extractLsb' 0 2) with
      | none => .error .pullCode
      | some m => accept (f.arg.extractLsb' 2 1 == 0 && f.count == 0 && f.usec == 0) (.setPull f.pin m)
    | 0x6 => accept (f.arg == 0 && f.count == 0 && f.usec == 0) (.read f.pin)
    | 0x7 =>
      accept (f.arg.extractLsb' 1 2 == 0 && f.count == 0 && f.usec == 0)
        (.write f.pin (Level.ofBit (f.arg.getLsbD 0)))
    | 0x8 =>
      accept (f.arg.extractLsb' 1 2 == 0 && f.count == 0)
        (.triggerPulse f.pin (Level.ofBit (f.arg.getLsbD 0)) f.usec)
    | 0x9 =>
      accept (f.arg.extractLsb' 1 2 == 0 && f.count == 0)
        (.readPulse f.pin (Level.ofBit (f.arg.getLsbD 0)) f.usec)
    | 0xA => accept (f.arg == 0) (.decode f.pin f.count f.usec)
    | _ => .error .reservedOp

/-- The command that a word is, or why it is none (R103, R115). -/
def decode (w : CommandWord) : Except Illegal Instr := (Fields.ofWord w).decode

/-! ### Encoding -/

/-- The ARG field of a level operand: ARG[0] (R108, R109). -/
def Level.arg (l : Level) : BitVec 3 := (0 : BitVec 2) ++ BitVec.ofBool l.bit

/-- The ARG field of a pull operand: ARG[1:0] (R103). -/
def Pull.arg (m : Pull) : BitVec 3 := (0 : BitVec 1) ++ m.code

/-- The fields of a command: its opcode and its operands, every other field 0 (R103). -/
def Instr.fields : Instr → Fields
  | .init => { op := 0x1, arg := 0, rsv := 0, pin := 0, count := 0, usec := 0 }
  | .teardown => { op := 0x2, arg := 0, rsv := 0, pin := 0, count := 0, usec := 0 }
  | .setMode p m => { op := 0x3, arg := m.code, rsv := 0, pin := p, count := 0, usec := 0 }
  | .getMode p => { op := 0x4, arg := 0, rsv := 0, pin := p, count := 0, usec := 0 }
  | .setPull p m => { op := 0x5, arg := m.arg, rsv := 0, pin := p, count := 0, usec := 0 }
  | .read p => { op := 0x6, arg := 0, rsv := 0, pin := p, count := 0, usec := 0 }
  | .write p l => { op := 0x7, arg := l.arg, rsv := 0, pin := p, count := 0, usec := 0 }
  | .triggerPulse p l d => { op := 0x8, arg := l.arg, rsv := 0, pin := p, count := 0, usec := d }
  | .readPulse p l t => { op := 0x9, arg := l.arg, rsv := 0, pin := p, count := 0, usec := t }
  | .decode p n t => { op := 0xA, arg := 0, rsv := 0, pin := p, count := n, usec := t }

/-- The command word of a command (R101, R103). -/
def encode (i : Instr) : CommandWord := i.fields.toWord

/-- The command's mnemonic in the opcode map (R103). -/
def Instr.mnemonic : Instr → String
  | .init => "INIT"
  | .teardown => "TEARDOWN"
  | .setMode _ _ => "SET_MODE"
  | .getMode _ => "GET_MODE"
  | .setPull _ _ => "SET_PULL"
  | .read _ => "READ"
  | .write _ _ => "WRITE"
  | .triggerPulse _ _ _ => "TRIGGER_PULSE"
  | .readPulse _ _ _ => "READ_PULSE"
  | .decode _ _ _ => "DECODE"

/-- The pin of a pin command (R306); INIT and TEARDOWN name none (R105). -/
def Instr.pin? : Instr → Option Pin
  | .init | .teardown => none
  | .setMode p _ | .getMode p | .setPull p _ | .read p | .write p _ => some p
  | .triggerPulse p _ _ | .readPulse p _ _ | .decode p _ _ => some p

/-! ### Serialized command words (R75, D8: little-endian) -/

/-- The eight bytes of a word, byte 0 holding bits [7:0] (R75). -/
def bytesOfWord (w : CommandWord) : List Byte :=
  [w.extractLsb' 0 8, w.extractLsb' 8 8, w.extractLsb' 16 8, w.extractLsb' 24 8,
   w.extractLsb' 32 8, w.extractLsb' 40 8, w.extractLsb' 48 8, w.extractLsb' 56 8]

/-- The word whose serialization the eight bytes are (R75). -/
def wordOfBytes (b0 b1 b2 b3 b4 b5 b6 b7 : Byte) : CommandWord :=
  b7 ++ b6 ++ b5 ++ b4 ++ b3 ++ b2 ++ b1 ++ b0

/-- The command at the front of a byte sequence, and the bytes after it: a decoder reads exactly 64
bits for each command (R100). -/
def decodeBytes : List Byte → Except Illegal (Instr × List Byte)
  | b0 :: b1 :: b2 :: b3 :: b4 :: b5 :: b6 :: b7 :: rest =>
    match decode (wordOfBytes b0 b1 b2 b3 b4 b5 b6 b7) with
    | .ok i => .ok (i, rest)
    | .error e => .error e
  | _ => .error .tooShort

/-- The serialized command word of a command (R75). -/
def encodeBytes (i : Instr) : List Byte := bytesOfWord (encode i)

/-- The command word with the bits of `w` below `nbits`, every bit above them 0. -/
def tableWord (nbits w : Nat) : CommandWord := BitVec.ofNat 64 (w % 2 ^ nbits)

/-- The command that the decoder reads from an opcode-table word, its bits numbered as the table
numbers them: the word is laid out as bytes and given to the decoder. -/
def decodeTableWord (nbits w : Nat) : Option Instr :=
  match decodeBytes (bytesOfWord (tableWord nbits w)) with
  | .ok (i, _) => some i
  | .error _ => none

end Sys2Proof
end

