-- ==== Sys2Proof/Machine/Table.lean ====
section
/-! DEFINITION. Tables in canonical form: their entries strictly rise by index. The cell store is a
table with one more rule: no entry holds 0, which an unlisted cell reads as (log 5). -/

namespace Sys2Proof.Machine

namespace Table

/-- The entry at an index. -/
def get? {α : Type} : Table α → Nat → Option α
  | [], _ => none
  | (j, v) :: t, i => if i = j then some v else get? t i

/-- The table with one entry written. -/
def set {α : Type} : Table α → Nat → α → Table α
  | [], i, v => [(i, v)]
  | (j, u) :: t, i, v =>
    if i < j then (i, v) :: (j, u) :: t
    else if i = j then (i, v) :: t
    else (j, u) :: set t i v

/-- The table without the entries at an index. -/
def erase {α : Type} (t : Table α) (i : Nat) : Table α := t.filter fun e => e.1 != i

/-- The canonical form: the indices strictly rise. -/
abbrev Wf {α : Type} (t : Table α) : Prop := t.Pairwise fun a b => a.1 < b.1

end Table

namespace Cells

/-- What a cell reads as: its entry, and 0 where it has none (log 5). -/
def read (t : Table Word) (i : Nat) : Word := (Table.get? t i).getD 0

/-- The store with one cell written; a cell that holds 0 has no entry. -/
def write (t : Table Word) (i : Nat) (v : Word) : Table Word :=
  if v = 0 then Table.erase t i else Table.set t i v

/-- The canonical form of the cell store: strictly rising, and no entry that an unlisted cell reads as. -/
abbrev Wf (t : Table Word) : Prop := Table.Wf t ∧ ∀ e ∈ t, e.2 ≠ 0

end Cells

end Sys2Proof.Machine
end

