-- ==== Sys2Proof/Machine/Operands.lean ====
section
/-! DEFINITION. Pin index arithmetic, cell indices, bit fields and masks
(spec/00_scope.md R13, spec/10_state.md R25 to R36, R40). -/

namespace Sys2Proof.Machine

/-! ### Pin index arithmetic (R13) -/

/-- The function-select cell of a pin, counted from FSEL_BASE. -/
def fselCell (p : Nat) : Nat := p / 10

/-- The lowest bit of a pin's mode field. -/
def fselShift (p : Nat) : Nat := p % 10 * 3

/-- The bank of a pin: p >> 5. -/
def bank (p : Nat) : Nat := p >>> 5

/-- The bit of a pin within its bank. -/
def bitpos (p : Nat) : Nat := p % 32

/-- The mask with only a pin's bit set: 1 << bitpos(p). -/
def pinMask (p : Nat) : Word := 1#32 <<< bitpos p

/-! ### Named cells (R25) -/

/-- A named cell; every other cell is reserved (R38). -/
inductive CellName where
  | fsel (k : Nat)
  | set (b : Nat)
  | clr (b : Nat)
  | lev (b : Nat)
  | pud
  | pudclk (b : Nat)
  deriving DecidableEq, Repr

/-- The index of a named cell in the mapped block (R25). -/
def CellName.index (c : Config) : CellName → Nat
  | .fsel k => c.layout.fselBase + k
  | .set b => c.layout.setBase + b
  | .clr b => c.layout.clrBase + b
  | .lev b => c.layout.levBase + b
  | .pud => c.layout.pudIndex
  | .pudclk b => c.layout.pudclkBase + b

/-- The named cells that a configuration has (R25): k and b stay in their ranges. -/
def CellName.exists (c : Config) : CellName → Bool
  | .fsel k => k < c.fselCells
  | .set b | .clr b | .lev b | .pudclk b => b < c.banks
  | .pud => true

/-- Where an index lies in a run of cells, counted from the run's base. -/
def offsetIn (base cells i : Nat) : Option Nat :=
  if base ≤ i ∧ i < base + cells then some (i - base) else none

/-- The address map of R25: the named cell at an index, none for a reserved cell (R38). -/
def CellName.at (c : Config) (i : Nat) : Option CellName :=
  ((offsetIn c.layout.fselBase c.fselCells i).map .fsel).or <|
  ((offsetIn c.layout.setBase c.banks i).map .set).or <|
  ((offsetIn c.layout.clrBase c.banks i).map .clr).or <|
  ((offsetIn c.layout.levBase c.banks i).map .lev).or <|
  ((offsetIn c.layout.pudIndex 1 i).map fun _ => .pud).or <|
  (offsetIn c.layout.pudclkBase c.banks i).map .pudclk

/-- Which named cells the block reads (R25). -/
def CellName.readable : CellName → Bool
  | .fsel _ | .lev _ => true
  | .set _ | .clr _ | .pud | .pudclk _ => false

/-- Which named cells the block writes (R25). -/
def CellName.writable : CellName → Bool
  | .fsel _ | .set _ | .clr _ | .pud | .pudclk _ => true
  | .lev _ => false

/-- Every named cell of a configuration (R25). -/
def namedCells (c : Config) : List CellName :=
  (List.range c.fselCells).map .fsel ++ (List.range c.banks).map .set ++
    (List.range c.banks).map .clr ++ (List.range c.banks).map .lev ++ [.pud] ++
    (List.range c.banks).map .pudclk

/-- The cell that a write of a level to a pin goes to: the pin's set cell for High, its clear cell for
Low (R195, R200). -/
def driveCell (p : Nat) : Level → CellName
  | .high => .set (bank p)
  | .low => .clr (bank p)

/-- The cells that hold values before the block maps them (R39). -/
def drawnCells (c : Config) : List CellName :=
  (List.range c.fselCells).map .fsel ++ [.pud] ++ (List.range c.banks).map .pudclk

/-! ### Mode fields (R26, R28) -/

/-- The 3-bit field of a function-select cell that starts at a bit. -/
def modeField (v : Word) (shift : Nat) : BitVec 3 := v.extractLsb' shift 3

/-- A function-select cell with one mode field replaced: (old & ~(7 << s)) | (code << s) (R160). -/
def withModeField (old : Word) (shift : Nat) (code : BitVec 3) : Word :=
  (old &&& ~~~(7#32 <<< shift)) ||| (code.setWidth 32 <<< shift)

/-- A cell as a number, read through the store (R24). -/
def State.cell (s : State) (c : CellName) : Word := Cells.read s.cells (c.index s.cfg)

/-- The 3-bit code in a pin's mode field (R28). -/
def State.modeCode (s : State) (p : Nat) : BitVec 3 :=
  modeField (s.cell (.fsel (fselCell p))) (fselShift p)

/-- The mode of a pin (R28). -/
def State.mode (s : State) (p : Nat) : Mode := Mode.ofCode (s.modeCode p)

/-! ### Latches, pulls and pads (R37, R40) -/

/-- The output latch of a pin (R40). -/
def State.latchOf (s : State) (p : Nat) : Level := (Table.get? s.latch p).getD .low

/-- The pull configured for a pin, none for Unknown (R37). -/
def State.pullOf (s : State) (p : Nat) : Option Pull := Table.get? s.pull p

/-- The level that the block drives on the pad of a pin, none where it does not drive it: the pad is
driven to the latch exactly when the mode is Output (R40). An index at or above NUM_PINS has no latch
and no pad, and the mode field that lies at its place is the mode of no pin (R26). -/
def State.padDrive (s : State) (p : Nat) : Option Level :=
  if p < s.cfg.numPins ∧ s.mode p = .output then some (s.latchOf p) else none

/-! ### Words by bits -/

/-- The word whose bit i is `f i` for every i below `n`, and whose other bits are 0. -/
def wordOfBits (f : Nat → Bool) : Nat → Word
  | 0 => 0
  | n + 1 => wordOfBits f n ||| (if f n then 1#32 <<< n else 0)

/-- The latches after a write of `v` to a set cell (`l` High) or a clear cell (`l` Low) of bank `b`,
its bits below `n` taken: a 1 bit moves the latch of its pin, when the pin is below NUM_PINS, and a 0
bit changes nothing (R29, R30, R31). -/
def latchBits (numPins b : Nat) (v : Word) (l : Level) (t : Table Level) : Nat → Table Level
  | 0 => t
  | n + 1 =>
    if v.getLsbD n && decide (32 * b + n < numPins) then
      Table.set (latchBits numPins b v l t n) (32 * b + n) l
    else latchBits numPins b v l t n

end Sys2Proof.Machine
end

