-- ==== Sys2Proof/Machine/Ops.lean ====
section
/-! DEFINITION. The shared operations: the events of R86, the draws of R39, R41, R45 and R46, how a
command begins, continues and ends (R22, R310, R312), the busy wait of R11 and the poll of R220. -/

namespace Sys2Proof.Machine

namespace State

/-- The state with one more event in its history (R86). -/
def log (s : State) (e : Event) : State := { s with history := e :: s.history }

/-! ### Draws (R39, R41, R45, R46): the next answer of each agent, and the agents after it -/

/-- The reading that the clock gives from the answer `t` when the last reading is `last`: the clock never
moves backward (R45). -/
def clockReading (last t : Clock) : Clock := if last ≤ t then t else last

/-- What `now()` returns next (R11, R45). -/
def nextReading (s : State) : Clock :=
  clockReading s.clock <|
    match s.env.clock with
    | t :: _ => t
    | [] => Config.freeClock s.env.drawn

/-- The levels on the 32 pads of a bank at the next level-cell read (R41). -/
def nextPads (s : State) : Word :=
  match s.env.pads with
  | v :: _ => v
  | [] => Config.freePads s.env.drawn

/-- The outcome of the next INIT that opens the device (R46). -/
def nextDevice (s : State) : DeviceOutcome :=
  match s.env.device with
  | o :: _ => o
  | [] => Config.freeDevice s.env.drawn

end State

namespace Env

/-- The agents after one clock answer. -/
def takeClock (e : Env) : Env :=
  match e.clock with
  | _ :: ts => { e with clock := ts }
  | [] => { e with drawn := e.drawn + 1 }

/-- The agents after one answer of the pin environment. -/
def takePads (e : Env) : Env :=
  match e.pads with
  | _ :: vs => { e with pads := vs }
  | [] => { e with drawn := e.drawn + 1 }

/-- The agents after one device outcome. -/
def takeDevice (e : Env) : Env :=
  match e.device with
  | _ :: os => { e with device := os }
  | [] => { e with drawn := e.drawn + 1 }

end Env

namespace State

/-- `now()`: one clock reading, recorded in the history (R11, R86). -/
def now (s : State) : Clock × State :=
  (s.nextReading,
    { s with clock := s.nextReading, env := s.env.takeClock }.log (.clock s.nextReading))

/-- One answer of the pin environment (R41). -/
def drawPads (s : State) : Word × State := (s.nextPads, { s with env := s.env.takePads })

/-- One answer of the device resource (R46). -/
def drawDevice (s : State) : DeviceOutcome × State :=
  (s.nextDevice, { s with env := s.env.takeDevice })

/-- What a cell holds before the block writes it (R39). -/
def initialCell (s : State) (i : Nat) : Word := (Table.get? s.env.cells i).getD (Config.freeCell i)

/-- What an output latch holds before the block writes it (R39). -/
def initialLatch (s : State) (p : Nat) : Level :=
  (Table.get? s.env.latch p).getD (Config.freeLatch p)

/-- The cell store with the initial contents of the cells `cs` (R39). -/
def drawCells (s : State) (cs : List CellName) : Table Word :=
  cs.foldl (fun t c => Cells.write t (c.index s.cfg) (s.initialCell (c.index s.cfg))) s.cells

/-- Every output latch with its initial level (R39). -/
def drawLatch (s : State) : Table Level :=
  (List.range s.cfg.numPins).map fun p => (p, s.initialLatch p)

/-! ### Cell accesses (R25, R72, R73): each moves one whole cell and is one event -/

/-- A read of a function-select cell: the value last written, or drawn at INIT (R74). -/
def readFsel (s : State) (k : Nat) : Word × State :=
  let v := s.cell (.fsel k)
  (v, s.log (.read (CellName.index s.cfg (.fsel k)) v))

/-- A write of a stored cell. -/
def store (s : State) (c : CellName) (v : Word) : State :=
  { s with cells := Cells.write s.cells (c.index s.cfg) v }.log (.write (c.index s.cfg) v)

/-- A write of a function-select cell (R26). -/
def writeFsel (s : State) (k : Nat) (v : Word) : State := s.store (.fsel k) v

/-- A write of the pull-control cell (R34). -/
def writePud (s : State) (v : Word) : State := s.store .pud v

/-- A write of a pull clock-enable cell (R36). -/
def writePudclk (s : State) (b : Nat) (v : Word) : State := s.store (.pudclk b) v

/-- A write of a set cell: the latches of the pins whose bit is 1 go High (R30). -/
def writeSet (s : State) (b : Nat) (v : Word) : State :=
  { s with latch := latchBits s.cfg.numPins b v .high s.latch 32 }.log
    (.write (CellName.index s.cfg (.set b)) v)

/-- A write of a clear cell: the latches of the pins whose bit is 1 go Low (R31). -/
def writeClr (s : State) (b : Nat) (v : Word) : State :=
  { s with latch := latchBits s.cfg.numPins b v .low s.latch 32 }.log
    (.write (CellName.index s.cfg (.clr b)) v)

/-- The value of a level cell when the pads are at `pads`: the latch for a pin in Output mode, the pad
sample for another pin, any value for a bit that is no pin's (R32). -/
def levelWord (s : State) (b : Nat) (pads : Word) : Word :=
  wordOfBits (fun i =>
    if 32 * b + i < s.cfg.numPins ∧ s.mode (32 * b + i) = .output then (s.latchOf (32 * b + i)).bit
    else pads.getLsbD i) 32

/-- The value that the next read of the level cell of bank `b` returns (R32). -/
def nextLevelWord (s : State) (b : Nat) : Word := s.levelWord b s.nextPads

/-- The level of a pin that the next sample of it sees (R33). -/
def nextLevel (s : State) (p : Nat) : Level :=
  Level.ofBit ((s.nextLevelWord (bank p)).getLsbD (bitpos p))

/-- The events of one sample of a pin, newest first: the read of its level cell, and before it the pad
sample of the pin when it is not in Output mode (R86, log 7). -/
def sampleEvents (s : State) (p : Pin) : List Event :=
  .read (CellName.index s.cfg (.lev (bank p.toNat))) (s.nextLevelWord (bank p.toNat)) ::
    (if s.mode p.toNat = .output then [] else [.sample p (s.nextLevel p.toNat)])

/-- One sample of a pin: its level in a fresh read of its level cell (R32, R33, R85, R190). -/
def sample (s : State) (p : Pin) : Level × State :=
  (s.nextLevel p.toNat,
    { s.drawPads.2 with history := s.sampleEvents p ++ s.history })

/-- The write that drives a pin's latch to a level: its mask to the set cell for High, to the clear cell
for Low (R195, R200). -/
def drive (s : State) (p : Pin) (l : Level) : State :=
  match l with
  | .high => s.writeSet (bank p.toNat) (pinMask p.toNat)
  | .low => s.writeClr (bank p.toNat) (pinMask p.toNat)

/-! ### Results (R119, R300, R312): a result is the only exception entry the block has -/

/-- The end of a command: its result goes to the host and the sequencer is Idle again (R22, R312). -/
def finish (s : State) (r : Result) : State := { s with seq := .idle }.log (.result r)

/-- `raise E`: the command ends with an error code (R11). Nothing is saved, no mode changes and no
vector is taken (R312). -/
def raise (s : State) (code : ResultCode) : State := s.finish ⟨code, .none⟩

/-- `return r`: the command ends with code OK (R11). The host's next command is the only return there is
from an error (R312). -/
def succeed (s : State) (p : Payload) : State := s.finish (Result.ok p)

/-- The common checks of a pin command, in the order of R310 (R305, R306): the decode check has been
made where a command is known. -/
def checked (s : State) (p : Pin) (body : State → State) : State :=
  if s.port ≠ .mapped then s.raise .notMapped
  else if s.cfg.numPins ≤ p.toNat then s.raise .pinOutOfRange
  else body s

/-- The state in which a command waits at a phase (R22). -/
def wait (s : State) (cmd : Instr) (ph : Phase) : State := { s with seq := .busy cmd ph }

/-! ### The busy wait and the poll -/

/-- One pass of `delay(d)` that began at `t0`: one clock reading, and whether the clock has advanced by
at least `d` since (R11). -/
def delayPass (s : State) (t0 : Clock) (d : Micros) : Bool × State :=
  let (t, s1) := s.now
  (decide (d.setWidth 64 ≤ t - t0), s1)

end State

/-- How one loop pass of a measurement ends (R220). -/
inductive PollEnd where
  /-- The measurement is over after this duration. -/
  | done (duration : Micros)
  /-- The level still holds and the timeout is not reached. -/
  | again (elapsed : Clock)
  deriving DecidableEq, Repr

/-- One loop pass of `PulseBody` (R220): a sample, and, when it still sees the target level, one clock
reading. -/
def State.pollPass (s : State) (p : Pin) (target : Level) (timeout : Micros) (t0 elapsed : Clock) :
    PollEnd × State :=
  let (l, s1) := s.sample p
  if l ≠ target then (.done (elapsed.setWidth 32), s1)
  else
    let (t, s2) := s1.now
    let e := t - t0
    if timeout.setWidth 64 ≤ e then (.done timeout, s2) else (.again e, s2)

/-! ### Running a command (R22) -/

/-- One step of the command `cmd`: it begins when the sequencer is Idle, and goes on from its phase when
it is the running command. No other command may be issued while one runs (R22, R202). -/
def runPhase (cmd : Instr) (s : State) (start : State → State) (resume : Phase → Option State) :
    Host.Outcome State Fault Refusal :=
  match s.seq with
  | .idle => .next (start s)
  | .busy c ph =>
    if c = cmd then
      match resume ph with
      | some s' => .next s'
      | none => .fault .phaseMismatch
    else .refused .sequencerBusy

/-- One step of a command whose events are all performed in one step (log 1). -/
def runAtOnce (cmd : Instr) (s : State) (body : State → State) : Host.Outcome State Fault Refusal :=
  runPhase cmd s body fun _ => none

end Sys2Proof.Machine
end

