-- ==== Sys2Proof/Machine/Lifecycle.lean ====
section
/-! DEFINITION. INIT and TEARDOWN (spec/40_port_lifecycle.md). -/

namespace Sys2Proof.Machine

/-- What INIT does once the device has answered (R140, R142). A successful INIT draws what the cells and
latches hold (R39), and every pull is Unknown (R37). -/
def initWith (o : DeviceOutcome) (s : State) : State :=
  match o with
  | .resourceUnavailable => s.raise .resourceUnavailable
  | .mapFailed => s.raise .mapFailed
  | .ok =>
    State.succeed
      { s with
        port := .mapped, cells := s.drawCells (drawnCells s.cfg), latch := s.drawLatch, pull := [] }
      .none

/-- INIT (R140, R141, R310). -/
def initBody (s : State) : State :=
  if s.port ≠ .unmapped then s.raise .alreadyInitialized
  else
    let (o, s1) := s.drawDevice
    initWith o s1

/-- TEARDOWN (R146): only the port state changes. -/
def teardownBody (s : State) : State :=
  if s.port ≠ .mapped then s.raise .notMapped
  else State.succeed { s with port := .released } .none

/-- INIT. -/
def execInit (s : State) : Host.Outcome State Fault Refusal := runAtOnce .init s initBody

/-- TEARDOWN. -/
def execTeardown (s : State) : Host.Outcome State Fault Refusal := runAtOnce .teardown s teardownBody

end Sys2Proof.Machine
end

