-- ==== Sys2Proof/Machine/PinConfig.lean ====
section
/-! DEFINITION. SET_MODE, GET_MODE and SET_PULL (spec/41_pin_config.md). -/

namespace Sys2Proof.Machine

/-- SET_MODE after its checks: one read and one write of the pin's function-select cell (R160, R162). -/
def setModeBody (p : Pin) (m : Mode) (s : State) : State :=
  let (old, s1) := s.readFsel (fselCell p.toNat)
  (s1.writeFsel (fselCell p.toNat) (withModeField old (fselShift p.toNat) m.code)).succeed .none

/-- SET_MODE (R160). -/
def execSetMode (p : Pin) (m : Mode) (s : State) : Host.Outcome State Fault Refusal :=
  runAtOnce (.setMode p m) s fun s => s.checked p (setModeBody p m)

/-- GET_MODE after its checks: one read of the pin's function-select cell (R165). -/
def getModeBody (p : Pin) (s : State) : State :=
  let (v, s1) := s.readFsel (fselCell p.toNat)
  s1.succeed (.mode (modeField v (fselShift p.toNat)))

/-- GET_MODE (R165). -/
def execGetMode (p : Pin) (s : State) : Host.Outcome State Fault Refusal :=
  runAtOnce (.getMode p) s fun s => s.checked p (getModeBody p)

/-- Whether a pin's clock-enable bit is 1 (R36). -/
def State.clockEnabled (s : State) (q : Nat) : Bool :=
  (s.cell (.pudclk (bank q))).getLsbD (bitpos q)

/-- At step 1 of SET_PULL on `p`, every other pin whose clock-enable bit is 1 loses its known pull: the
new pull-control value may have reached its resistor (R173). A bit is 1 then only in a cell that still
holds what INIT drew, for step 5 leaves 0. -/
def State.forgetPulls (s : State) (p : Pin) : State :=
  { s with pull := s.pull.filter fun e => e.1 == p.toNat || !s.clockEnabled e.1 }

/-- Steps 1 and 2 of the pull protocol: the pull-control cell takes the code, then the pin's
clock-enable bit is asserted (R170). -/
def State.assertPull (s : State) (p : Pin) (m : Pull) : State :=
  ((s.forgetPulls p).writePud (m.code.setWidth 32)).writePudclk (bank p.toNat) (pinMask p.toNat)

/-- Steps 4 and 5, and the ghost update: the pull-control cell is cleared before the clock-enable
(R170, R171), and the pin's pull is known (R37, R173). -/
def State.releasePull (s : State) (p : Pin) (m : Pull) : State :=
  let s1 := (s.writePud 0).writePudclk (bank p.toNat) 0
  State.succeed { s1 with pull := Table.set s1.pull p.toNat m } .none

/-- One pass of the settle delay that began at `t0` (R170 step 3, R171). -/
def settlePass (p : Pin) (m : Pull) (t0 : Clock) (s : State) : State :=
  let (ended, s1) := s.delayPass t0 Config.pullSettleUsec
  if ended then s1.releasePull p m else s1.wait (.setPull p m) (.settle t0)

/-- SET_PULL after its checks, up to and with the first pass of its settle delay (R170). -/
def setPullBody (p : Pin) (m : Pull) (s : State) : State :=
  let (t0, s1) := (s.assertPull p m).now
  settlePass p m t0 s1

/-- SET_PULL (R170): it holds the sequencer until its settle delay is over (R172). -/
def execSetPull (p : Pin) (m : Pull) (s : State) : Host.Outcome State Fault Refusal :=
  runPhase (.setPull p m) s (fun s => s.checked p (setPullBody p m)) fun
    | .settle t0 => some (settlePass p m t0 s)
    | .hold _ | .poll _ _ | .bit _ _ _ _ _ => none

end Sys2Proof.Machine
end

