-- ==== Sys2Proof/Machine/PinIo.lean ====
section
/-! DEFINITION. READ, WRITE and TRIGGER_PULSE (spec/42_pin_io.md). -/

namespace Sys2Proof.Machine

/-- READ after its checks: one fresh sample (R190). -/
def readBody (p : Pin) (s : State) : State :=
  let (l, s1) := s.sample p
  s1.succeed (.level l)

/-- READ (R190). -/
def execRead (p : Pin) (s : State) : Host.Outcome State Fault Refusal :=
  runAtOnce (.read p) s fun s => s.checked p (readBody p)

/-- WRITE after its checks: one write of the set or the clear cell (R195). -/
def writeBody (p : Pin) (l : Level) (s : State) : State := (s.drive p l).succeed .none

/-- WRITE (R195). -/
def execWrite (p : Pin) (l : Level) (s : State) : Host.Outcome State Fault Refusal :=
  runAtOnce (.write p l) s fun s => s.checked p (writeBody p l)

/-- One pass of the hold that began at `t0`; after the last one the pin is driven to the opposite level
(R200, R201). -/
def holdPass (p : Pin) (l : Level) (d : Micros) (t0 : Clock) (s : State) : State :=
  let (ended, s1) := s.delayPass t0 d
  if ended then (s1.drive p l.flip).succeed .none else s1.wait (.triggerPulse p l d) (.hold t0)

/-- TRIGGER_PULSE after its checks: the lead write and the first pass of the hold (R200). -/
def triggerPulseBody (p : Pin) (l : Level) (d : Micros) (s : State) : State :=
  let (t0, s1) := (s.drive p l).now
  holdPass p l d t0 s1

/-- TRIGGER_PULSE (R200): the sequencer stays Busy from the lead write to the trail write (R202). -/
def execTriggerPulse (p : Pin) (l : Level) (d : Micros) (s : State) :
    Host.Outcome State Fault Refusal :=
  runPhase (.triggerPulse p l d) s (fun s => s.checked p (triggerPulseBody p l d)) fun
    | .hold t0 => some (holdPass p l d t0 s)
    | .settle _ | .poll _ _ | .bit _ _ _ _ _ => none

end Sys2Proof.Machine
end

