-- ==== Sys2Proof/Machine/PulseDecoder.lean ====
section
/-! DEFINITION. DECODE (spec/44_pulse_decoder.md). -/

namespace Sys2Proof.Machine

/-- The level that a measurement of a bit times: the pivot Low, the pulse High (R241). -/
def Half.target : Half → Level
  | .pivot => .low
  | .pulse _ => .high

/-- The end of a DECODE whose measurement timed out: `success` is false, and the bytes are any value,
a free value that no claim may read (R244). -/
def State.decodeFails (s : State) : State :=
  State.finish { s with env := { s.env with drawn := s.env.drawn + 1 } }
    ⟨.decodeFailure, .decoded (Config.freeBytes s.env.drawn) false⟩

/-- The start of a measurement of bit `i`: its start timestamp (R220, R240). -/
def beginHalf (cmd : Instr) (i : Nat) (half : Half) (buf : List Byte) (s : State) : State :=
  let (t0, s1) := s.now
  s1.wait cmd (.bit i half t0 0 buf)

/-- What follows a measurement of bit `i` that took `d` (R240): a timeout ends the command, a pivot is
followed by the pulse, and a pulse gives the bit and is followed by the next bit's pivot. -/
def afterHalf (p : Pin) (n : BitCount) (timeout : Micros) (i : Nat) (half : Half) (buf : List Byte)
    (d : Micros) (s : State) : State :=
  if timedOut d timeout then s.decodeFails
  else
    match half with
    | .pivot => beginHalf (.decode p n timeout) i (.pulse d) buf s
    | .pulse pivot =>
      let buf' := if decodedBit pivot d then setBufferBit buf i else buf
      if i + 1 < n.toNat then beginHalf (.decode p n timeout) (i + 1) .pivot buf' s
      else s.succeed (.decoded buf' true)

/-- One loop pass of a measurement of bit `i` (R240). -/
def decodePass (p : Pin) (n : BitCount) (timeout : Micros) (i : Nat) (half : Half)
    (t0 elapsed : Clock) (buf : List Byte) (s : State) : State :=
  match s.pollPass p half.target timeout t0 elapsed with
  | (.done d, s1) => afterHalf p n timeout i half buf d s1
  | (.again e, s1) => s1.wait (.decode p n timeout) (.bit i half t0 e buf)

/-- DECODE after its checks: with N = 0 it is done (R245), otherwise the first pivot's start timestamp and
first loop pass (R240). Every byte of the buffer starts at 0. -/
def decodeBody (p : Pin) (n : BitCount) (timeout : Micros) (s : State) : State :=
  if n = 0 then s.succeed (.decoded [] true)
  else
    let (t0, s1) := s.now
    decodePass p n timeout 0 .pivot t0 0 (List.replicate (byteCount n.toNat) 0) s1

/-- DECODE (R240). -/
def execDecode (p : Pin) (n : BitCount) (timeout : Micros) (s : State) :
    Host.Outcome State Fault Refusal :=
  runPhase (.decode p n timeout) s (fun s => s.checked p (decodeBody p n timeout)) fun
    | .bit i half t0 e buf => some (decodePass p n timeout i half t0 e buf s)
    | .settle _ | .hold _ | .poll _ _ => none

end Sys2Proof.Machine
end

