-- ==== Sys2Proof/Machine/PulseTimer.lean ====
section
/-! DEFINITION. READ_PULSE (spec/43_pulse_timer.md). -/

namespace Sys2Proof.Machine

/-- The result of a measurement (R222): a timeout is code OK with its flag set (R302). -/
def measurement (target : Level) (timeout duration : Micros) : Payload :=
  .pulse duration target (timedOut duration timeout)

/-- One loop pass of READ_PULSE (R220, R221). -/
def readPulsePass (p : Pin) (target : Level) (timeout : Micros) (t0 elapsed : Clock) (s : State) :
    State :=
  match s.pollPass p target timeout t0 elapsed with
  | (.done d, s1) => s1.succeed (measurement target timeout d)
  | (.again e, s1) => s1.wait (.readPulse p target timeout) (.poll t0 e)

/-- READ_PULSE after its checks: the start timestamp and the first loop pass (R220). -/
def readPulseBody (p : Pin) (target : Level) (timeout : Micros) (s : State) : State :=
  let (t0, s1) := s.now
  readPulsePass p target timeout t0 0 s1

/-- READ_PULSE (R220). -/
def execReadPulse (p : Pin) (target : Level) (timeout : Micros) (s : State) :
    Host.Outcome State Fault Refusal :=
  runPhase (.readPulse p target timeout) s (fun s => s.checked p (readPulseBody p target timeout)) fun
    | .poll t0 e => some (readPulsePass p target timeout t0 e s)
    | .settle _ | .hold _ | .bit _ _ _ _ _ => none

end Sys2Proof.Machine
end

