-- ==== Sys2Proof/Machine/Dispatch.lean ====
section
/-! DEFINITION. The meaning of each command, one arm per constructor. -/

namespace Sys2Proof.Machine

/-- One step of the command `i` (R22): it begins it, or goes on with it where it is running. -/
def exec (i : Instr) (s : State) : Host.Outcome State Fault Refusal :=
  match i with
  | .init => Sys2Proof.Machine.execInit s
  | .teardown => Sys2Proof.Machine.execTeardown s
  | .setMode p m => Sys2Proof.Machine.execSetMode p m s
  | .getMode p => Sys2Proof.Machine.execGetMode p s
  | .setPull p m => Sys2Proof.Machine.execSetPull p m s
  | .read p => Sys2Proof.Machine.execRead p s
  | .write p l => Sys2Proof.Machine.execWrite p l s
  | .triggerPulse p l d => Sys2Proof.Machine.execTriggerPulse p l d s
  | .readPulse p l t => Sys2Proof.Machine.execReadPulse p l t s
  | .decode p n t => Sys2Proof.Machine.execDecode p n t s

end Sys2Proof.Machine
end

