-- ==== Sys2Proof/Machine/Fetch.lean ====
section
/-! DEFINITION. How a command reaches the sequencer (R21, R22, R115). -/

namespace Sys2Proof.Machine

/-- The state after the host has issued the word `w`, with `rest` still to issue (R21, R86). -/
def State.issue (s : State) (w : CommandWord) (rest : List CommandWord) : State :=
  { s with host := rest }.log (.issue w)

/-- What an issued word that is no command gives: ILLEGAL_COMMAND, and nothing else (R115, R303). -/
def State.rejectWord (s : State) : State := s.raise .illegalCommand

/-- The state with the host about to issue one more word, before the words it holds already, to an Idle
sequencer. -/
def State.nextWord (s : State) (w : CommandWord) : State :=
  { s with seq := .idle, host := w :: s.host }

end Sys2Proof.Machine
end

