-- ==== Sys2Proof/WellFormed.lean ====
section
/-! DEFINITION. What is well formed: a configuration (R7, R8) and a command word (the table of R103). -/

namespace Sys2Proof

/-- A run of neighbouring cells of one class. -/
structure Span where
  base : Nat
  cells : Nat
  deriving DecidableEq, Repr

/-- Two runs share no cell. -/
abbrev Span.Apart (a b : Span) : Prop := a.base + a.cells ≤ b.base ∨ b.base + b.cells ≤ a.base

/-- The six classes of named cell, each a run of neighbouring indices (R25). -/
def Config.spans (c : Config) : List Span :=
  [⟨c.layout.fselBase, c.fselCells⟩, ⟨c.layout.setBase, c.banks⟩, ⟨c.layout.clrBase, c.banks⟩,
   ⟨c.layout.levBase, c.banks⟩, ⟨c.layout.pudIndex, 1⟩, ⟨c.layout.pudclkBase, c.banks⟩]

/-- The constraints on the parameters (R7 BLOCK_WORDS, R8): the pin count is 1 to 256, every named
cell lies in the block, and the named cells are pairwise distinct. A class is a run of neighbouring
indices, so its own cells are distinct, and cells of two classes are when the two runs share none. -/
abbrev Config.Valid (c : Config) : Prop :=
  180 ≤ c.blockWords ∧ 1 ≤ c.numPins ∧ c.numPins ≤ 256 ∧
  (∀ s ∈ c.spans, s.base + s.cells ≤ c.blockWords) ∧ c.spans.Pairwise Span.Apart

/-- One row of the opcode map of R103. -/
structure OpcodeRow where
  mnemonic : String
  pattern : CommandWord
  mask : CommandWord
  /-- The row's extra condition ARG[1:0] ≠ 3 applies (SET_PULL). -/
  pullRow : Bool := false
  deriving DecidableEq, Repr

/-- The opcode map of R103, one row per command (R104). -/
def opcodeRows : List OpcodeRow :=
  [{ mnemonic := "INIT", pattern := 0x1, mask := 0xFFFFFFFFFFFFFFFF },
   { mnemonic := "TEARDOWN", pattern := 0x2, mask := 0xFFFFFFFFFFFFFFFF },
   { mnemonic := "SET_MODE", pattern := 0x3, mask := 0xFFFFFFFFFFFF008F },
   { mnemonic := "GET_MODE", pattern := 0x4, mask := 0xFFFFFFFFFFFF00FF },
   { mnemonic := "SET_PULL", pattern := 0x5, mask := 0xFFFFFFFFFFFF00CF, pullRow := true },
   { mnemonic := "READ", pattern := 0x6, mask := 0xFFFFFFFFFFFF00FF },
   { mnemonic := "WRITE", pattern := 0x7, mask := 0xFFFFFFFFFFFF00EF },
   { mnemonic := "TRIGGER_PULSE", pattern := 0x8, mask := 0x00000000FFFF00EF },
   { mnemonic := "READ_PULSE", pattern := 0x9, mask := 0x00000000FFFF00EF },
   { mnemonic := "DECODE", pattern := 0xA, mask := 0x00000000000000FF }]

/-- A word is the command of this row exactly when its masked bits are the row's and the extra
condition holds (R103). -/
def OpcodeRow.covers (r : OpcodeRow) (w : CommandWord) : Bool :=
  (w &&& r.mask) == r.pattern && (!r.pullRow || (w &&& 0x30) != 0x30)

/-- The row that a word belongs to, if any. -/
def opcodeRow? (w : CommandWord) : Option OpcodeRow := opcodeRows.find? fun r => r.covers w

/-- A word is a command when some row covers it (R103, R115). -/
def wellFormedWord (w : CommandWord) : Bool := opcodeRows.any fun r => r.covers w

end Sys2Proof
end

