-- ==== Sys2Proof/Machine/Step.lean ====
section
/-! DEFINITION. One step of the block (R22, R80). -/

namespace Sys2Proof.Machine

/-- One step: a running command goes on; an Idle sequencer takes the host's next command word, and
waits as it is when the host has none to issue (R21, R22, log 9). Parameters that break R8 are refused. -/
def step (s : State) : Host.Outcome State Fault Refusal :=
  if s.cfg.Valid then
    match s.seq with
    | .busy cmd _ => exec cmd s
    | .idle =>
      match s.host with
      | [] => .next s
      | w :: rest =>
        match decode w with
        | .ok i => exec i (s.issue w rest)
        | .error _ => .next (s.issue w rest).rejectWord
  else .refused .badConfig

/-- The state with the opcode-table word `w` as the next command word: the sequencer is Idle and the host
issues the word first, so the next step runs it (log 10). -/
def State.withFetchWord (s : State) (nbits w : Nat) : State := s.nextWord (tableWord nbits w)

end Sys2Proof.Machine
end

