-- ==== Sys2Proof/Machine/Assembler.lean ====
section
/-! DEFINITION. The assembler's line form of a command (spec/30_encoding.md R117, R118). -/

namespace Sys2Proof.Assembler

/-! ### Operand spellings (R117) -/

/-- The spelling of a mode. -/
def modeName : Mode → String
  | .input => "Input"
  | .output => "Output"
  | .alt0 => "AltFunction0"
  | .alt1 => "AltFunction1"
  | .alt2 => "AltFunction2"
  | .alt3 => "AltFunction3"
  | .alt4 => "AltFunction4"
  | .alt5 => "AltFunction5"

/-- The spelling of a pull mode. -/
def pullName : Pull → String
  | .off => "Off"
  | .down => "PullDown"
  | .up => "PullUp"

/-- The spelling of a level. -/
def levelName : Level → String
  | .low => "Low"
  | .high => "High"

/-- The value among `xs` with this spelling. -/
def named {α : Type} (name : α → String) (xs : List α) (cs : List Char) : Option α :=
  xs.find? fun x => (name x).toList == cs

def modeOf : List Char → Option Mode :=
  named modeName [.input, .output, .alt0, .alt1, .alt2, .alt3, .alt4, .alt5]

def pullOf : List Char → Option Pull := named pullName [.off, .down, .up]

def levelOf : List Char → Option Level := named levelName [.low, .high]

/-- The value of a digit, 16 or more for a character that is none. -/
def digitValue (c : Char) : Nat :=
  if '0' ≤ c ∧ c ≤ '9' then c.toNat - '0'.toNat
  else if 'a' ≤ c ∧ c ≤ 'f' then c.toNat - 'a'.toNat + 10
  else if 'A' ≤ c ∧ c ≤ 'F' then c.toNat - 'A'.toNat + 10
  else 16

/-- The number that digits name in a base, after the digits already read. -/
def digits (base : Nat) : Nat → List Char → Option Nat
  | n, [] => some n
  | n, c :: cs => if digitValue c < base then digits base (base * n + digitValue c) cs else none

/-- A decimal or 0x-prefixed hexadecimal numeral (R117). -/
def numeral : List Char → Option Nat
  | [] => none
  | '0' :: 'x' :: c :: cs => digits 16 0 (c :: cs)
  | c :: cs => digits 10 0 (c :: cs)

/-- A numeral that fits its field (R101, R102). -/
def field (w : Nat) (cs : List Char) : Option (BitVec w) :=
  match numeral cs with
  | some n => if n < 2 ^ w then some (BitVec.ofNat w n) else none
  | none => none

/-! ### Lines (R117): one command a line, in the call form of the source -/

/-- The operands of a call, split at the commas. -/
def splitCommas : List Char → List (List Char)
  | [] => [[]]
  | c :: cs =>
    if c = ',' then [] :: splitCommas cs
    else
      match splitCommas cs with
      | [] => [[c]]
      | f :: fs => (c :: f) :: fs

/-- The operands between the parentheses, without the spaces before each (log 17). -/
def operands (cs : List Char) : List (List Char) :=
  if cs = [] then [] else (splitCommas cs).map (List.dropWhile (· == ' '))

/-- The command that a call names (R117). DECODE's timeout stands before its bit count. -/
def call (name : String) (ops : List (List Char)) : Option Instr :=
  match ops with
  | [] =>
    if name = "initialize" then some .init
    else if name = "teardown" then some .teardown
    else none
  | [a] =>
    (field 8 a).bind fun p =>
      if name = "get_mode" then some (.getMode p)
      else if name = "read" then some (.read p)
      else none
  | [a, b] =>
    (field 8 a).bind fun p =>
      if name = "set_mode" then (modeOf b).map (.setMode p)
      else if name = "set_pull" then (pullOf b).map (.setPull p)
      else if name = "write" then (levelOf b).map (.write p)
      else none
  | [a, b, c] =>
    (field 8 a).bind fun p =>
      if name = "trigger_pulse" then (levelOf b).bind fun l => (field 32 c).map (.triggerPulse p l)
      else if name = "read_pulse" then (levelOf b).bind fun l => (field 32 c).map (.readPulse p l)
      else if name = "decode" then (field 32 b).bind fun t => (field 16 c).map (.decode p · t)
      else none
  | _ => none

/-- The command on a line: a name, then its operands in parentheses up to the line's end. -/
def assembleChars (cs : List Char) : Option Instr :=
  let name := cs.takeWhile (· != '(')
  match cs.dropWhile (· != '(') with
  | _ :: rest =>
    if rest.getLast? = some ')' then call (String.ofList name) (operands rest.dropLast) else none
  | [] => none

/-- The command that a line of the assembler syntax is, exactly one command word (R118). -/
def assemble (line : String) : Option Instr := assembleChars line.toList

/-! ### Printing -/

/-- The decimal digits of a number, at most `fuel` of them. -/
def decimal : Nat → Nat → List Char
  | 0, _ => []
  | fuel + 1, n =>
    if n < 10 then [Char.ofNat (48 + n)] else decimal fuel (n / 10) ++ [Char.ofNat (48 + n % 10)]

/-- A field as a decimal numeral: ten digits reach every 32-bit value. -/
def showField {w : Nat} (v : BitVec w) : List Char := decimal 10 v.toNat

/-- The name and the operands of a command's line (R117). -/
def parts : Instr → String × List (List Char)
  | .init => ("initialize", [])
  | .teardown => ("teardown", [])
  | .setMode p m => ("set_mode", [showField p, (modeName m).toList])
  | .getMode p => ("get_mode", [showField p])
  | .setPull p m => ("set_pull", [showField p, (pullName m).toList])
  | .read p => ("read", [showField p])
  | .write p l => ("write", [showField p, (levelName l).toList])
  | .triggerPulse p l d => ("trigger_pulse", [showField p, (levelName l).toList, showField d])
  | .readPulse p l t => ("read_pulse", [showField p, (levelName l).toList, showField t])
  | .decode p n t => ("decode", [showField p, showField t, showField n])

/-- Operands with a comma and a space between them. -/
def joinOperands : List (List Char) → List Char
  | [] => []
  | [a] => a
  | a :: b :: rest => a ++ ',' :: ' ' :: joinOperands (b :: rest)

/-- The line of a command (R117). -/
def render (i : Instr) : String :=
  String.ofList ((parts i).1.toList ++ '(' :: joinOperands (parts i).2 ++ [')'])

end Sys2Proof.Assembler
end

