-- ==== Sys2Proof/Safety.lean ====
section
/-! DEFINITION. What a sound state is, which events a block may perform, what a finished run is, and the
terms that statements about whole runs are written in. -/

namespace Sys2Proof.Machine

/-! ### Sound states -/

/-- A running command's phase is one of its own (R22), and what it holds is what the command's rule
leaves there: the start timestamp lies at or before the last clock reading, the elapsed time is the
time between the two and is below the timeout, and a decoder's bit index, pivot and buffer are those of
a command that has not ended (R170, R200, R220, R240). -/
def State.phaseFits (s : State) : Instr → Phase → Bool
  | .setPull _ _, .settle t0 => decide (t0 ≤ s.clock)
  | .triggerPulse _ _ _, .hold t0 => decide (t0 ≤ s.clock)
  | .readPulse _ _ timeout, .poll t0 e =>
    decide (t0 ≤ s.clock ∧ e = s.clock - t0 ∧ e < timeout.setWidth 64)
  | .decode _ n timeout, .bit i half t0 e buf =>
    decide (t0 ≤ s.clock ∧ e = s.clock - t0 ∧ e < timeout.setWidth 64 ∧ i < n.toNat ∧
      buf.length = byteCount n.toNat) &&
    match half with
    | .pivot => true
    | .pulse pivot => decide (pivot < timeout)
  | _, _ => false

/-- A running command has passed its checks and stands at a phase of its own (R22, R310). -/
def State.seqFits (s : State) : Bool :=
  match s.seq with
  | .idle => true
  | .busy cmd ph =>
    decide (s.port = .mapped) && (cmd.pin?.all fun p => decide (p.toNat < s.cfg.numPins)) &&
      s.phaseFits cmd ph

/-- The latches are those of the pins below NUM_PINS, each of which has one once INIT has drawn them
(R39, R40). -/
abbrev State.LatchFits (s : State) : Prop :=
  Table.Wf s.latch ∧ (∀ e ∈ s.latch, e.1 < s.cfg.numPins) ∧
  (s.port ≠ .unmapped → ∀ p < s.cfg.numPins, (Table.get? s.latch p).isSome = true)

/-- The known pulls are those of pins below NUM_PINS (R37). -/
abbrev State.PullFits (s : State) : Prop :=
  Table.Wf s.pull ∧ ∀ e ∈ s.pull, e.1 < s.cfg.numPins

/-- A sound state: its tables are in canonical form and its sequencer stands where a command leaves it.
Every state that a run from reset reaches is one. -/
abbrev State.Inv (s : State) : Prop :=
  Cells.Wf s.cells ∧ s.LatchFits ∧ s.PullFits ∧ s.seqFits = true

/-- A pin command on `p` passes its checks here: the sequencer is Idle, the port Mapped and the pin in
range (R22, R310). -/
abbrev State.Ready (s : State) (p : Pin) : Prop :=
  s.seq = .idle ∧ s.port = .mapped ∧ p.toNat < s.cfg.numPins

/-! ### Events -/

/-- What a write of a named cell may carry (R34, R36): a pull code in the pull-control cell, and one
clock-enable bit or none in a pull clock-enable cell. -/
def CellName.accepts (c : CellName) (v : Word) : Bool :=
  match c with
  | .pud => decide (v.toNat ≤ 2)
  | .pudclk _ => decide (v = 0) || (List.range 32).any fun k => decide (v = 1#32 <<< k)
  | .fsel _ | .set _ | .clr _ | .lev _ => true

/-- An event touches only a cell that the address map names, in a way that R25 gives that cell: no
event touches a reserved cell (R38), and none lies outside the block (R79). -/
def Event.fits (c : Config) : Event → Bool
  | .read i _ => decide (i < c.blockWords) && (CellName.at c i).any CellName.readable
  | .write i v =>
    decide (i < c.blockWords) && (CellName.at c i).any fun n => n.writable && n.accepts v
  | .sample p _ => decide (p.toNat < c.numPins)
  | .clock _ | .issue _ | .result _ => true

/-- The clock readings in a history, newest first. -/
def readings : List Event → List Clock
  | [] => []
  | .clock t :: es => t :: readings es
  | .read _ _ :: es | .write _ _ :: es | .sample _ _ :: es | .issue _ :: es | .result _ :: es =>
    readings es

/-- The clock has never moved backward (R45). -/
def State.clockOrdered (s : State) : Bool :=
  decide ((s.clock :: readings s.history).Pairwise fun a b => b ≤ a)

/-- An event that only observes: a cell read, a clock reading or a pad sample. -/
def Event.observes : Event → Bool
  | .read _ _ | .clock _ | .sample _ _ => true
  | .write _ _ | .issue _ | .result _ => false

/-- The events in the order in which they happened (R86). -/
def State.events (s : State) : List Event := s.history.reverse

/-! ### Finished runs -/

/-- The host has issued TEARDOWN since the last INIT that it issued, as a history with the newest event
first tells (R147). -/
def tornDown : List Event → Bool
  | [] => false
  | .issue w :: es =>
    if decode w = .ok .teardown then true else if decode w = .ok .init then false else tornDown es
  | .read _ _ :: es | .write _ _ :: es | .clock _ :: es | .sample _ _ :: es | .result _ :: es =>
    tornDown es

/-- The host has done its duty to end its use of the block with TEARDOWN: the mapping is released, or, on
a path where there never was one, TEARDOWN has been issued all the same (R147, R346, log 20). -/
def State.teardownDone (s : State) : Bool :=
  match s.port with
  | .released => true
  | .unmapped => tornDown s.history
  | .mapped => false

/-- A run is final when the host has nothing more to issue, no command is running and the host has ended
its use of the block with TEARDOWN: a run that ends without TEARDOWN is not final (R147). -/
def State.final (s : State) : Bool :=
  decide (s.seq = .idle) && s.host.isEmpty && s.teardownDone

/-! ### The fairness of the clock (R45) -/

/-- The run from `s` keeps reading the clock: it makes any number of readings. -/
def State.KeepsReading (s : State) : Prop :=
  ∀ n : Nat, ∃ (k : Nat) (u : State),
    Host.Core.run Sys2Proof.core k s = .next u ∧ n ≤ (readings u.history).length

/-- The clock is fair in the run from `s`: for every bound, if the run keeps reading the clock, then it
gets a value at or above the bound (R45). The bounds are those that a 64-bit clock that never wraps can
reach. The spec has the model assume this of every run: a statement takes it as a premise (log 3). -/
def State.ClockFair (s : State) : Prop :=
  s.KeepsReading → ∀ bound : Clock, ∃ (k : Nat) (u : State),
    Host.Core.run Sys2Proof.core k s = .next u ∧ bound ≤ u.clock

/-! ### Traces of the other agents, for statements about whole commands -/

/-- The clock readings of `delay`: the clock stays below `limit` past `t0` for all of `ts` (R11). -/
abbrev StaysBelow (t0 : Clock) (limit : Micros) (ts : List Clock) : Prop :=
  ∀ t ∈ ts, t - t0 < limit.setWidth 64

/-- Readings that a monotonic clock may give after the reading `last` (R45). -/
abbrev NeverBack (last : Clock) (ts : List Clock) : Prop := (last :: ts).Pairwise fun a b => a ≤ b

/-- A bit of a pulse train: how long the low pulse and the high pulse last. -/
abbrev BitPair := Micros × Micros

/-- The clock answers of one half-bit of duration `d` that begins at `t` and is sampled twice:
the start timestamp, and the reading after the sample that still saw the level. -/
def halfClocks (t : Clock) (d : Micros) : List Clock := [t, t + d.setWidth 64]

/-- The clock answers of a pulse train that begins at `t`: each half-bit begins when the one before it
ends. -/
def trainClocks (t : Clock) : List BitPair → List Clock
  | [] => []
  | (lo, hi) :: rest =>
    halfClocks t lo ++ halfClocks (t + lo.setWidth 64) hi ++
      trainClocks (t + lo.setWidth 64 + hi.setWidth 64) rest

/-- How long a pulse train lasts, in microseconds. -/
def trainLength : List BitPair → Nat
  | [] => 0
  | (lo, hi) :: rest => lo.toNat + hi.toNat + trainLength rest

/-- The pad levels that the samples of a pulse train see, oldest first: for each bit Low, then High, for
the pivot, then High, then Low, for the pulse. -/
def trainLevels : List BitPair → List Level
  | [] => []
  | _ :: rest => [.low, .high, .high, .low] ++ trainLevels rest

end Sys2Proof.Machine
end

