-- ==== Sys2Proof/Certificates/Slice0/Obligations.lean ====
section
/-! DEFINITION. The statements for the provers. Each docstring names the rules of spec/ that its statement
rests on, or the log entry of a choice of the model's own. -/

open Sys2Proof Sys2Proof.Machine

/-! ### Encoding (spec/30_encoding.md) -/

/-- Words written out in spec/95_test_vectors.md, each with the command it stands for. -/
def Obligations.SpecWordsDecode : Prop :=
  decode 0x0000000000000001 = .ok .init ∧
  decode 0x0000000000000002 = .ok .teardown ∧
  decode 0x0000000000001113 = .ok (.setMode 17 .output) ∧
  decode 0x0000000000003523 = .ok (.setMode 53 .alt5) ∧
  decode 0x0000000000001104 = .ok (.getMode 17) ∧
  decode 0x0000000000000425 = .ok (.setPull 4 .up) ∧
  decode 0x0000000000002306 = .ok (.read 35) ∧
  decode 0x0000000000002317 = .ok (.write 35 .high) ∧
  decode 0x000003E800000418 = .ok (.triggerPulse 4 .high 1000) ∧
  decode 0x000000C800000409 = .ok (.readPulse 4 .low 200) ∧
  decode 0x000000640008040A = .ok (.decode 4 8 100)

/-- Decoding the command word of any command gives that command back, every operand at every value
(R101, R102, R103). -/
def Obligations.DecodeOfEncode : Prop := ∀ i : Instr, decode (encode i) = .ok i

/-- A word that decodes is the command word of what it decodes to: no two words are one command
(R104). -/
def Obligations.EncodeOfDecode : Prop :=
  ∀ (w : CommandWord) (i : Instr), decode w = .ok i → encode i = w

/-- A word is a command exactly when a row of the opcode map covers it, and it is that row's command
(R103). -/
def Obligations.CommandIffTableRow : Prop :=
  ∀ w : CommandWord,
    ((∃ i, decode w = .ok i) ↔
      ∃ r ∈ opcodeRows, w &&& r.mask = r.pattern ∧ (r.pullRow = true → w.extractLsb' 4 2 ≠ 3)) ∧
    ∀ i, decode w = .ok i → ∃ r ∈ opcodeRows, r.covers w = true ∧ r.mnemonic = i.mnemonic

/-- No word is covered by two rows of the opcode map (R104). -/
def Obligations.OpcodeRowsDisjoint : Prop :=
  ∀ (w : CommandWord), ∀ r ∈ opcodeRows, ∀ r' ∈ opcodeRows,
    r.covers w = true → r'.covers w = true → r = r'

/-- A serialized command reads back as that command, whatever follows it, and its byte k holds bits
[8k+7 : 8k] of the word (R75, R100). -/
def Obligations.SerializedCommandReadsBack : Prop :=
  ∀ (i : Instr) (rest : List Byte),
    decodeBytes (encodeBytes i ++ rest) = .ok (i, rest) ∧
    (encodeBytes i).length = 8 ∧
    ∀ k < 8, ∀ j < 8,
      (((encodeBytes i)[k]?).getD 0).getLsbD j = (encode i).getLsbD (8 * k + j)

/-- The mode codes of R27: the eight values, and every 3-bit value names one mode. -/
def Obligations.ModeCodesNameEveryMode : Prop :=
  Mode.ofCode 0 = .input ∧ Mode.ofCode 1 = .output ∧ Mode.ofCode 2 = .alt5 ∧ Mode.ofCode 3 = .alt4 ∧
  Mode.ofCode 4 = .alt0 ∧ Mode.ofCode 5 = .alt1 ∧ Mode.ofCode 6 = .alt2 ∧ Mode.ofCode 7 = .alt3 ∧
  (∀ m : Mode, Mode.ofCode m.code = m) ∧ ∀ c : BitVec 3, (Mode.ofCode c).code = c

/-- A SET_PULL word with pull code 3, or with ARG[2] = 1, is no command (R112). -/
def Obligations.PullCodeThreeIsNoCommand : Prop :=
  ∀ w : CommandWord, w.extractLsb' 0 4 = 5 → (w.extractLsb' 4 2 = 3 ∨ w.getLsbD 6 = true) →
    ∀ i, decode w ≠ .ok i

/-- A word with a reserved OP, or with RSV = 1, or that fails the mask test or the extra condition of
every row of the opcode map, is illegal: it performs no event, changes no state and returns
ILLEGAL_COMMAND (R115, R303). The host's queue moves on, and that the history records the word's issue
and its result is the model's choice (log 8). -/
def Obligations.IllegalWordsChangeNothing : Prop :=
  ∀ (s : State) (w : CommandWord) (ws : List CommandWord),
    s.cfg.Valid → s.seq = .idle → s.host = w :: ws →
    (w.extractLsb' 0 4 = 0 ∨ 0xB ≤ (w.extractLsb' 0 4).toNat ∨ w.getLsbD 7 = true ∨
      ∀ r ∈ opcodeRows, w &&& r.mask = r.pattern → r.pullRow = true ∧ w.extractLsb' 4 2 = 3) →
      step s = .next
        { s with
          host := ws,
          history := .result ⟨.illegalCommand, .none⟩ :: .issue w :: s.history }

/-- Every command's line, in the call syntax, assembles to that command (R117, R118). The spelling of
spaces and numerals is the model's choice (log 17). -/
def Obligations.AssembleOfRender : Prop := ∀ i : Instr, Assembler.assemble (Assembler.render i) = some i

/-! ### The sequencer (R22) and the parameters (R8) -/

/-- When the sequencer is Idle and the host's next word decodes to a command, a step is that command's
exec on the state with the word issued (R21, R22). -/
def Obligations.StepRunsDecodedCommand : Prop :=
  ∀ (s : State) (w : CommandWord) (ws : List CommandWord) (i : Instr),
    s.cfg.Valid → s.seq = .idle → s.host = w :: ws → decode w = .ok i →
      step s = exec i { s with host := ws, history := .issue w :: s.history }

/-- While a command runs, a step goes on with that command alone: the host's words stay where they are,
and the sequencer stays with the command until it is Idle (R22, R202). -/
def Obligations.RunningCommandIsAlone : Prop :=
  ∀ (s : State) (cmd : Instr) (ph : Phase), s.cfg.Valid → s.seq = .busy cmd ph →
    step s = exec cmd s ∧
    ∀ t, step s = .next t → t.host = s.host ∧ (t.seq = .idle ∨ ∃ ph', t.seq = .busy cmd ph')

/-- The model refuses a configuration exactly when it breaks a constraint of R8, or has fewer than the
180 cells that R7 asks for. That each step checks is the model's choice (log 19). -/
def Obligations.ConfigRefusedExactlyWhenInvalid : Prop :=
  ∀ s : State, step s = .refused .badConfig ↔
    ¬ (1 ≤ s.cfg.numPins ∧ s.cfg.numPins ≤ 256 ∧ 180 ≤ s.cfg.blockWords ∧
        (∀ c ∈ namedCells s.cfg, c.index s.cfg < s.cfg.blockWords) ∧
        ((namedCells s.cfg).map (CellName.index s.cfg)).Nodup)

/-- The address map names each cell class at its own indices, and names nothing else (R25, R38). -/
def Obligations.AddressMapNamesEachCell : Prop :=
  ∀ c : Config, c.Valid →
    (∀ n : CellName, n.exists c = true →
      CellName.at c (n.index c) = some n ∧ n.index c < c.blockWords) ∧
    ∀ (i : Nat) (n : CellName), CellName.at c i = some n → n.exists c = true ∧ n.index c = i

/-! ### Reset and invariants -/

/-- At reset the port is Unmapped, the sequencer Idle and every pull Unknown, and no command is in
flight (R340). That nothing waits at the host is the model's choice (log 10). -/
def Obligations.ResetIsUnmappedIdleUnknown : Prop :=
  State.reset.port = .unmapped ∧ State.reset.seq = .idle ∧ (∀ p, State.reset.pullOf p = none) ∧
  State.reset.history = [] ∧ State.reset.host = []

/-- The reset state is sound, its parameters keep R8, and its history is in order. The parameters of the
reset state are the spec's defaults from general knowledge (log 4), and the values that R51 leaves open
are the model's choice (log 6). -/
def Obligations.ResetIsSound : Prop :=
  State.reset.Inv ∧ State.reset.cfg.Valid ∧ State.reset.clockOrdered = true ∧
  ∀ e ∈ State.reset.history, e.fits State.reset.cfg = true

/-- Every step keeps the state sound: canonical tables, latches and pulls of the block's pins only, and
a running command at a phase of its own that its measurement admits (R22, R23, R37, R39, R240). The
canonical form is the model's (log 5). -/
def Obligations.StepKeepsInv : Prop := ∀ s t : State, s.Inv → step s = .next t → t.Inv

/-- Every event of a sound block touches a named cell in a way that R25 gives it, inside the block: no
reserved cell is accessed (R38), no level cell is written (R32), the pull-control cell only ever takes a
pull code (R34), and a pull clock-enable cell one bit or none (R36). -/
def Obligations.StepKeepsEventsFit : Prop :=
  ∀ s t : State, s.Inv → (∀ e ∈ s.history, e.fits s.cfg = true) → step s = .next t →
    ∀ e ∈ t.history, e.fits t.cfg = true

/-- The clock never moves backward, in a step and over the whole history (R45). -/
def Obligations.ClockNeverMovesBackward : Prop :=
  ∀ s t : State, s.clockOrdered = true → step s = .next t →
    t.clockOrdered = true ∧ s.clock ≤ t.clock

/-- A sound block always has a next state: nothing a host does makes it trap or stop (R313). -/
def Obligations.SoundBlockAlwaysSteps : Prop :=
  ∀ s : State, s.cfg.Valid → s.Inv → ∃ t, step s = .next t

/-- The history only grows: an event once performed stays where it is (R80, R86). -/
def Obligations.HistoryOnlyGrows : Prop :=
  ∀ s t : State, step s = .next t → ∃ es, t.history = es ++ s.history

/-! ### Which command writes what (R23, R51) -/

/-- Only INIT and TEARDOWN write the port, INIT from Unmapped to Mapped and TEARDOWN from Mapped to
Released (R23). -/
def Obligations.OnlyLifecycleMovesPort : Prop :=
  ∀ (i : Instr) (s t : State), exec i s = .next t →
    t.port = s.port ∨ (i = .init ∧ s.port = .unmapped ∧ t.port = .mapped) ∨
      (i = .teardown ∧ s.port = .mapped ∧ t.port = .released)

/-- The column "written by" of R51. The port changes only under INIT and TEARDOWN, a latch only under
INIT, WRITE and TRIGGER_PULSE, a pull only under INIT and SET_PULL, the clock only under the commands
that read it. In a sound block with valid parameters, a cell that changes is a function-select cell
under INIT or SET_MODE, or a pull-control or pull clock-enable cell under INIT or SET_PULL; what is
stored for every other cell never changes. The parameters and the host's words change under none. -/
def Obligations.StateChangesOnlyUnderItsWriters : Prop :=
  ∀ (i : Instr) (s t : State), exec i s = .next t →
    (t.port = s.port ∨ i = .init ∨ i = .teardown) ∧
    (t.latch = s.latch ∨ i = .init ∨ (∃ p l, i = .write p l) ∨ ∃ p l d, i = .triggerPulse p l d) ∧
    (t.pull = s.pull ∨ i = .init ∨ ∃ p m, i = .setPull p m) ∧
    (t.clock = s.clock ∨ (∃ p m, i = .setPull p m) ∨ (∃ p l d, i = .triggerPulse p l d) ∨
      (∃ p l d, i = .readPulse p l d) ∨ ∃ p n d, i = .decode p n d) ∧
    (s.cfg.Valid → s.Inv → ∀ k, Cells.read t.cells k ≠ Cells.read s.cells k →
      ((∃ j, CellName.at s.cfg k = some (.fsel j)) ∧ (i = .init ∨ ∃ p m, i = .setMode p m)) ∨
      ((CellName.at s.cfg k = some .pud ∨ ∃ b, CellName.at s.cfg k = some (.pudclk b)) ∧
        (i = .init ∨ ∃ p m, i = .setPull p m))) ∧
    t.cfg = s.cfg ∧ t.host = s.host

/-- The configured pulls are ghost state: no command reads them, so changing them changes nothing else
of what a command does (R37). -/
def Obligations.PullIsGhost : Prop :=
  ∀ (i : Instr) (s t : State) (x : Table Pull), exec i s = .next t →
    ∃ y, exec i { s with pull := x } = .next { t with pull := y }

/-! ### Checks (R310) and the port lifecycle -/

/-- Every command but INIT returns NOT_MAPPED when the port is not Mapped, whatever its pin, and changes
nothing (R305). That a refused command's result is recorded is the model's choice (log 8). -/
def Obligations.NotMappedWithoutMapping : Prop :=
  ∀ (i : Instr) (s : State), i ≠ .init → s.seq = .idle → s.port ≠ .mapped →
    exec i s = .next { s with history := .result ⟨.notMapped, .none⟩ :: s.history }

/-- Every pin command whose pin is NUM_PINS or above returns PIN_OUT_OF_RANGE, and changes nothing
(R306). That a refused command's result is recorded is the model's choice (log 8). -/
def Obligations.PinOutOfRangeRefused : Prop :=
  ∀ (i : Instr) (p : Pin) (s : State), i.pin? = some p → s.seq = .idle → s.port = .mapped →
    s.cfg.numPins ≤ p.toNat →
      exec i s = .next { s with history := .result ⟨.pinOutOfRange, .none⟩ :: s.history }

/-- INIT while the port is Mapped or Released returns ALREADY_INITIALIZED and changes nothing (R141,
R304). That a refused command's result is recorded is the model's choice (log 8). -/
def Obligations.SecondInitRefused : Prop :=
  ∀ s : State, s.seq = .idle → s.port ≠ .unmapped →
    exec .init s = .next { s with history := .result ⟨.alreadyInitialized, .none⟩ :: s.history }

/-- INIT from Unmapped ends with the device's outcome. A failure leaves the port, the cells, the latches
and the pulls as they were. A success maps the port, gives every function-select, pull-control and pull
clock-enable cell and every output latch what it held before, and makes every pull Unknown (R37, R39,
R140, R307). That a failed INIT's result is recorded is the model's choice (log 8), and that the
contents are drawn by index and pin with no cell event is its reading (log 18). -/
def Obligations.InitFollowsDeviceOutcome : Prop :=
  ∀ s : State, s.seq = .idle → s.port = .unmapped →
    (s.nextDevice = .resourceUnavailable →
      exec .init s = .next
        { s with
          env := s.env.takeDevice,
          history := .result ⟨.resourceUnavailable, .none⟩ :: s.history }) ∧
    (s.nextDevice = .mapFailed →
      exec .init s = .next
        { s with
          env := s.env.takeDevice, history := .result ⟨.mapFailed, .none⟩ :: s.history }) ∧
    (s.nextDevice = .ok →
      ∃ t, exec .init s = .next t ∧
        t = { s with
              port := .mapped, cells := t.cells, latch := t.latch, pull := [],
              env := s.env.takeDevice, history := .result ⟨.ok, .none⟩ :: s.history } ∧
        (∀ c ∈ drawnCells s.cfg, t.cell c = s.initialCell (c.index s.cfg)) ∧
        (∀ i, (∀ c ∈ drawnCells s.cfg, c.index s.cfg ≠ i) →
          Cells.read t.cells i = Cells.read s.cells i) ∧
        ∀ p < s.cfg.numPins, t.latchOf p = s.initialLatch p)

/-- TEARDOWN releases a mapped port and leaves every cell, latch and pull as it found them; without a
mapping it returns NOT_MAPPED (R146). That a refused TEARDOWN's result is recorded is the model's choice
(log 8). -/
def Obligations.TeardownReleasesPort : Prop :=
  ∀ s : State, s.seq = .idle →
    (s.port = .mapped →
      exec .teardown s = .next
        { s with port := .released, history := .result ⟨.ok, .none⟩ :: s.history }) ∧
    (s.port ≠ .mapped →
      exec .teardown s = .next
        { s with history := .result ⟨.notMapped, .none⟩ :: s.history })

/-- A released port stays released under every step, and no run of a released block leads back to the
cells: every later command is turned away with a result (R141, R146). That a refused command's result is
recorded is the model's choice (log 8). -/
def Obligations.ReleasedForever : Prop :=
  ∀ s t : State, s.port = .released → s.seq = .idle → step s = .next t →
    t.port = .released ∧ t.seq = .idle ∧ t.cells = s.cells ∧ t.latch = s.latch ∧ t.pull = s.pull ∧
    t.clock = s.clock ∧
    (s.host ≠ [] → ∃ c, c ≠ .ok ∧ t.history.head? = some (.result ⟨c, .none⟩))

/-! ### Pin configuration (spec/41_pin_config.md) -/

/-- SET_MODE reads the pin's function-select cell and writes it back with only the pin's field changed
to the new code; every other bit, cell, latch and pull stays (R160, R161, R162). -/
def Obligations.SetModeWritesOneField : Prop :=
  ∀ (s : State) (p : Pin) (m : Mode), s.Ready p →
    let i := s.cfg.layout.fselBase + p.toNat / 10
    let sh := p.toNat % 10 * 3
    let old := Cells.read s.cells i
    let new := (old &&& ~~~(7#32 <<< sh)) ||| (m.code.setWidth 32 <<< sh)
    ∃ t, exec (.setMode p m) s = .next t ∧
      t = { s with
            cells := t.cells,
            history := .result ⟨.ok, .none⟩ :: .write i new :: .read i old :: s.history } ∧
      Cells.read t.cells i = new ∧
      (∀ j, (∀ k < 3, j ≠ sh + k) → new.getLsbD j = old.getLsbD j) ∧
      ∀ j, j ≠ i → Cells.read t.cells j = Cells.read s.cells j

/-- After SET_MODE the pin has the mode just set, GET_MODE returns its code, and every other pin keeps
its mode, those that share the cell among them (R160, R161, R165). -/
def Obligations.SetModeIsolatesPins : Prop :=
  ∀ (s t : State) (p : Pin) (m : Mode), s.Ready p → exec (.setMode p m) s = .next t →
    t.mode p.toNat = m ∧ (∀ q : Nat, q ≠ p.toNat → t.modeCode q = s.modeCode q) ∧
    ∃ u, exec (.getMode p) t = .next u ∧ u.history.head? = some (.result ⟨.ok, .mode m.code⟩)

/-- GET_MODE reads the pin's function-select cell once, returns the pin's field, and writes nothing
(R165). -/
def Obligations.GetModeReturnsField : Prop :=
  ∀ (s : State) (p : Pin), s.Ready p →
    let i := s.cfg.layout.fselBase + p.toNat / 10
    let v := Cells.read s.cells i
    exec (.getMode p) s = .next
      { s with
        history :=
          .result ⟨.ok, .mode (v.extractLsb' (p.toNat % 10 * 3) 3)⟩ :: .read i v :: s.history }

/-- SET_MODE drives the pad at the latch exactly when the new mode is Output, and moves no other pad
(R40, R163). -/
def Obligations.SetModeDrivesPadExactlyInOutput : Prop :=
  ∀ (s t : State) (p : Pin) (m : Mode), s.Ready p → exec (.setMode p m) s = .next t →
    t.padDrive p.toNat = (if m = .output then some (s.latchOf p.toNat) else none) ∧
    ∀ q : Nat, q ≠ p.toNat → t.padDrive q = s.padDrive q

/-- SET_PULL begins with its first three events: the pull-control cell takes the code, the pin's
clock-enable bit is asserted, and the settle delay's start is read. It then runs as a command that waits
in that delay (R170 steps 1 to 3). That a step makes one pass is the model's choice (log 1). That pulls
become Unknown at this point is the model's reading of R173 (log 11). -/
def Obligations.SetPullBegins : Prop :=
  ∀ (s : State) (p : Pin) (m : Pull), s.Ready p →
    let i := s.cfg.layout.pudIndex
    let j := s.cfg.layout.pudclkBase + p.toNat / 32
    let code : Word := m.code.setWidth 32
    let mask := 1#32 <<< (p.toNat % 32)
    exec (.setPull p m) s = exec (.setPull p m)
      { s with
        seq := .busy (.setPull p m) (.settle s.nextReading),
        cells := Cells.write (Cells.write s.cells i code) j mask,
        pull := (s.forgetPulls p).pull,
        clock := s.nextReading,
        env := s.env.takeClock,
        history := .clock s.nextReading :: .write j mask :: .write i code :: s.history }

/-- SET_PULL in its settle delay reads the clock once. Before 20 microseconds it goes on waiting; from
then on it clears the pull-control cell, then the clock-enable, makes the pin's pull known, and ends
with OK (R170 steps 3 to 5, R171). That a step makes one pass is the model's choice (log 1). That the
other pulls stay over this step, their Unknown update made at step 1, is the model's reading of R173
(log 11). -/
def Obligations.SetPullSettles : Prop :=
  ∀ (s : State) (p : Pin) (m : Pull) (t0 : Clock),
    s.seq = .busy (.setPull p m) (.settle t0) →
    let i := s.cfg.layout.pudIndex
    let j := s.cfg.layout.pudclkBase + p.toNat / 32
    let t := s.nextReading
    (t - t0 < 20 →
      exec (.setPull p m) s = .next
        { s with clock := t, env := s.env.takeClock, history := .clock t :: s.history }) ∧
    (20 ≤ t - t0 →
      ∃ u, exec (.setPull p m) s = .next u ∧
        u = { s with
              seq := .idle, cells := u.cells, pull := u.pull, clock := t, env := s.env.takeClock,
              history :=
                .result ⟨.ok, .none⟩ :: .write j 0 :: .write i 0 :: .clock t :: s.history } ∧
        Cells.read u.cells i = 0 ∧ Cells.read u.cells j = 0 ∧
        (∀ k, k ≠ i → k ≠ j → Cells.read u.cells k = Cells.read s.cells k) ∧
        u.pullOf p.toNat = some m ∧ ∀ q : Nat, q ≠ p.toNat → u.pullOf q = s.pullOf q)

/-- A whole SET_PULL over the clock readings `t0`, `ts`, `t1`, of which `t1` is the first at least 20
microseconds after `t0`: the five steps in their order, and the ghost state as R173 has it (R170, R171,
R173). That a step makes one pass is the model's choice (log 1). -/
def Obligations.SetPullRunsProtocol : Prop :=
  ∀ (s : State) (w : CommandWord) (ws : List CommandWord) (p : Pin) (m : Pull)
    (t0 t1 : Clock) (ts cs : List Clock),
    s.cfg.Valid → s.Ready p → s.host = w :: ws → decode w = .ok (.setPull p m) →
    s.env.clock = t0 :: ts ++ t1 :: cs → NeverBack s.clock (t0 :: ts ++ [t1]) →
    StaysBelow t0 20 ts → 20 ≤ t1 - t0 →
    let i := s.cfg.layout.pudIndex
    let j := s.cfg.layout.pudclkBase + p.toNat / 32
    ∃ u : State, Host.Core.run Sys2Proof.core (ts.length + 1) s = .next u ∧
      u = { s with
            cells := u.cells, pull := u.pull, clock := t1, host := ws,
            env := { s.env with clock := cs }, history := u.history } ∧
      u.events = s.events ++
        [.issue w, .write i (m.code.setWidth 32), .write j (1#32 <<< (p.toNat % 32)), .clock t0] ++
        ts.map .clock ++
        [.clock t1, .write i 0, .write j 0, .result ⟨.ok, .none⟩] ∧
      Cells.read u.cells i = 0 ∧ Cells.read u.cells j = 0 ∧
      (∀ k, k ≠ i → k ≠ j → Cells.read u.cells k = Cells.read s.cells k) ∧
      u.pullOf p.toNat = some m ∧
      ∀ q : Nat, q ≠ p.toNat →
        u.pullOf q =
          if (s.cell (.pudclk (q / 32))).getLsbD (q % 32) = true then none else s.pullOf q

/-! ### Pin levels (spec/42_pin_io.md) -/

/-- A read of a level cell: the latch for a pin in Output mode, the pad for another pin, and the draw
for a bit that is no pin's (R32). -/
def Obligations.LevelCellFormedAtRead : Prop :=
  ∀ (s : State) (b i : Nat), i < 32 →
    (s.nextLevelWord b).getLsbD i =
      if 32 * b + i < s.cfg.numPins ∧ s.mode (32 * b + i) = .output then
        decide (s.latchOf (32 * b + i) = .high)
      else s.nextPads.getLsbD i

/-- READ returns the pin's latch in Output mode and a fresh pad sample otherwise; it reads one level
cell and changes nothing of the block (R190, R33). How the pin's own sample is recorded is the model's
choice (log 7). -/
def Obligations.ReadReturnsLevel : Prop :=
  ∀ (s : State) (p : Pin), s.Ready p →
    let i := s.cfg.layout.levBase + p.toNat / 32
    let out := s.mode p.toNat = .output
    ∃ (l : Level) (v : Word),
      exec (.read p) s = .next
        { s with
          env := s.env.takePads,
          history :=
            .result ⟨.ok, .level l⟩ :: .read i v ::
              ((if out then [] else [.sample p l]) ++ s.history) } ∧
      (v.getLsbD (p.toNat % 32) = true ↔ l = .high) ∧
      (out → l = s.latchOf p.toNat) ∧
      (¬ out → (l = .high ↔ s.nextPads.getLsbD (p.toNat % 32) = true))

/-- A write of a set cell sets, and a write of a clear cell clears, the latches of exactly the pins of
its bank whose bit is 1 and that are below NUM_PINS (R30, R31). -/
def Obligations.SetAndClearCellsAct : Prop :=
  ∀ (s : State) (b : Nat) (v : Word) (q : Nat),
    let hit := q / 32 = b ∧ v.getLsbD (q % 32) = true ∧ q < s.cfg.numPins
    (s.writeSet b v).latchOf q = (if hit then .high else s.latchOf q) ∧
    (s.writeClr b v).latchOf q = (if hit then .low else s.latchOf q)

/-- WRITE performs one write, of the pin's mask to its set cell for High and to its clear cell for Low;
the pin's latch takes the level and nothing else of the block changes (R195). -/
def Obligations.WriteMovesOneLatch : Prop :=
  ∀ (s : State) (p : Pin) (l : Level), s.Ready p →
    let i := (if l = .high then s.cfg.layout.setBase else s.cfg.layout.clrBase) + p.toNat / 32
    ∃ t, exec (.write p l) s = .next t ∧
      t = { s with
            latch := t.latch,
            history :=
              .result ⟨.ok, .none⟩ :: .write i (1#32 <<< (p.toNat % 32)) :: s.history } ∧
      t.latchOf p.toNat = l ∧ ∀ q : Nat, q ≠ p.toNat → t.latchOf q = s.latchOf q

/-- TRIGGER_PULSE begins with the lead write and the start of its hold, and then runs as a command that
waits in that hold (R200). That a step makes one pass is the model's choice (log 1). -/
def Obligations.TriggerPulseBegins : Prop :=
  ∀ (s : State) (p : Pin) (l : Level) (d : Micros), s.Ready p →
    let i := (if l = .high then s.cfg.layout.setBase else s.cfg.layout.clrBase) + p.toNat / 32
    ∃ t, exec (.triggerPulse p l d) s = exec (.triggerPulse p l d) t ∧
      t = { s with
            seq := .busy (.triggerPulse p l d) (.hold s.nextReading),
            latch := t.latch,
            clock := s.nextReading,
            env := s.env.takeClock,
            history :=
              .clock s.nextReading :: .write i (1#32 <<< (p.toNat % 32)) :: s.history } ∧
      t.latchOf p.toNat = l ∧ ∀ q : Nat, q ≠ p.toNat → t.latchOf q = s.latchOf q

/-- TRIGGER_PULSE in its hold reads the clock once. Before the clock has advanced by the duration it
goes on waiting; from then on it performs the trail write, which leaves the opposite level in the latch,
and ends with OK (R200, R201). That a step makes one pass is the model's choice (log 1). -/
def Obligations.TriggerPulseHolds : Prop :=
  ∀ (s : State) (p : Pin) (l : Level) (d : Micros) (t0 : Clock),
    s.seq = .busy (.triggerPulse p l d) (.hold t0) → p.toNat < s.cfg.numPins →
    let i := (if l = .high then s.cfg.layout.clrBase else s.cfg.layout.setBase) + p.toNat / 32
    let t := s.nextReading
    (t - t0 < d.setWidth 64 →
      exec (.triggerPulse p l d) s = .next
        { s with clock := t, env := s.env.takeClock, history := .clock t :: s.history }) ∧
    (d.setWidth 64 ≤ t - t0 →
      ∃ u, exec (.triggerPulse p l d) s = .next u ∧
        u = { s with
              seq := .idle, latch := u.latch, clock := t, env := s.env.takeClock,
              history :=
                .result ⟨.ok, .none⟩ :: .write i (1#32 <<< (p.toNat % 32)) :: .clock t ::
                  s.history } ∧
        u.latchOf p.toNat = l.flip ∧ ∀ q : Nat, q ≠ p.toNat → u.latchOf q = s.latchOf q)

/-- A TRIGGER_PULSE of duration 0 ends in its first step, whatever the clock answers: its two writes are
separated only by two clock readings (R203(c)). That a step makes one pass is the model's choice (log
1). -/
def Obligations.ZeroTriggerEndsAtOnce : Prop :=
  ∀ (s : State) (p : Pin) (l : Level), s.Ready p →
    ∃ (u : State) (t0 t1 : Clock), exec (.triggerPulse p l 0) s = .next u ∧
      u.seq = .idle ∧ t0 ≤ t1 ∧ u.latchOf p.toNat = l.flip ∧ u.cells = s.cells ∧
      u.history =
        .result ⟨.ok, .none⟩ ::
          .write ((driveCell p.toNat l.flip).index s.cfg) (pinMask p.toNat) ::
          .clock t1 :: .clock t0 ::
          .write ((driveCell p.toNat l).index s.cfg) (pinMask p.toNat) :: s.history

/-- A whole TRIGGER_PULSE over the clock readings `t0`, `ts`, `t1`, of which `t1` is the first at least
the duration after `t0`: the lead write, the hold, the trail write, and only the pin's latch changed
(R200). That a step makes one pass is the model's choice (log 1). -/
def Obligations.TriggerPulseRuns : Prop :=
  ∀ (s : State) (w : CommandWord) (ws : List CommandWord) (p : Pin) (l : Level) (d : Micros)
    (t0 t1 : Clock) (ts cs : List Clock),
    s.cfg.Valid → s.Ready p → s.host = w :: ws → decode w = .ok (.triggerPulse p l d) →
    s.env.clock = t0 :: ts ++ t1 :: cs → NeverBack s.clock (t0 :: ts ++ [t1]) →
    StaysBelow t0 d ts → d.setWidth 64 ≤ t1 - t0 →
    ∃ u : State, Host.Core.run Sys2Proof.core (ts.length + 1) s = .next u ∧
      u = { s with
            latch := u.latch, clock := t1, host := ws,
            env := { s.env with clock := cs }, history := u.history } ∧
      u.events = s.events ++
        [.issue w, .write ((driveCell p.toNat l).index s.cfg) (1#32 <<< (p.toNat % 32)), .clock t0] ++
        ts.map .clock ++
        [.clock t1, .write ((driveCell p.toNat l.flip).index s.cfg) (1#32 <<< (p.toNat % 32)),
          .result ⟨.ok, .none⟩] ∧
      u.latchOf p.toNat = l.flip ∧ ∀ q : Nat, q ≠ p.toNat → u.latchOf q = s.latchOf q

/-- In Output mode a READ right after a WRITE returns the level written, and a READ right after the step
that ends a TRIGGER_PULSE returns the opposite of its level (R81, R203(e)). -/
def Obligations.ReadSeesDrivenLevel : Prop :=
  ∀ (s t : State) (p : Pin) (l : Level), s.port = .mapped → p.toNat < s.cfg.numPins →
    s.mode p.toNat = .output →
    (s.seq = .idle → exec (.write p l) s = .next t →
      ∃ u, exec (.read p) t = .next u ∧ u.history.head? = some (.result ⟨.ok, .level l⟩)) ∧
    ∀ d, (s.seq = .idle ∨ ∃ t0, s.seq = .busy (.triggerPulse p l d) (.hold t0)) →
      exec (.triggerPulse p l d) s = .next t → t.seq = .idle →
      ∃ u, exec (.read p) t = .next u ∧ u.history.head? = some (.result ⟨.ok, .level l.flip⟩)

/-! ### Pulse timer (spec/43_pulse_timer.md) -/

/-- READ_PULSE: the start timestamp, then the loop. A pass that sees the other level returns the elapsed
time of the last pass. One that sees the target level reads the clock, returns the timeout when the
elapsed time has reached it, and otherwise goes round again. `timed_out` is true exactly when the
duration is at least the timeout, and no pass does anything but its sample and its clock reading (R220,
R221, R222). That a step makes one pass is the model's choice (log 1). How the pin's own sample is
recorded is the model's choice (log 7). -/
def Obligations.ReadPulseFollowsLoop : Prop :=
  ∀ (s : State) (p : Pin) (target : Level) (timeout : Micros),
    let cmd : Instr := .readPulse p target timeout
    (s.Ready p →
      exec cmd s = exec cmd
        { s with
          seq := .busy cmd (.poll s.nextReading 0),
          clock := s.nextReading,
          env := s.env.takeClock,
          history := .clock s.nextReading :: s.history }) ∧
    ∀ t0 elapsed, s.seq = .busy cmd (.poll t0 elapsed) →
      let s1 := { s with env := s.env.takePads, history := s.sampleEvents p ++ s.history }
      let t := s1.nextReading
      let s2 := { s1 with clock := t, env := s1.env.takeClock, history := .clock t :: s1.history }
      let dur : Micros := elapsed.setWidth 32
      (s.nextLevel p.toNat ≠ target →
        exec cmd s = .next
          { s1 with
            seq := .idle,
            history :=
              .result ⟨.ok, .pulse dur target (decide (timeout ≤ dur))⟩ :: s1.history }) ∧
      (s.nextLevel p.toNat = target → timeout.setWidth 64 ≤ t - t0 →
        exec cmd s = .next
          { s2 with
            seq := .idle, history := .result ⟨.ok, .pulse timeout target true⟩ :: s2.history }) ∧
      (s.nextLevel p.toNat = target → t - t0 < timeout.setWidth 64 →
        exec cmd s = .next { s2 with seq := .busy cmd (.poll t0 (t - t0)) })

/-- READ_PULSE in a sound state never returns a duration above its timeout; it returns its own target
level, and `timed_out` exactly when the duration is the timeout (R222, R223). -/
def Obligations.ReadPulseWithinTimeout : Prop :=
  ∀ (s t : State) (p : Pin) (target level : Level) (timeout dur : Micros) (flag : Bool),
    s.Inv → exec (.readPulse p target timeout) s = .next t →
    t.history.head? = some (.result ⟨.ok, .pulse dur level flag⟩) →
      dur ≤ timeout ∧ level = target ∧ (flag = true ↔ dur = timeout)

/-- With timeout 0, READ_PULSE ends in its first step with duration 0, timed out, whatever the pin and
the clock do (R225). That a step makes one pass is the model's choice (log 1). -/
def Obligations.ReadPulseTimeoutZero : Prop :=
  ∀ (s : State) (p : Pin) (target : Level), s.Ready p →
    ∃ t, exec (.readPulse p target 0) s = .next t ∧
      t = { s with clock := t.clock, env := t.env, history := t.history } ∧
      t.history.head? = some (.result ⟨.ok, .pulse 0 target true⟩)

/-- When the first sample, which follows the start timestamp, sees the other level, READ_PULSE returns
duration 0 after one clock reading and one level-cell read (R226). That a step makes one pass is the
model's choice (log 1). How the pin's own sample is recorded is the model's choice (log 7). -/
def Obligations.ReadPulseFirstSampleDiffers : Prop :=
  ∀ (s : State) (p : Pin) (target : Level) (timeout : Micros), s.Ready p →
    let t0 := s.nextReading
    let s1 := { s with clock := t0, env := s.env.takeClock, history := .clock t0 :: s.history }
    s1.nextLevel p.toNat ≠ target →
      exec (.readPulse p target timeout) s = .next
        { s1 with
          env := s1.env.takePads,
          history :=
            .result ⟨.ok, .pulse 0 target (decide (timeout = 0))⟩ ::
              (s1.sampleEvents p ++ s1.history) }

/-- A whole READ_PULSE of a pin outside Output mode that holds the target level for the samples `ps`,
read at the clock readings `ts`. When the next sample sees the other level, the duration is the time of
the last reading after `t0`, or 0 without one. When instead one more sample holds and the reading `t1`
is past the timeout, the duration is the timeout, timed out (R220, R223). That a step makes one pass is
the model's choice (log 1). Pins in Output mode are left to ReadPulseFollowsLoop. -/
def Obligations.ReadPulseMeasures : Prop :=
  ∀ (s : State) (w : CommandWord) (ws : List CommandWord) (p : Pin) (target : Level)
    (timeout : Micros) (t0 : Clock) (ts cs : List Clock) (ps vs : List Word) (v : Word),
    let see := fun x : Word => Level.ofBit (x.getLsbD (p.toNat % 32))
    s.cfg.Valid → s.Ready p → s.mode p.toNat ≠ .output → s.host = w :: ws →
    decode w = .ok (.readPulse p target timeout) →
    StaysBelow t0 timeout ts → ps.length = ts.length → (∀ x ∈ ps, see x = target) →
    s.env.pads = ps ++ v :: vs →
    (s.env.clock = t0 :: ts ++ cs → NeverBack s.clock (t0 :: ts) → see v ≠ target →
      ∃ u : State, Host.Core.run Sys2Proof.core (ts.length + 1) s = .next u ∧
        u = { s with
              clock := (t0 :: ts).getLast (by simp), host := ws,
              env := { s.env with clock := cs, pads := vs }, history := u.history } ∧
        u.history.head? = some (.result
          ⟨.ok,
            let dur := (((t0 :: ts).getLast (by simp)) - t0).setWidth 32
            .pulse dur target (decide (timeout ≤ dur))⟩)) ∧
    ∀ t1, s.env.clock = t0 :: ts ++ t1 :: cs → NeverBack s.clock (t0 :: ts ++ [t1]) →
      see v = target → timeout.setWidth 64 ≤ t1 - t0 →
      ∃ u : State, Host.Core.run Sys2Proof.core (ts.length + 1) s = .next u ∧
        u = { s with
              clock := t1, host := ws,
              env := { s.env with clock := cs, pads := vs }, history := u.history } ∧
        u.history.head? = some (.result ⟨.ok, .pulse timeout target true⟩)

/-- READ_PULSE ends when one of the readings `ts` that follow its start timestamp `t0` reaches the
timeout: it has its own result after at least one step and at most as many as there are readings,
whatever the pin does. Between its issue and its result it only observes, and the host's later words
wait (R224). That a step makes one pass is the model's choice (log 1). -/
def Obligations.FairClockEndsReadPulse : Prop :=
  ∀ (s : State) (w : CommandWord) (ws : List CommandWord) (p : Pin) (target : Level)
    (timeout : Micros) (t0 : Clock) (ts cs : List Clock),
    s.cfg.Valid → s.Ready p → s.host = w :: ws → decode w = .ok (.readPulse p target timeout) →
    s.env.clock = t0 :: ts ++ cs → NeverBack s.clock (t0 :: ts) →
    (∃ t ∈ ts, timeout.setWidth 64 ≤ t - t0) →
    ∃ (k : Nat) (u : State) (es : List Event) (dur : Micros) (flag : Bool),
      1 ≤ k ∧ k ≤ ts.length ∧
      Host.Core.run Sys2Proof.core k s = .next u ∧ u.seq = .idle ∧ u.host = ws ∧
      u.history = .result ⟨.ok, .pulse dur target flag⟩ :: (es ++ .issue w :: s.history) ∧
      ∀ e ∈ es, e.observes = true

/-! ### Pulse-train decoder (spec/44_pulse_decoder.md) -/

/-- With N = 0, DECODE reads no clock and takes no sample, and returns an empty sequence with success
for any timeout (R245). -/
def Obligations.DecodeOfNoBits : Prop :=
  ∀ (s : State) (p : Pin) (timeout : Micros), s.Ready p →
    exec (.decode p 0 timeout) s = .next
      { s with history := .result ⟨.ok, .decoded [] true⟩ :: s.history }

/-- With timeout 0 and N at least 1, DECODE ends in its first step with DECODE_FAILURE, at the first
pivot: its events are the pivot's start timestamp, one sample, one more clock reading exactly when the
sample sees Low, and the result. No second sample is taken, and nothing of the block changes (R244,
R247). That a step makes one pass is the model's choice (log 1) and so is how the pin's own sample is
recorded (log 7). The bytes are free values (log 12). -/
def Obligations.DecodeTimeoutZero : Prop :=
  ∀ (s : State) (p : Pin) (n : BitCount), s.Ready p → n ≠ 0 →
    let t0 := s.nextReading
    let s1 := { s with clock := t0, env := s.env.takeClock, history := .clock t0 :: s.history }
    let s2 := { s1 with env := s1.env.takePads, history := s1.sampleEvents p ++ s1.history }
    let t1 := s2.nextReading
    let s3 := { s2 with clock := t1, env := s2.env.takeClock, history := .clock t1 :: s2.history }
    let s' := if s1.nextLevel p.toNat = .low then s3 else s2
    ∃ bytes : List Byte, exec (.decode p n 0) s = .next
      { s' with
        env := { s'.env with drawn := s'.env.drawn + 1 },
        history := .result ⟨.decodeFailure, .decoded bytes false⟩ :: s'.history }

/-- DECODE of N ≥ 1 begins with the first pivot's start timestamp and a buffer of ⌈N/8⌉ zero bytes, and
then runs its loop (R240). That a step makes one pass is the model's choice (log 1). -/
def Obligations.DecodeBegins : Prop :=
  ∀ (s : State) (p : Pin) (n : BitCount) (timeout : Micros), s.Ready p → n ≠ 0 →
    let cmd : Instr := .decode p n timeout
    exec cmd s = exec cmd
      { s with
        seq := .busy cmd
          (.bit 0 .pivot s.nextReading 0 (List.replicate ((n.toNat + 7) / 8) 0)),
        clock := s.nextReading,
        env := s.env.takeClock,
        history := .clock s.nextReading :: s.history }

/-- A pass of DECODE. A pivot measures Low and a pulse High. While the level holds below the timeout the
measurement goes on. A measurement that ends after `d` fails the command when `d` reaches the timeout; a
pivot is followed by the pulse; a pulse gives bit i, 1 exactly when it is longer than the pivot, and is
followed by the next bit's pivot, or ends the command with its bytes (R240, R241, R242, R244). That a
step makes one pass is the model's choice (log 1). How the pin's own sample is recorded is the model's
choice (log 7). -/
def Obligations.DecodeFollowsLoop : Prop :=
  ∀ (s : State) (p : Pin) (n : BitCount) (timeout : Micros) (i : Nat) (half : Half)
    (t0 elapsed : Clock) (buf : List Byte),
    let cmd : Instr := .decode p n timeout
    let target := if half = .pivot then Level.low else Level.high
    let s1 := { s with env := s.env.takePads, history := s.sampleEvents p ++ s.history }
    let t := s1.nextReading
    let s2 := { s1 with clock := t, env := s1.env.takeClock, history := .clock t :: s1.history }
    s.seq = .busy cmd (.bit i half t0 elapsed buf) →
    (s.nextLevel p.toNat = target → t - t0 < timeout.setWidth 64 →
      exec cmd s = .next { s2 with seq := .busy cmd (.bit i half t0 (t - t0) buf) }) ∧
    ∀ (d : Micros) (s' : State),
      ((s.nextLevel p.toNat ≠ target ∧ d = elapsed.setWidth 32 ∧ s' = s1) ∨
        (s.nextLevel p.toNat = target ∧ timeout.setWidth 64 ≤ t - t0 ∧ d = timeout ∧ s' = s2)) →
      (timeout ≤ d → ∃ bytes,
        exec cmd s = .next
          { s' with
            seq := .idle,
            env := { s'.env with drawn := s'.env.drawn + 1 },
            history := .result ⟨.decodeFailure, .decoded bytes false⟩ :: s'.history }) ∧
      (d < timeout → half = .pivot →
        exec cmd s = .next
          { s' with
            seq := .busy cmd (.bit i (.pulse d) s'.nextReading 0 buf),
            clock := s'.nextReading,
            env := s'.env.takeClock,
            history := .clock s'.nextReading :: s'.history }) ∧
      ∀ pivot, d < timeout → half = .pulse pivot →
        let buf' := if pivot < d then setBufferBit buf i else buf
        (i + 1 < n.toNat →
          exec cmd s = .next
            { s' with
              seq := .busy cmd (.bit (i + 1) .pivot s'.nextReading 0 buf'),
              clock := s'.nextReading,
              env := s'.env.takeClock,
              history := .clock s'.nextReading :: s'.history }) ∧
        (n.toNat ≤ i + 1 →
          exec cmd s = .next
            { s' with
              seq := .idle, history := .result ⟨.ok, .decoded buf' true⟩ :: s'.history })

/-- Setting bit i of the buffer sets that bit and no other, and keeps the buffer's length: bit i is bit
position 7 - (i mod 8) of byte ⌊i/8⌋ (R243). -/
def Obligations.BufferBitsPackedMsbFirst : Prop :=
  ∀ (buf : List Byte) (i j : Nat), i < 8 * buf.length →
    (setBufferBit buf i).length = buf.length ∧
    bufferBit (setBufferBit buf i) j = (decide (i = j) || bufferBit buf j) ∧
    bufferBit buf j = ((buf[j / 8]?).getD 0).getLsbD (7 - j % 8)

/-- DECODE writes no cell, no latch, no mode and no pull: what it adds to the history is cell reads,
clock readings, samples and its result (R249). -/
def Obligations.DecodeOnlyObserves : Prop :=
  ∀ (s t : State) (p : Pin) (n : BitCount) (timeout : Micros),
    exec (.decode p n timeout) s = .next t →
      t = { s with
            seq := t.seq, clock := t.clock, env := t.env, history := t.history } ∧
      ∃ es : List Event, t.history = es ++ s.history ∧
        ∀ e ∈ es, e.observes = true ∨ ∃ r, e = .result r

/-- A whole DECODE of a pulse train on a pin outside Output mode, its half-bits below the timeout: code
OK, success, ⌈N/8⌉ bytes, bit i of which is 1 exactly when the pulse of pair i is longer than its pivot,
and every other bit of which is 0. Nothing of the block changes (R240, R241, R242, R243, R244). That a
step makes one pass is the model's choice (log 1). Half-bits that are sampled more or less than twice,
and pins in Output mode, are left to DecodeFollowsLoop. -/
def Obligations.DecodeReadsTrain : Prop :=
  ∀ (s : State) (w : CommandWord) (ws : List CommandWord) (p : Pin) (timeout : Micros) (t : Clock)
    (pairs : List BitPair) (cs : List Clock) (ps vs : List Word),
    s.cfg.Valid → s.Ready p → s.mode p.toNat ≠ .output → s.host = w :: ws →
    pairs.length < 65536 →
    decode w = .ok (.decode p (BitVec.ofNat 16 pairs.length) timeout) →
    (∀ q ∈ pairs, q.1 < timeout ∧ q.2 < timeout) →
    s.clock ≤ t → t.toNat + trainLength pairs < 2 ^ 64 →
    s.env.clock = trainClocks t pairs ++ cs → s.env.pads = ps ++ vs →
    ps.map (fun v => Level.ofBit (v.getLsbD (p.toNat % 32))) = trainLevels pairs →
    ∃ (k : Nat) (u : State) (bytes : List Byte),
      Host.Core.run Sys2Proof.core k s = .next u ∧
      u = { s with
            clock := u.clock, host := ws,
            env := { s.env with clock := cs, pads := vs }, history := u.history } ∧
      u.history.head? = some (.result ⟨.ok, .decoded bytes true⟩) ∧
      bytes.length = (pairs.length + 7) / 8 ∧
      ∀ i < 8 * bytes.length,
        bufferBit bytes i = (pairs[i]?).any fun q => decide (q.1 < q.2)

/-! ### Fairness of the clock (R45) -/

/-- READ_PULSE ends in every run whose clock is fair, whatever the pin does, when its deadline is one
that the 64-bit clock can reach: it has its own result after some steps, in which it only observes, and
the host's later words wait (R45, R224). That fairness is a premise, its bounds 64-bit, is the model's
reading of R45 (log 3). -/
def Obligations.ReadPulseEndsInFairRun : Prop :=
  ∀ (s : State) (w : CommandWord) (ws : List CommandWord) (p : Pin) (target : Level)
    (timeout : Micros),
    s.cfg.Valid → s.Ready p → s.host = w :: ws → decode w = .ok (.readPulse p target timeout) →
    s.ClockFair → s.nextReading.toNat + timeout.toNat < 2 ^ 64 →
    ∃ (k : Nat) (u : State) (es : List Event) (dur : Micros) (flag : Bool), 1 ≤ k ∧
      Host.Core.run Sys2Proof.core k s = .next u ∧ u.seq = .idle ∧ u.host = ws ∧
      u.history = .result ⟨.ok, .pulse dur target flag⟩ :: (es ++ .issue w :: s.history) ∧
      ∀ e ∈ es, e.observes = true
end

