-- ==== Sys2Proof/Laws/Table.lean ====
section
/-! SUPPORT. The laws of tables and of the cell store: a read after a write, and the canonical form kept. -/

namespace Sys2Proof.Machine

namespace Table

variable {α : Type}

@[simp] theorem get?_nil (i : Nat) : get? ([] : Table α) i = none := rfl

@[simp] theorem get?_cons (e : Nat × α) (t : Table α) (i : Nat) :
    get? (e :: t) i = if i = e.1 then some e.2 else get? t i := rfl

/-- A read after a write: the value written at its index, the old entry elsewhere. -/
theorem get?_set (t : Table α) (i j : Nat) (v : α) :
    get? (set t i v) j = if j = i then some v else get? t j := by
  induction t with
  | nil => simp [set]
  | cons e t ih =>
    obtain ⟨k, u⟩ := e
    simp only [set]
    split_ifs <;> simp only [get?_cons, ih] <;> split_ifs <;> simp_all

/-- A filter by index keeps an entry or drops it, and leaves the others alone. -/
theorem get?_filter (t : Table α) (keep : Nat → Bool) (j : Nat) :
    get? (t.filter fun e => keep e.1) j = if keep j then get? t j else none := by
  induction t with
  | nil => simp
  | cons e t ih =>
    simp only [List.filter_cons]
    split_ifs with h1 h2 h2 <;> simp only [get?_cons, ih] <;> split_ifs <;> simp_all

theorem get?_erase (t : Table α) (i j : Nat) :
    get? (erase t i) j = if j = i then none else get? t j := by
  rw [erase, get?_filter t (fun k => k != i) j]
  by_cases h : j = i <;> simp [h]

/-- The entries after a write are the one written and old ones. -/
theorem mem_set {t : Table α} {i : Nat} {v : α} {e : Nat × α} (h : e ∈ set t i v) :
    e = (i, v) ∨ e ∈ t := by
  induction t with
  | nil => simpa [set] using h
  | cons d t ih =>
    obtain ⟨k, u⟩ := d
    simp only [set] at h
    split_ifs at h with h1 h2
    · simpa using h
    · simp only [List.mem_cons] at h ⊢
      tauto
    · simp only [List.mem_cons] at h ⊢
      rcases h with h | h
      · tauto
      · have := ih h
        tauto

theorem mem_of_get? {t : Table α} {i : Nat} {v : α} (h : get? t i = some v) : (i, v) ∈ t := by
  induction t with
  | nil => simp at h
  | cons e t ih =>
    simp only [get?_cons] at h
    split_ifs at h with hi
    · obtain ⟨k, u⟩ := e
      simp_all
    · exact List.mem_cons_of_mem _ (ih h)

/-- A write keeps the canonical form. -/
theorem set_wf {t : Table α} (h : Wf t) (i : Nat) (v : α) : Wf (set t i v) := by
  induction t with
  | nil => simp [set, Wf]
  | cons e t ih =>
    obtain ⟨k, u⟩ := e
    rw [Wf, List.pairwise_cons] at h
    simp only [set]
    split_ifs with h1 h2
    · rw [Wf, List.pairwise_cons, List.pairwise_cons]
      refine ⟨fun d hd => ?_, h⟩
      rcases List.mem_cons.1 hd with rfl | hd
      · exact h1
      · exact lt_trans h1 (h.1 d hd)
    · subst h2
      rw [Wf, List.pairwise_cons]
      exact h
    · rw [Wf, List.pairwise_cons]
      refine ⟨fun d hd => ?_, ih h.2⟩
      rcases mem_set hd with rfl | hd
      · simp only
        omega
      · exact h.1 d hd

theorem filter_wf {t : Table α} (h : Wf t) (keep : Nat × α → Bool) : Wf (t.filter keep) :=
  List.Pairwise.filter keep h

/-- Entries listed for rising indices are in canonical form. -/
theorem range_wf (n : Nat) (f : Nat → α) : Wf ((List.range n).map fun p => (p, f p)) := by
  rw [Wf, List.pairwise_map]
  exact List.pairwise_lt_range.imp fun h => h

theorem get?_range (n : Nat) (f : Nat → α) (j : Nat) :
    get? ((List.range n).map fun p => (p, f p)) j = if j < n then some (f j) else none := by
  induction n with
  | zero => simp
  | succ n ih =>
    have app : ∀ (a b : Table α), get? (a ++ b) j = (get? a j).or (get? b j) := by
      intro a b
      induction a with
      | nil => simp
      | cons e a iha => simp only [List.cons_append, get?_cons, iha]; split_ifs <;> simp
    rw [List.range_succ, List.map_append, app, ih]
    by_cases h1 : j < n
    · simp [h1, Nat.lt_succ_of_lt h1]
    · by_cases h2 : j = n
      · simp [h2]
      · simp [h1, h2]
        omega

end Table

namespace Cells

@[simp] theorem read_nil (i : Nat) : read [] i = 0 := rfl

/-- A read after a write: the value written in its cell, the old value in every other. -/
theorem read_write (t : Table Word) (i j : Nat) (v : Word) :
    read (write t i v) j = if j = i then v else read t j := by
  unfold read write
  split_ifs with hv h h
  · simp [Table.get?_erase, h, hv]
  · simp [Table.get?_erase, h]
  · simp [Table.get?_set, h]
  · simp [Table.get?_set, h]

@[simp] theorem read_write_same (t : Table Word) (i : Nat) (v : Word) :
    read (write t i v) i = v := by simp [read_write]

theorem read_write_other (t : Table Word) {i j : Nat} (v : Word) (h : j ≠ i) :
    read (write t i v) j = read t j := by simp [read_write, h]

/-- A write keeps the store's canonical form. -/
theorem write_wf {t : Table Word} (h : Wf t) (i : Nat) (v : Word) : Wf (write t i v) := by
  unfold write
  split_ifs with hv
  · exact ⟨Table.filter_wf h.1 _, fun e he => h.2 e (List.mem_of_mem_filter he)⟩
  · refine ⟨Table.set_wf h.1 i v, fun e he => ?_⟩
    rcases Table.mem_set he with rfl | he
    · exact hv
    · exact h.2 e he

end Cells

end Sys2Proof.Machine
end

