-- ==== Sys2Proof/Laws/Operands.lean ====
section
/-! SUPPORT. The laws of pin arithmetic, masks, mode fields and latch writes. -/

namespace Sys2Proof

@[simp] theorem Level.ofBit_eq_high (b : Bool) : Level.ofBit b = .high ↔ b = true := by
  cases b <;> simp [Level.ofBit]

@[simp] theorem Level.ofBit_bit (l : Level) : Level.ofBit l.bit = l := by cases l <;> rfl

@[simp] theorem Level.bit_ofBit (b : Bool) : (Level.ofBit b).bit = b := by cases b <;> rfl

@[simp] theorem Level.flip_flip (l : Level) : l.flip.flip = l := by cases l <;> rfl

@[simp] theorem Mode.ofCode_code (m : Mode) : Mode.ofCode m.code = m := by cases m <;> rfl

@[simp] theorem Mode.code_eq_output (c : BitVec 3) : Mode.ofCode c = .output ↔ c = 1 := by
  revert c
  decide

namespace Machine

theorem bank_eq (p : Nat) : bank p = p / 32 := by simp [bank, Nat.shiftRight_eq_div_pow]

theorem bitpos_lt (p : Nat) : bitpos p < 32 := Nat.mod_lt _ (by decide)

theorem pin_eq (p : Nat) : 32 * bank p + bitpos p = p := by
  rw [bank_eq, bitpos]
  omega

/-- The mask of a pin has the pin's bit and no other (R195). -/
theorem getLsbD_pinMask (p i : Nat) : (pinMask p).getLsbD i = decide (i = bitpos p) := by
  have := bitpos_lt p
  by_cases h : i = bitpos p
  · subst h
    simp [pinMask, this]
  · by_cases h2 : i < bitpos p <;> simp [pinMask, h, h2]
    omega

/-- The bits of a word given by its bits. -/
theorem getLsbD_wordOfBits (f : Nat → Bool) (n i : Nat) (h : n ≤ 32) :
    (wordOfBits f n).getLsbD i = (decide (i < n) && f i) := by
  induction n with
  | zero => simp [wordOfBits]
  | succ n ih =>
    have key : (1#32 <<< n).getLsbD i = decide (i = n) := by
      by_cases e : i = n
      · subst e
        simp
        omega
      · by_cases l : i < n <;> simp [e, l]
        omega
    rw [wordOfBits, BitVec.getLsbD_or, ih (by omega)]
    by_cases e : i = n
    · subst e
      cases hf : f i <;> simp
      omega
    · have e2 : decide (i < n + 1) = decide (i < n) := by
        congr 1
        rw [eq_iff_iff]
        omega
      rw [e2]
      split_ifs
      · rw [key]
        simp [e]
      · simp

/-- The field written is the code (R160). -/
theorem modeField_withModeField (old : Word) (k : Nat) (code : BitVec 3) (hk : k < 10) :
    modeField (withModeField old (k * 3) code) (k * 3) = code := by
  apply BitVec.eq_of_getLsbD_eq
  intro i hi
  interval_cases k <;> interval_cases i <;>
    simp [modeField, withModeField]

/-- Every bit outside the field is as it was (R161). -/
theorem getLsbD_withModeField (old : Word) (k : Nat) (code : BitVec 3) (hk : k < 10) (j : Nat)
    (hj : j < k * 3 ∨ k * 3 + 3 ≤ j) :
    (withModeField old (k * 3) code).getLsbD j = old.getLsbD j := by
  by_cases h32 : j < 32
  · interval_cases k <;> interval_cases j <;> first | omega | simp [withModeField]
  · rw [BitVec.getLsbD_of_ge _ _ (by omega), BitVec.getLsbD_of_ge _ _ (by omega)]

/-- Writing one mode field leaves every other field of the cell as it was (R161). -/
theorem modeField_withModeField_other (old : Word) {k k' : Nat} (code : BitVec 3) (hk : k < 10)
    (h : k' ≠ k) :
    modeField (withModeField old (k * 3) code) (k' * 3) = modeField old (k' * 3) := by
  apply BitVec.eq_of_getLsbD_eq
  intro i hi
  simp only [modeField, BitVec.getLsbD_extractLsb', hi, decide_true, Bool.true_and]
  exact getLsbD_withModeField old k code hk _ (by omega)

/-- The latches after a write to a set or clear cell: those of the bank's pins whose bit is 1 and that are
below NUM_PINS take the level, every other one stays (R29, R30, R31). -/
theorem get?_latchBits (np b : Nat) (v : Word) (l : Level) (t : Table Level) (n : Nat) (hn : n ≤ 32)
    (q : Nat) :
    Table.get? (latchBits np b v l t n) q =
      if q / 32 = b ∧ q % 32 < n ∧ v.getLsbD (q % 32) = true ∧ q < np then some l
      else Table.get? t q := by
  induction n with
  | zero => simp [latchBits]
  | succ n ih =>
    have ih := ih (by omega)
    have same : q = 32 * b + n ↔ q / 32 = b ∧ q % 32 = n := by omega
    simp only [latchBits]
    by_cases e : q / 32 = b ∧ q % 32 = n
    · obtain ⟨e1, e2⟩ := e
      have e3 := same.2 ⟨e1, e2⟩
      split_ifs with h1 h2 h2
      · simp [Table.get?_set, e3]
      · exfalso
        apply h2
        simp only [Bool.and_eq_true, decide_eq_true_eq] at h1
        exact ⟨e1, by omega, e2 ▸ h1.1, e3 ▸ h1.2⟩
      · exfalso
        apply h1
        simp only [Bool.and_eq_true, decide_eq_true_eq]
        exact ⟨e2 ▸ h2.2.2.1, e3 ▸ h2.2.2.2⟩
      · rw [ih, if_neg]
        omega
    · have ne : ¬ q = 32 * b + n := fun h => e (same.1 h)
      have eqv : (q / 32 = b ∧ q % 32 < n + 1 ∧ v.getLsbD (q % 32) = true ∧ q < np) ↔
          (q / 32 = b ∧ q % 32 < n ∧ v.getLsbD (q % 32) = true ∧ q < np) := by
        constructor
        · rintro ⟨h1, h2, h3⟩
          exact ⟨h1, by omega, h3⟩
        · rintro ⟨h1, h2, h3⟩
          exact ⟨h1, by omega, h3⟩
      rw [if_congr eqv rfl rfl, ← ih]
      split_ifs
      · rw [Table.get?_set, if_neg ne]
      · rfl

/-- A latch write keeps the canonical form. -/
theorem latchBits_wf (np b : Nat) (v : Word) (l : Level) {t : Table Level} (h : Table.Wf t) (n : Nat) :
    Table.Wf (latchBits np b v l t n) := by
  induction n with
  | zero => exact h
  | succ n ih =>
    simp only [latchBits]
    split_ifs
    · exact Table.set_wf ih _ _
    · exact ih

/-- A latch write adds only pins below NUM_PINS. -/
theorem latchBits_lt (np b : Nat) (v : Word) (l : Level) {t : Table Level} (h : ∀ e ∈ t, e.1 < np)
    (n : Nat) : ∀ e ∈ latchBits np b v l t n, e.1 < np := by
  induction n with
  | zero => exact h
  | succ n ih =>
    simp only [latchBits]
    split_ifs with h1
    · intro e he
      rcases Table.mem_set he with rfl | he
      · simp only [Bool.and_eq_true, decide_eq_true_eq] at h1
        exact h1.2
      · exact ih e he
    · exact ih

/-- A write of one pin's mask moves that pin's latch and no other (R195). -/
theorem get?_latchBits_pinMask (np p : Nat) (l : Level) (t : Table Level) (hp : p < np) (q : Nat) :
    Table.get? (latchBits np (bank p) (pinMask p) l t 32) q =
      if q = p then some l else Table.get? t q := by
  rw [get?_latchBits _ _ _ _ _ _ (le_refl 32), getLsbD_pinMask, bank_eq, bitpos]
  by_cases h : q = p
  · subst h
    simp [hp, Nat.mod_lt]
  · rw [if_neg h, if_neg]
    simp only [decide_eq_true_eq]
    omega

end Machine

end Sys2Proof
end

