-- ==== Sys2Proof/Laws/State.lean ====
section
/-! SUPPORT. What each update of the state does to each field: one lemma per field per update. -/

namespace Sys2Proof.Machine.State

variable (s : State)

/-! ### log -/

@[simp] theorem log_cfg (e : Event) : (s.log e).cfg = s.cfg := rfl
@[simp] theorem log_port (e : Event) : (s.log e).port = s.port := rfl
@[simp] theorem log_seq (e : Event) : (s.log e).seq = s.seq := rfl
@[simp] theorem log_cells (e : Event) : (s.log e).cells = s.cells := rfl
@[simp] theorem log_latch (e : Event) : (s.log e).latch = s.latch := rfl
@[simp] theorem log_pull (e : Event) : (s.log e).pull = s.pull := rfl
@[simp] theorem log_clock (e : Event) : (s.log e).clock = s.clock := rfl
@[simp] theorem log_history (e : Event) : (s.log e).history = e :: s.history := rfl
@[simp] theorem log_host (e : Event) : (s.log e).host = s.host := rfl
@[simp] theorem log_env (e : Event) : (s.log e).env = s.env := rfl

/-! ### now -/

@[simp] theorem now_cfg : s.now.2.cfg = s.cfg := rfl
@[simp] theorem now_port : s.now.2.port = s.port := rfl
@[simp] theorem now_seq : s.now.2.seq = s.seq := rfl
@[simp] theorem now_cells : s.now.2.cells = s.cells := rfl
@[simp] theorem now_latch : s.now.2.latch = s.latch := rfl
@[simp] theorem now_pull : s.now.2.pull = s.pull := rfl
@[simp] theorem now_clock : s.now.2.clock = s.nextReading := rfl
@[simp] theorem now_history : s.now.2.history = .clock s.nextReading :: s.history := rfl
@[simp] theorem now_host : s.now.2.host = s.host := rfl
@[simp] theorem now_env : s.now.2.env = s.env.takeClock := rfl

/-! ### drawPads -/

@[simp] theorem drawPads_cfg : s.drawPads.2.cfg = s.cfg := rfl
@[simp] theorem drawPads_port : s.drawPads.2.port = s.port := rfl
@[simp] theorem drawPads_seq : s.drawPads.2.seq = s.seq := rfl
@[simp] theorem drawPads_cells : s.drawPads.2.cells = s.cells := rfl
@[simp] theorem drawPads_latch : s.drawPads.2.latch = s.latch := rfl
@[simp] theorem drawPads_pull : s.drawPads.2.pull = s.pull := rfl
@[simp] theorem drawPads_clock : s.drawPads.2.clock = s.clock := rfl
@[simp] theorem drawPads_history : s.drawPads.2.history = s.history := rfl
@[simp] theorem drawPads_host : s.drawPads.2.host = s.host := rfl
@[simp] theorem drawPads_env : s.drawPads.2.env = s.env.takePads := rfl

/-! ### drawDevice -/

@[simp] theorem drawDevice_cfg : s.drawDevice.2.cfg = s.cfg := rfl
@[simp] theorem drawDevice_port : s.drawDevice.2.port = s.port := rfl
@[simp] theorem drawDevice_seq : s.drawDevice.2.seq = s.seq := rfl
@[simp] theorem drawDevice_cells : s.drawDevice.2.cells = s.cells := rfl
@[simp] theorem drawDevice_latch : s.drawDevice.2.latch = s.latch := rfl
@[simp] theorem drawDevice_pull : s.drawDevice.2.pull = s.pull := rfl
@[simp] theorem drawDevice_clock : s.drawDevice.2.clock = s.clock := rfl
@[simp] theorem drawDevice_history : s.drawDevice.2.history = s.history := rfl
@[simp] theorem drawDevice_host : s.drawDevice.2.host = s.host := rfl
@[simp] theorem drawDevice_env : s.drawDevice.2.env = s.env.takeDevice := rfl

/-! ### readFsel -/

@[simp] theorem readFsel_cfg (k : Nat) : (s.readFsel k).2.cfg = s.cfg := rfl
@[simp] theorem readFsel_port (k : Nat) : (s.readFsel k).2.port = s.port := rfl
@[simp] theorem readFsel_seq (k : Nat) : (s.readFsel k).2.seq = s.seq := rfl
@[simp] theorem readFsel_cells (k : Nat) : (s.readFsel k).2.cells = s.cells := rfl
@[simp] theorem readFsel_latch (k : Nat) : (s.readFsel k).2.latch = s.latch := rfl
@[simp] theorem readFsel_pull (k : Nat) : (s.readFsel k).2.pull = s.pull := rfl
@[simp] theorem readFsel_clock (k : Nat) : (s.readFsel k).2.clock = s.clock := rfl
@[simp] theorem readFsel_history (k : Nat) :
    (s.readFsel k).2.history =
      .read (CellName.index s.cfg (.fsel k)) (s.cell (.fsel k)) :: s.history := rfl
@[simp] theorem readFsel_host (k : Nat) : (s.readFsel k).2.host = s.host := rfl
@[simp] theorem readFsel_env (k : Nat) : (s.readFsel k).2.env = s.env := rfl

/-! ### store -/

@[simp] theorem store_cfg (c : CellName) (v : Word) : (s.store c v).cfg = s.cfg := rfl
@[simp] theorem store_port (c : CellName) (v : Word) : (s.store c v).port = s.port := rfl
@[simp] theorem store_seq (c : CellName) (v : Word) : (s.store c v).seq = s.seq := rfl
@[simp] theorem store_cells (c : CellName) (v : Word) :
    (s.store c v).cells =
      Cells.write s.cells (c.index s.cfg) v := rfl
@[simp] theorem store_latch (c : CellName) (v : Word) : (s.store c v).latch = s.latch := rfl
@[simp] theorem store_pull (c : CellName) (v : Word) : (s.store c v).pull = s.pull := rfl
@[simp] theorem store_clock (c : CellName) (v : Word) : (s.store c v).clock = s.clock := rfl
@[simp] theorem store_history (c : CellName) (v : Word) :
    (s.store c v).history =
      .write (c.index s.cfg) v :: s.history := rfl
@[simp] theorem store_host (c : CellName) (v : Word) : (s.store c v).host = s.host := rfl
@[simp] theorem store_env (c : CellName) (v : Word) : (s.store c v).env = s.env := rfl

/-! ### writeFsel -/

@[simp] theorem writeFsel_cfg (k : Nat) (v : Word) : (s.writeFsel k v).cfg = s.cfg := rfl
@[simp] theorem writeFsel_port (k : Nat) (v : Word) : (s.writeFsel k v).port = s.port := rfl
@[simp] theorem writeFsel_seq (k : Nat) (v : Word) : (s.writeFsel k v).seq = s.seq := rfl
@[simp] theorem writeFsel_cells (k : Nat) (v : Word) :
    (s.writeFsel k v).cells =
      Cells.write s.cells (CellName.index s.cfg (.fsel k)) v := rfl
@[simp] theorem writeFsel_latch (k : Nat) (v : Word) : (s.writeFsel k v).latch = s.latch := rfl
@[simp] theorem writeFsel_pull (k : Nat) (v : Word) : (s.writeFsel k v).pull = s.pull := rfl
@[simp] theorem writeFsel_clock (k : Nat) (v : Word) : (s.writeFsel k v).clock = s.clock := rfl
@[simp] theorem writeFsel_history (k : Nat) (v : Word) :
    (s.writeFsel k v).history =
      .write (CellName.index s.cfg (.fsel k)) v :: s.history := rfl
@[simp] theorem writeFsel_host (k : Nat) (v : Word) : (s.writeFsel k v).host = s.host := rfl
@[simp] theorem writeFsel_env (k : Nat) (v : Word) : (s.writeFsel k v).env = s.env := rfl

/-! ### writePud -/

@[simp] theorem writePud_cfg (v : Word) : (s.writePud v).cfg = s.cfg := rfl
@[simp] theorem writePud_port (v : Word) : (s.writePud v).port = s.port := rfl
@[simp] theorem writePud_seq (v : Word) : (s.writePud v).seq = s.seq := rfl
@[simp] theorem writePud_cells (v : Word) :
    (s.writePud v).cells =
      Cells.write s.cells (CellName.index s.cfg .pud) v := rfl
@[simp] theorem writePud_latch (v : Word) : (s.writePud v).latch = s.latch := rfl
@[simp] theorem writePud_pull (v : Word) : (s.writePud v).pull = s.pull := rfl
@[simp] theorem writePud_clock (v : Word) : (s.writePud v).clock = s.clock := rfl
@[simp] theorem writePud_history (v : Word) :
    (s.writePud v).history =
      .write (CellName.index s.cfg .pud) v :: s.history := rfl
@[simp] theorem writePud_host (v : Word) : (s.writePud v).host = s.host := rfl
@[simp] theorem writePud_env (v : Word) : (s.writePud v).env = s.env := rfl

/-! ### writePudclk -/

@[simp] theorem writePudclk_cfg (b : Nat) (v : Word) : (s.writePudclk b v).cfg = s.cfg := rfl
@[simp] theorem writePudclk_port (b : Nat) (v : Word) : (s.writePudclk b v).port = s.port := rfl
@[simp] theorem writePudclk_seq (b : Nat) (v : Word) : (s.writePudclk b v).seq = s.seq := rfl
@[simp] theorem writePudclk_cells (b : Nat) (v : Word) :
    (s.writePudclk b v).cells =
      Cells.write s.cells (CellName.index s.cfg (.pudclk b)) v := rfl
@[simp] theorem writePudclk_latch (b : Nat) (v : Word) : (s.writePudclk b v).latch = s.latch := rfl
@[simp] theorem writePudclk_pull (b : Nat) (v : Word) : (s.writePudclk b v).pull = s.pull := rfl
@[simp] theorem writePudclk_clock (b : Nat) (v : Word) : (s.writePudclk b v).clock = s.clock := rfl
@[simp] theorem writePudclk_history (b : Nat) (v : Word) :
    (s.writePudclk b v).history =
      .write (CellName.index s.cfg (.pudclk b)) v :: s.history := rfl
@[simp] theorem writePudclk_host (b : Nat) (v : Word) : (s.writePudclk b v).host = s.host := rfl
@[simp] theorem writePudclk_env (b : Nat) (v : Word) : (s.writePudclk b v).env = s.env := rfl

/-! ### writeSet -/

@[simp] theorem writeSet_cfg (b : Nat) (v : Word) : (s.writeSet b v).cfg = s.cfg := rfl
@[simp] theorem writeSet_port (b : Nat) (v : Word) : (s.writeSet b v).port = s.port := rfl
@[simp] theorem writeSet_seq (b : Nat) (v : Word) : (s.writeSet b v).seq = s.seq := rfl
@[simp] theorem writeSet_cells (b : Nat) (v : Word) : (s.writeSet b v).cells = s.cells := rfl
@[simp] theorem writeSet_latch (b : Nat) (v : Word) :
    (s.writeSet b v).latch =
      latchBits s.cfg.numPins b v .high s.latch 32 := rfl
@[simp] theorem writeSet_pull (b : Nat) (v : Word) : (s.writeSet b v).pull = s.pull := rfl
@[simp] theorem writeSet_clock (b : Nat) (v : Word) : (s.writeSet b v).clock = s.clock := rfl
@[simp] theorem writeSet_history (b : Nat) (v : Word) :
    (s.writeSet b v).history =
      .write (CellName.index s.cfg (.set b)) v :: s.history := rfl
@[simp] theorem writeSet_host (b : Nat) (v : Word) : (s.writeSet b v).host = s.host := rfl
@[simp] theorem writeSet_env (b : Nat) (v : Word) : (s.writeSet b v).env = s.env := rfl

/-! ### writeClr -/

@[simp] theorem writeClr_cfg (b : Nat) (v : Word) : (s.writeClr b v).cfg = s.cfg := rfl
@[simp] theorem writeClr_port (b : Nat) (v : Word) : (s.writeClr b v).port = s.port := rfl
@[simp] theorem writeClr_seq (b : Nat) (v : Word) : (s.writeClr b v).seq = s.seq := rfl
@[simp] theorem writeClr_cells (b : Nat) (v : Word) : (s.writeClr b v).cells = s.cells := rfl
@[simp] theorem writeClr_latch (b : Nat) (v : Word) :
    (s.writeClr b v).latch =
      latchBits s.cfg.numPins b v .low s.latch 32 := rfl
@[simp] theorem writeClr_pull (b : Nat) (v : Word) : (s.writeClr b v).pull = s.pull := rfl
@[simp] theorem writeClr_clock (b : Nat) (v : Word) : (s.writeClr b v).clock = s.clock := rfl
@[simp] theorem writeClr_history (b : Nat) (v : Word) :
    (s.writeClr b v).history =
      .write (CellName.index s.cfg (.clr b)) v :: s.history := rfl
@[simp] theorem writeClr_host (b : Nat) (v : Word) : (s.writeClr b v).host = s.host := rfl
@[simp] theorem writeClr_env (b : Nat) (v : Word) : (s.writeClr b v).env = s.env := rfl

/-! ### sample -/

@[simp] theorem sample_cfg (p : Pin) : (s.sample p).2.cfg = s.cfg := rfl
@[simp] theorem sample_port (p : Pin) : (s.sample p).2.port = s.port := rfl
@[simp] theorem sample_seq (p : Pin) : (s.sample p).2.seq = s.seq := rfl
@[simp] theorem sample_cells (p : Pin) : (s.sample p).2.cells = s.cells := rfl
@[simp] theorem sample_latch (p : Pin) : (s.sample p).2.latch = s.latch := rfl
@[simp] theorem sample_pull (p : Pin) : (s.sample p).2.pull = s.pull := rfl
@[simp] theorem sample_clock (p : Pin) : (s.sample p).2.clock = s.clock := rfl
@[simp] theorem sample_history (p : Pin) : (s.sample p).2.history = s.sampleEvents p ++ s.history := rfl
@[simp] theorem sample_host (p : Pin) : (s.sample p).2.host = s.host := rfl
@[simp] theorem sample_env (p : Pin) : (s.sample p).2.env = s.env.takePads := rfl

/-! ### drive -/

@[simp] theorem drive_cfg (p : Pin) (l : Level) : (s.drive p l).cfg = s.cfg := by cases l <;> rfl
@[simp] theorem drive_port (p : Pin) (l : Level) : (s.drive p l).port = s.port := by cases l <;> rfl
@[simp] theorem drive_seq (p : Pin) (l : Level) : (s.drive p l).seq = s.seq := by cases l <;> rfl
@[simp] theorem drive_cells (p : Pin) (l : Level) : (s.drive p l).cells = s.cells := by cases l <;> rfl
@[simp] theorem drive_latch (p : Pin) (l : Level) :
    (s.drive p l).latch =
      latchBits s.cfg.numPins (bank p.toNat) (pinMask p.toNat) l s.latch 32 := by cases l <;> rfl
@[simp] theorem drive_pull (p : Pin) (l : Level) : (s.drive p l).pull = s.pull := by cases l <;> rfl
@[simp] theorem drive_clock (p : Pin) (l : Level) : (s.drive p l).clock = s.clock := by cases l <;> rfl
@[simp] theorem drive_history (p : Pin) (l : Level) :
    (s.drive p l).history =
      .write ((driveCell p.toNat l).index s.cfg) (pinMask p.toNat) :: s.history := by cases l <;> rfl
@[simp] theorem drive_host (p : Pin) (l : Level) : (s.drive p l).host = s.host := by cases l <;> rfl
@[simp] theorem drive_env (p : Pin) (l : Level) : (s.drive p l).env = s.env := by cases l <;> rfl

/-! ### finish -/

@[simp] theorem finish_cfg (r : Result) : (s.finish r).cfg = s.cfg := rfl
@[simp] theorem finish_port (r : Result) : (s.finish r).port = s.port := rfl
@[simp] theorem finish_seq (r : Result) : (s.finish r).seq = .idle := rfl
@[simp] theorem finish_cells (r : Result) : (s.finish r).cells = s.cells := rfl
@[simp] theorem finish_latch (r : Result) : (s.finish r).latch = s.latch := rfl
@[simp] theorem finish_pull (r : Result) : (s.finish r).pull = s.pull := rfl
@[simp] theorem finish_clock (r : Result) : (s.finish r).clock = s.clock := rfl
@[simp] theorem finish_history (r : Result) : (s.finish r).history = .result r :: s.history := rfl
@[simp] theorem finish_host (r : Result) : (s.finish r).host = s.host := rfl
@[simp] theorem finish_env (r : Result) : (s.finish r).env = s.env := rfl

/-! ### raise -/

@[simp] theorem raise_cfg (c : ResultCode) : (s.raise c).cfg = s.cfg := rfl
@[simp] theorem raise_port (c : ResultCode) : (s.raise c).port = s.port := rfl
@[simp] theorem raise_seq (c : ResultCode) : (s.raise c).seq = .idle := rfl
@[simp] theorem raise_cells (c : ResultCode) : (s.raise c).cells = s.cells := rfl
@[simp] theorem raise_latch (c : ResultCode) : (s.raise c).latch = s.latch := rfl
@[simp] theorem raise_pull (c : ResultCode) : (s.raise c).pull = s.pull := rfl
@[simp] theorem raise_clock (c : ResultCode) : (s.raise c).clock = s.clock := rfl
@[simp] theorem raise_history (c : ResultCode) : (s.raise c).history = .result ⟨c, .none⟩ :: s.history := rfl
@[simp] theorem raise_host (c : ResultCode) : (s.raise c).host = s.host := rfl
@[simp] theorem raise_env (c : ResultCode) : (s.raise c).env = s.env := rfl

/-! ### succeed -/

@[simp] theorem succeed_cfg (x : Payload) : (s.succeed x).cfg = s.cfg := rfl
@[simp] theorem succeed_port (x : Payload) : (s.succeed x).port = s.port := rfl
@[simp] theorem succeed_seq (x : Payload) : (s.succeed x).seq = .idle := rfl
@[simp] theorem succeed_cells (x : Payload) : (s.succeed x).cells = s.cells := rfl
@[simp] theorem succeed_latch (x : Payload) : (s.succeed x).latch = s.latch := rfl
@[simp] theorem succeed_pull (x : Payload) : (s.succeed x).pull = s.pull := rfl
@[simp] theorem succeed_clock (x : Payload) : (s.succeed x).clock = s.clock := rfl
@[simp] theorem succeed_history (x : Payload) : (s.succeed x).history = .result ⟨.ok, x⟩ :: s.history := rfl
@[simp] theorem succeed_host (x : Payload) : (s.succeed x).host = s.host := rfl
@[simp] theorem succeed_env (x : Payload) : (s.succeed x).env = s.env := rfl

/-! ### wait -/

@[simp] theorem wait_cfg (i : Instr) (ph : Phase) : (s.wait i ph).cfg = s.cfg := rfl
@[simp] theorem wait_port (i : Instr) (ph : Phase) : (s.wait i ph).port = s.port := rfl
@[simp] theorem wait_seq (i : Instr) (ph : Phase) : (s.wait i ph).seq = .busy i ph := rfl
@[simp] theorem wait_cells (i : Instr) (ph : Phase) : (s.wait i ph).cells = s.cells := rfl
@[simp] theorem wait_latch (i : Instr) (ph : Phase) : (s.wait i ph).latch = s.latch := rfl
@[simp] theorem wait_pull (i : Instr) (ph : Phase) : (s.wait i ph).pull = s.pull := rfl
@[simp] theorem wait_clock (i : Instr) (ph : Phase) : (s.wait i ph).clock = s.clock := rfl
@[simp] theorem wait_history (i : Instr) (ph : Phase) : (s.wait i ph).history = s.history := rfl
@[simp] theorem wait_host (i : Instr) (ph : Phase) : (s.wait i ph).host = s.host := rfl
@[simp] theorem wait_env (i : Instr) (ph : Phase) : (s.wait i ph).env = s.env := rfl

/-! ### forgetPulls -/

@[simp] theorem forgetPulls_cfg (p : Pin) : (s.forgetPulls p).cfg = s.cfg := rfl
@[simp] theorem forgetPulls_port (p : Pin) : (s.forgetPulls p).port = s.port := rfl
@[simp] theorem forgetPulls_seq (p : Pin) : (s.forgetPulls p).seq = s.seq := rfl
@[simp] theorem forgetPulls_cells (p : Pin) : (s.forgetPulls p).cells = s.cells := rfl
@[simp] theorem forgetPulls_latch (p : Pin) : (s.forgetPulls p).latch = s.latch := rfl
@[simp] theorem forgetPulls_pull (p : Pin) :
    (s.forgetPulls p).pull =
      s.pull.filter fun e => e.1 == p.toNat || !s.clockEnabled e.1 := rfl
@[simp] theorem forgetPulls_clock (p : Pin) : (s.forgetPulls p).clock = s.clock := rfl
@[simp] theorem forgetPulls_history (p : Pin) : (s.forgetPulls p).history = s.history := rfl
@[simp] theorem forgetPulls_host (p : Pin) : (s.forgetPulls p).host = s.host := rfl
@[simp] theorem forgetPulls_env (p : Pin) : (s.forgetPulls p).env = s.env := rfl

/-! ### decodeFails -/

@[simp] theorem decodeFails_cfg : s.decodeFails.cfg = s.cfg := rfl
@[simp] theorem decodeFails_port : s.decodeFails.port = s.port := rfl
@[simp] theorem decodeFails_seq : s.decodeFails.seq = .idle := rfl
@[simp] theorem decodeFails_cells : s.decodeFails.cells = s.cells := rfl
@[simp] theorem decodeFails_latch : s.decodeFails.latch = s.latch := rfl
@[simp] theorem decodeFails_pull : s.decodeFails.pull = s.pull := rfl
@[simp] theorem decodeFails_clock : s.decodeFails.clock = s.clock := rfl
@[simp] theorem decodeFails_history :
    s.decodeFails.history =
      .result ⟨.decodeFailure, .decoded (Config.freeBytes s.env.drawn) false⟩ :: s.history := rfl
@[simp] theorem decodeFails_host : s.decodeFails.host = s.host := rfl
@[simp] theorem decodeFails_env : s.decodeFails.env = { s.env with drawn := s.env.drawn + 1 } := rfl

/-! ### issue -/

@[simp] theorem issue_cfg (w : CommandWord) (ws : List CommandWord) : (s.issue w ws).cfg = s.cfg := rfl
@[simp] theorem issue_port (w : CommandWord) (ws : List CommandWord) : (s.issue w ws).port = s.port := rfl
@[simp] theorem issue_seq (w : CommandWord) (ws : List CommandWord) : (s.issue w ws).seq = s.seq := rfl
@[simp] theorem issue_cells (w : CommandWord) (ws : List CommandWord) : (s.issue w ws).cells = s.cells := rfl
@[simp] theorem issue_latch (w : CommandWord) (ws : List CommandWord) : (s.issue w ws).latch = s.latch := rfl
@[simp] theorem issue_pull (w : CommandWord) (ws : List CommandWord) : (s.issue w ws).pull = s.pull := rfl
@[simp] theorem issue_clock (w : CommandWord) (ws : List CommandWord) : (s.issue w ws).clock = s.clock := rfl
@[simp] theorem issue_history (w : CommandWord) (ws : List CommandWord) :
    (s.issue w ws).history =
      .issue w :: s.history := rfl
@[simp] theorem issue_host (w : CommandWord) (ws : List CommandWord) : (s.issue w ws).host = ws := rfl
@[simp] theorem issue_env (w : CommandWord) (ws : List CommandWord) : (s.issue w ws).env = s.env := rfl

/-! ### rejectWord -/

@[simp] theorem rejectWord_cfg : s.rejectWord.cfg = s.cfg := rfl
@[simp] theorem rejectWord_port : s.rejectWord.port = s.port := rfl
@[simp] theorem rejectWord_seq : s.rejectWord.seq = .idle := rfl
@[simp] theorem rejectWord_cells : s.rejectWord.cells = s.cells := rfl
@[simp] theorem rejectWord_latch : s.rejectWord.latch = s.latch := rfl
@[simp] theorem rejectWord_pull : s.rejectWord.pull = s.pull := rfl
@[simp] theorem rejectWord_clock : s.rejectWord.clock = s.clock := rfl
@[simp] theorem rejectWord_history :
    s.rejectWord.history =
      .result ⟨.illegalCommand, .none⟩ :: s.history := rfl
@[simp] theorem rejectWord_host : s.rejectWord.host = s.host := rfl
@[simp] theorem rejectWord_env : s.rejectWord.env = s.env := rfl

/-! ### Values that updates return -/

@[simp] theorem now_fst : s.now.1 = s.nextReading := rfl
@[simp] theorem drawDevice_fst : s.drawDevice.1 = s.nextDevice := rfl
@[simp] theorem readFsel_fst (k : Nat) : (s.readFsel k).1 = s.cell (.fsel k) := rfl
@[simp] theorem sample_fst (p : Pin) : (s.sample p).1 = s.nextLevel p.toNat := rfl

end Sys2Proof.Machine.State
end

