-- ==== Sys2Proof/Laws/Ops.lean ====
section
/-! SUPPORT. What each shared operation can do, said once: the clock, the level cell, the checks, a command's
beginning and going on, the busy wait and the poll. -/

namespace Sys2Proof.Machine

/-! ### Answers that the environment has fixed -/

theorem Env.takeClock_of_cons {e : Env} {t : Clock} {ts : List Clock}
    (h : e.clock = t :: ts) : e.takeClock = { e with clock := ts } := by
  simp [Env.takeClock, h]

theorem Env.takePads_of_cons {e : Env} {v : Word} {vs : List Word}
    (h : e.pads = v :: vs) : e.takePads = { e with pads := vs } := by
  simp [Env.takePads, h]

namespace State

variable (s : State)

/-! ### The clock (R45) -/

theorem le_clockReading (last t : Clock) : last ≤ clockReading last t := by
  unfold clockReading
  split_ifs with h
  · exact h
  · exact BitVec.le_refl _

theorem clockReading_of_le {last t : Clock} (h : last ≤ t) : clockReading last t = t := if_pos h

/-- A reading is at or above the one before it. -/
theorem le_nextReading : s.clock ≤ s.nextReading := le_clockReading _ _

/-- A reading that the environment has fixed, and that a monotonic clock may give, is the one given. -/
theorem nextReading_of_cons {t : Clock} {ts : List Clock} (h : s.env.clock = t :: ts)
    (le : s.clock ≤ t) : s.nextReading = t := by
  simp [nextReading, h, clockReading_of_le le]

/-! ### The level cell (R32, R33) -/

/-- A bit of a level cell, as R32 forms it. -/
theorem getLsbD_levelWord (b : Nat) (pads : Word) (i : Nat) (hi : i < 32) :
    (s.levelWord b pads).getLsbD i =
      if 32 * b + i < s.cfg.numPins ∧ s.mode (32 * b + i) = .output then
        (s.latchOf (32 * b + i)).bit
      else pads.getLsbD i := by
  rw [levelWord, getLsbD_wordOfBits _ _ _ (le_refl 32)]
  simp [hi]

/-- The level that a sample of a pin sees: its latch in Output mode, its pad otherwise. -/
theorem nextLevel_eq (p : Nat) (hp : p < s.cfg.numPins) :
    s.nextLevel p =
      if s.mode p = .output then s.latchOf p else Level.ofBit (s.nextPads.getLsbD (bitpos p)) := by
  rw [nextLevel, nextLevelWord, getLsbD_levelWord _ _ _ _ (bitpos_lt p), pin_eq]
  simp only [hp, true_and]
  split_ifs <;> simp

/-! ### Driving a pin (R195, R200) -/

/-- Driving a pin is one write event, and moves only latches. -/
theorem drive_eq (p : Pin) (l : Level) :
    s.drive p l =
      { s with
        latch := (s.drive p l).latch,
        history :=
          .write ((driveCell p.toNat l).index s.cfg) (pinMask p.toNat) :: s.history } := by
  cases l <;> simp [drive, writeSet, writeClr, log, driveCell]

/-- The driven pin's latch takes the level, and every other latch stays. -/
theorem latchOf_drive (p : Pin) (l : Level) (hp : p.toNat < s.cfg.numPins) (q : Nat) :
    (s.drive p l).latchOf q = if q = p.toNat then l else s.latchOf q := by
  cases l <;> simp only [drive, writeSet, writeClr, log, latchOf, get?_latchBits_pinMask _ _ _ _ hp] <;>
    split_ifs <;> rfl

/-! ### Checks (R310) -/

theorem checked_notMapped {p : Pin} {body : State → State} (h : s.port ≠ .mapped) :
    s.checked p body = s.raise .notMapped := if_pos h

theorem checked_outOfRange {p : Pin} {body : State → State} (h : s.port = .mapped)
    (hp : s.cfg.numPins ≤ p.toNat) : s.checked p body = s.raise .pinOutOfRange := by
  simp [checked, h, hp]

theorem checked_ok {p : Pin} {body : State → State} (h : s.port = .mapped)
    (hp : p.toNat < s.cfg.numPins) : s.checked p body = body s := by
  simp [checked, h, hp]

/-- A checked command is turned away with nothing changed but its result, or it runs. -/
theorem checked_cases (p : Pin) (body : State → State) :
    (∃ c, s.checked p body = s.raise c) ∨
      (s.port = .mapped ∧ p.toNat < s.cfg.numPins ∧ s.checked p body = body s) := by
  by_cases h : s.port = .mapped
  · by_cases hp : p.toNat < s.cfg.numPins
    · exact .inr ⟨h, hp, s.checked_ok h hp⟩
    · exact .inl ⟨_, s.checked_outOfRange h (by omega)⟩
  · exact .inl ⟨_, s.checked_notMapped h⟩

/-! ### The busy wait and the poll (R11, R220) -/

theorem delayPass_eq (t0 : Clock) (d : Micros) :
    s.delayPass t0 d = (decide (d.setWidth 64 ≤ s.nextReading - t0), s.now.2) := rfl

/-- A poll pass whose sample sees the other level ends with the elapsed time of the pass before. -/
theorem pollPass_of_ne {p : Pin} {target : Level} {timeout : Micros} {t0 e : Clock}
    (h : s.nextLevel p.toNat ≠ target) :
    s.pollPass p target timeout t0 e = (.done (e.setWidth 32), (s.sample p).2) := by
  simp [pollPass, h]

/-- A poll pass that sees the target level when the timeout is reached ends with the timeout. -/
theorem pollPass_of_late {p : Pin} {target : Level} {timeout : Micros} {t0 e : Clock}
    (h : s.nextLevel p.toNat = target)
    (ht : timeout.setWidth 64 ≤ (s.sample p).2.nextReading - t0) :
    s.pollPass p target timeout t0 e = (.done timeout, (s.sample p).2.now.2) := by
  simp [pollPass, h, ht]

/-- A poll pass that sees the target level before the timeout goes round again. -/
theorem pollPass_of_again {p : Pin} {target : Level} {timeout : Micros} {t0 e : Clock}
    (h : s.nextLevel p.toNat = target)
    (ht : (s.sample p).2.nextReading - t0 < timeout.setWidth 64) :
    s.pollPass p target timeout t0 e =
      (.again ((s.sample p).2.nextReading - t0), (s.sample p).2.now.2) := by
  have : ¬ timeout.setWidth 64 ≤ (s.sample p).2.nextReading - t0 := BitVec.not_le.2 ht
  simp [pollPass, h, this]

/-- The three ways a poll pass can end. -/
theorem pollPass_cases (p : Pin) (target : Level) (timeout : Micros) (t0 e : Clock) :
    (s.nextLevel p.toNat ≠ target ∧
      s.pollPass p target timeout t0 e = (.done (e.setWidth 32), (s.sample p).2)) ∨
    (s.nextLevel p.toNat = target ∧ timeout.setWidth 64 ≤ (s.sample p).2.nextReading - t0 ∧
      s.pollPass p target timeout t0 e = (.done timeout, (s.sample p).2.now.2)) ∨
    (s.nextLevel p.toNat = target ∧ (s.sample p).2.nextReading - t0 < timeout.setWidth 64 ∧
      s.pollPass p target timeout t0 e =
        (.again ((s.sample p).2.nextReading - t0), (s.sample p).2.now.2)) := by
  by_cases h : s.nextLevel p.toNat = target
  · by_cases ht : timeout.setWidth 64 ≤ (s.sample p).2.nextReading - t0
    · exact .inr (.inl ⟨h, ht, s.pollPass_of_late h ht⟩)
    · exact .inr (.inr ⟨h, BitVec.not_le.1 ht, s.pollPass_of_again h (BitVec.not_le.1 ht)⟩)
  · exact .inl ⟨h, s.pollPass_of_ne h⟩

end State

/-! ### A command's beginning and going on (R22) -/

section Running

variable {cmd : Instr} {s t : State} {start : State → State} {resume : Phase → Option State}

theorem runPhase_idle (h : s.seq = .idle) : runPhase cmd s start resume = .next (start s) := by
  simp [runPhase, h]

theorem runPhase_busy {ph : Phase} (h : s.seq = .busy cmd ph) (hr : resume ph = some t) :
    runPhase cmd s start resume = .next t := by
  simp [runPhase, h, hr]

theorem runPhase_other {c : Instr} {ph : Phase} (h : s.seq = .busy c ph) (hc : cmd ≠ c) :
    runPhase cmd s start resume = .refused .sequencerBusy := by
  simp [runPhase, h, Ne.symm hc]

/-- A command's step that answers a next state has begun the command, or has gone on with it. -/
theorem runPhase_next (h : runPhase cmd s start resume = .next t) :
    (s.seq = .idle ∧ t = start s) ∨ ∃ ph, s.seq = .busy cmd ph ∧ resume ph = some t := by
  unfold runPhase at h
  split at h
  next hs => exact .inl ⟨hs, by simpa using h.symm⟩
  next c ph hs =>
    split_ifs at h with hc
    subst hc
    split at h
    next s' hr =>
      obtain rfl : s' = t := by simpa using h
      exact .inr ⟨ph, hs, hr⟩
    next => simp at h

/-- No command's step answers that the parameters are bad: only step itself does (R8). -/
theorem runPhase_ne_badConfig : runPhase cmd s start resume ≠ .refused .badConfig := by
  unfold runPhase
  split
  · simp
  · split_ifs
    · split <;> simp
    · simp

theorem runAtOnce_next {body : State → State} (h : runAtOnce cmd s body = .next t) :
    s.seq = .idle ∧ t = body s := by
  rcases runPhase_next h with h | ⟨_, _, h⟩
  · exact h
  · simp at h

end Running

end Sys2Proof.Machine
end

