-- ==== Sys2Proof/Laws/Exec.lean ====
section
/-! SUPPORT. What each command's step can do, said once: it begins the command, or goes on from its phase. -/

namespace Sys2Proof.Machine

variable {s t : State}

theorem execInit_next (h : execInit s = .next t) : s.seq = .idle ∧ t = initBody s :=
  runAtOnce_next h

theorem execTeardown_next (h : execTeardown s = .next t) : s.seq = .idle ∧ t = teardownBody s :=
  runAtOnce_next h

theorem execSetMode_next {p : Pin} {m : Mode} (h : execSetMode p m s = .next t) :
    s.seq = .idle ∧ t = s.checked p (setModeBody p m) := runAtOnce_next h

theorem execGetMode_next {p : Pin} (h : execGetMode p s = .next t) :
    s.seq = .idle ∧ t = s.checked p (getModeBody p) := runAtOnce_next h

theorem execRead_next {p : Pin} (h : execRead p s = .next t) :
    s.seq = .idle ∧ t = s.checked p (readBody p) := runAtOnce_next h

theorem execWrite_next {p : Pin} {l : Level} (h : execWrite p l s = .next t) :
    s.seq = .idle ∧ t = s.checked p (writeBody p l) := runAtOnce_next h

theorem execSetPull_next {p : Pin} {m : Pull} (h : execSetPull p m s = .next t) :
    (s.seq = .idle ∧ t = s.checked p (setPullBody p m)) ∨
      ∃ t0, s.seq = .busy (.setPull p m) (.settle t0) ∧ t = settlePass p m t0 s := by
  rcases runPhase_next h with h | ⟨ph, hs, hr⟩
  · exact .inl h
  · cases ph <;> simp at hr
    exact .inr ⟨_, hs, hr.symm⟩

theorem execTriggerPulse_next {p : Pin} {l : Level} {d : Micros}
    (h : execTriggerPulse p l d s = .next t) :
    (s.seq = .idle ∧ t = s.checked p (triggerPulseBody p l d)) ∨
      ∃ t0, s.seq = .busy (.triggerPulse p l d) (.hold t0) ∧ t = holdPass p l d t0 s := by
  rcases runPhase_next h with h | ⟨ph, hs, hr⟩
  · exact .inl h
  · cases ph <;> simp at hr
    exact .inr ⟨_, hs, hr.symm⟩

theorem execReadPulse_next {p : Pin} {target : Level} {timeout : Micros}
    (h : execReadPulse p target timeout s = .next t) :
    (s.seq = .idle ∧ t = s.checked p (readPulseBody p target timeout)) ∨
      ∃ t0 e, s.seq = .busy (.readPulse p target timeout) (.poll t0 e) ∧
        t = readPulsePass p target timeout t0 e s := by
  rcases runPhase_next h with h | ⟨ph, hs, hr⟩
  · exact .inl h
  · cases ph <;> simp at hr
    exact .inr ⟨_, _, hs, hr.symm⟩

theorem execDecode_next {p : Pin} {n : BitCount} {timeout : Micros}
    (h : execDecode p n timeout s = .next t) :
    (s.seq = .idle ∧ t = s.checked p (decodeBody p n timeout)) ∨
      ∃ i half t0 e buf, s.seq = .busy (.decode p n timeout) (.bit i half t0 e buf) ∧
        t = decodePass p n timeout i half t0 e buf s := by
  rcases runPhase_next h with h | ⟨ph, hs, hr⟩
  · exact .inl h
  · cases ph <;> simp at hr
    exact .inr ⟨_, _, _, _, _, hs, hr.symm⟩

/-! ### The first pass of a command, from the state after its first events -/

theorem setPullBody_eq (p : Pin) (m : Pull) (s : State) :
    setPullBody p m s = settlePass p m (s.assertPull p m).nextReading (s.assertPull p m).now.2 := rfl

theorem triggerPulseBody_eq (p : Pin) (l : Level) (d : Micros) (s : State) :
    triggerPulseBody p l d s = holdPass p l d (s.drive p l).nextReading (s.drive p l).now.2 := rfl

theorem readPulseBody_eq (p : Pin) (target : Level) (timeout : Micros) (s : State) :
    readPulseBody p target timeout s = readPulsePass p target timeout s.nextReading 0 s.now.2 := rfl

theorem decodeBody_zero (p : Pin) (timeout : Micros) (s : State) :
    decodeBody p 0 timeout s = s.succeed (.decoded [] true) := rfl

theorem decodeBody_eq (p : Pin) {n : BitCount} (h : n ≠ 0) (timeout : Micros) (s : State) :
    decodeBody p n timeout s =
      decodePass p n timeout 0 .pivot s.nextReading 0 (List.replicate (byteCount n.toNat) 0) s.now.2 :=
  if_neg h

/-- Every arm of exec is a run of its own command (R22). -/
theorem exec_runs (i : Instr) (s : State) :
    ∃ (start : State → State) (resume : Phase → Option State), exec i s = runPhase i s start resume := by
  cases i <;> simp only [exec, execInit, execTeardown, execSetMode, execGetMode, execSetPull, execRead,
    execWrite, execTriggerPulse, execReadPulse, execDecode, runAtOnce] <;> exact ⟨_, _, rfl⟩

/-- What a settle pass does: it waits, or it releases the pull (R170, R171). -/
theorem settlePass_cases (p : Pin) (m : Pull) (t0 : Clock) (s : State) :
    (s.nextReading - t0 < 20 ∧ settlePass p m t0 s = s.now.2.wait (.setPull p m) (.settle t0)) ∨
      (20 ≤ s.nextReading - t0 ∧ settlePass p m t0 s = s.now.2.releasePull p m) := by
  have h20 : (Config.pullSettleUsec.setWidth 64 : Clock) = 20 := by decide
  by_cases h : (20 : Clock) ≤ s.nextReading - t0
  · exact .inr ⟨h, by simp only [settlePass, State.delayPass_eq, h20, h, decide_true, if_true]⟩
  · exact .inl ⟨BitVec.not_le.1 h, by
      simp only [settlePass, State.delayPass_eq, h20, h, decide_false, Bool.false_eq_true, if_false]⟩

/-- What a hold pass does: it waits, or it performs the trail write (R200, R201). -/
theorem holdPass_cases (p : Pin) (l : Level) (d : Micros) (t0 : Clock) (s : State) :
    (s.nextReading - t0 < d.setWidth 64 ∧
        holdPass p l d t0 s = s.now.2.wait (.triggerPulse p l d) (.hold t0)) ∨
      (d.setWidth 64 ≤ s.nextReading - t0 ∧
        holdPass p l d t0 s = (s.now.2.drive p l.flip).succeed .none) := by
  by_cases h : d.setWidth 64 ≤ s.nextReading - t0
  · exact .inr ⟨h, by simp [holdPass, State.delayPass_eq, h]⟩
  · exact .inl ⟨BitVec.not_le.1 h, by simp [holdPass, State.delayPass_eq, h]⟩

/-- What a pass of READ_PULSE does (R220). -/
theorem readPulsePass_cases (p : Pin) (target : Level) (timeout : Micros) (t0 e : Clock) (s : State) :
    (s.nextLevel p.toNat ≠ target ∧ readPulsePass p target timeout t0 e s =
        (s.sample p).2.succeed (measurement target timeout (e.setWidth 32))) ∨
    (s.nextLevel p.toNat = target ∧ timeout.setWidth 64 ≤ (s.sample p).2.nextReading - t0 ∧
      readPulsePass p target timeout t0 e s =
        (s.sample p).2.now.2.succeed (measurement target timeout timeout)) ∨
    (s.nextLevel p.toNat = target ∧ (s.sample p).2.nextReading - t0 < timeout.setWidth 64 ∧
      readPulsePass p target timeout t0 e s =
        (s.sample p).2.now.2.wait (.readPulse p target timeout)
          (.poll t0 ((s.sample p).2.nextReading - t0))) := by
  rcases s.pollPass_cases p target timeout t0 e with ⟨h, hp⟩ | ⟨h, ht, hp⟩ | ⟨h, ht, hp⟩
  · exact .inl ⟨h, by simp [readPulsePass, hp]⟩
  · exact .inr (.inl ⟨h, ht, by simp [readPulsePass, hp]⟩)
  · exact .inr (.inr ⟨h, ht, by simp [readPulsePass, hp]⟩)

/-- What a pass of DECODE does (R240). -/
theorem decodePass_cases (p : Pin) (n : BitCount) (timeout : Micros) (i : Nat) (half : Half)
    (t0 e : Clock) (buf : List Byte) (s : State) :
    (s.nextLevel p.toNat ≠ half.target ∧ decodePass p n timeout i half t0 e buf s =
        afterHalf p n timeout i half buf (e.setWidth 32) (s.sample p).2) ∨
    (s.nextLevel p.toNat = half.target ∧ timeout.setWidth 64 ≤ (s.sample p).2.nextReading - t0 ∧
      decodePass p n timeout i half t0 e buf s =
        afterHalf p n timeout i half buf timeout (s.sample p).2.now.2) ∨
    (s.nextLevel p.toNat = half.target ∧ (s.sample p).2.nextReading - t0 < timeout.setWidth 64 ∧
      decodePass p n timeout i half t0 e buf s =
        (s.sample p).2.now.2.wait (.decode p n timeout)
          (.bit i half t0 ((s.sample p).2.nextReading - t0) buf)) := by
  rcases s.pollPass_cases p half.target timeout t0 e with ⟨h, hp⟩ | ⟨h, ht, hp⟩ | ⟨h, ht, hp⟩
  · exact .inl ⟨h, by simp [decodePass, hp]⟩
  · exact .inr (.inl ⟨h, ht, by simp [decodePass, hp]⟩)
  · exact .inr (.inr ⟨h, ht, by simp [decodePass, hp]⟩)

/-- What follows a measurement (R240, R244). -/
theorem afterHalf_cases (p : Pin) (n : BitCount) (timeout : Micros) (i : Nat) (half : Half)
    (buf : List Byte) (d : Micros) (s : State) :
    (timeout ≤ d ∧ afterHalf p n timeout i half buf d s = s.decodeFails) ∨
    (d < timeout ∧ half = .pivot ∧ afterHalf p n timeout i half buf d s =
        s.now.2.wait (.decode p n timeout) (.bit i (.pulse d) s.nextReading 0 buf)) ∨
    (∃ pivot, d < timeout ∧ half = .pulse pivot ∧ i + 1 < n.toNat ∧
      afterHalf p n timeout i half buf d s =
        s.now.2.wait (.decode p n timeout) (.bit (i + 1) .pivot s.nextReading 0
          (if decodedBit pivot d then setBufferBit buf i else buf))) ∨
    (∃ pivot, d < timeout ∧ half = .pulse pivot ∧ n.toNat ≤ i + 1 ∧
      afterHalf p n timeout i half buf d s =
        s.succeed (.decoded (if decodedBit pivot d then setBufferBit buf i else buf) true)) := by
  by_cases h : timeout ≤ d
  · exact .inl ⟨h, by simp [afterHalf, timedOut, h]⟩
  · have h' := BitVec.not_le.1 h
    cases half with
    | pivot => exact .inr (.inl ⟨h', rfl, by simp [afterHalf, timedOut, h, beginHalf]⟩)
    | pulse pivot =>
      by_cases hn : i + 1 < n.toNat
      · exact .inr (.inr (.inl ⟨pivot, h', rfl, hn, by simp [afterHalf, timedOut, h, beginHalf, hn]⟩))
      · exact .inr (.inr (.inr ⟨pivot, h', rfl, by omega, by simp [afterHalf, timedOut, h, hn]⟩))

end Sys2Proof.Machine
end

