-- ==== Sys2Proof/Laws/Step.lean ====
section
/-! SUPPORT. What one step of the block can do, said once. -/

namespace Sys2Proof.Machine

variable {s t : State}

/-- A running command goes on (R22). -/
theorem step_busy {cmd : Instr} {ph : Phase} (hv : s.cfg.Valid) (hs : s.seq = .busy cmd ph) :
    step s = exec cmd s := by
  rw [step, if_pos hv, hs]

/-- An Idle block with no command to run waits (log 9). -/
theorem step_waits (hv : s.cfg.Valid) (hs : s.seq = .idle) (hh : s.host = []) : step s = .next s := by
  rw [step, if_pos hv, hs]
  simp only [hh]

/-- An Idle block runs the host's next command (R21). -/
theorem step_issues {w : CommandWord} {ws : List CommandWord} {i : Instr} (hv : s.cfg.Valid)
    (hs : s.seq = .idle) (hh : s.host = w :: ws) (hd : decode w = .ok i) :
    step s = exec i (s.issue w ws) := by
  rw [step, if_pos hv, hs]
  simp only [hh, hd]

/-- A word that is no command gets its result and nothing else (R115). -/
theorem step_rejects {w : CommandWord} {ws : List CommandWord} {e : Illegal} (hv : s.cfg.Valid)
    (hs : s.seq = .idle) (hh : s.host = w :: ws) (hd : decode w = .error e) :
    step s = .next (s.issue w ws).rejectWord := by
  rw [step, if_pos hv, hs]
  simp only [hh, hd]

/-- Parameters that break R8 are refused. -/
theorem step_badConfig (hv : ¬ s.cfg.Valid) : step s = .refused .badConfig := by
  rw [step, if_neg hv]

/-- Every way a step can answer a next state: it waits, rejects a word, begins a command, or goes on with
one. -/
theorem step_next (h : step s = .next t) :
    s.cfg.Valid ∧
    ((s.seq = .idle ∧ s.host = [] ∧ t = s) ∨
      (∃ w ws, s.seq = .idle ∧ s.host = w :: ws ∧ t = (s.issue w ws).rejectWord) ∨
      (∃ w ws i, s.seq = .idle ∧ s.host = w :: ws ∧ decode w = .ok i ∧
        exec i (s.issue w ws) = .next t) ∨
      ∃ cmd ph, s.seq = .busy cmd ph ∧ exec cmd s = .next t) := by
  by_cases hv : s.cfg.Valid
  · refine ⟨hv, ?_⟩
    cases hs : s.seq with
    | busy cmd ph =>
      rw [step_busy hv hs] at h
      exact .inr (.inr (.inr ⟨cmd, ph, rfl, h⟩))
    | idle =>
      cases hh : s.host with
      | nil =>
        rw [step_waits hv hs hh] at h
        exact .inl ⟨rfl, rfl, by simpa using h.symm⟩
      | cons w ws =>
        cases hd : decode w with
        | error e =>
          rw [step_rejects hv hs hh hd] at h
          exact .inr (.inl ⟨w, ws, rfl, rfl, by simpa using h.symm⟩)
        | ok i =>
          rw [step_issues hv hs hh hd] at h
          exact .inr (.inr (.inl ⟨w, ws, i, rfl, rfl, hd, h⟩))
  · rw [step_badConfig hv] at h
    simp at h

/-! ### Runs -/

theorem run_zero (s : State) : Host.Core.run Sys2Proof.core 0 s = .next s := rfl

/-- A block with nothing to do waits for ever (log 9). -/
theorem run_waits (hv : s.cfg.Valid) (hs : s.seq = .idle) (hh : s.host = []) (k : Nat) :
    Host.Core.run Sys2Proof.core k s = .next s := by
  have h : Sys2Proof.core.step s = .next s := step_waits hv hs hh
  induction k with
  | zero => rfl
  | succ k ih => simp only [Host.Core.run, h, ih]

/-- A run takes its first step and goes on from there. -/
theorem run_succ {k : Nat} (h : step s = .next t) :
    Host.Core.run Sys2Proof.core (k + 1) s = Host.Core.run Sys2Proof.core k t := by
  have h' : Sys2Proof.core.step s = .next t := h
  simp only [Host.Core.run, h']

end Sys2Proof.Machine
end

