-- ==== Sys2Proof/Laws/Effect.lean ====
section
/-! SUPPORT. What a command's step can do, as one case distinction over all commands: a proof about every
command takes these cases instead of unfolding the meanings. -/

namespace Sys2Proof.Machine

/-- The state `s1` in which a pass of the loop of a command at a phase is made, in a step from `s`: `s`
itself where the command is running, the state after its first events where the command begins. -/
inductive PassFrom (s : State) : Instr → Phase → State → Prop where
  | resumed {cmd ph} : s.seq = .busy cmd ph → PassFrom s cmd ph s
  | setPull {p m} : s.Ready p →
      PassFrom s (.setPull p m) (.settle (s.assertPull p m).nextReading) (s.assertPull p m).now.2
  | triggerPulse {p l d} : s.Ready p →
      PassFrom s (.triggerPulse p l d) (.hold (s.drive p l).nextReading) (s.drive p l).now.2
  | readPulse {p target timeout} : s.Ready p →
      PassFrom s (.readPulse p target timeout) (.poll s.nextReading 0) s.now.2
  | decode {p n timeout} : s.Ready p → n ≠ 0 →
      PassFrom s (.decode p n timeout)
        (.bit 0 .pivot s.nextReading 0 (List.replicate (byteCount n.toNat) 0)) s.now.2

/-- A poll pass from `s1` ends a measurement after `d`, in the state `s2` (R220). -/
inductive Measured (s1 : State) (p : Pin) (target : Level) (timeout : Micros) (t0 elapsed : Clock) :
    Micros → State → Prop where
  | changed : s1.nextLevel p.toNat ≠ target →
      Measured s1 p target timeout t0 elapsed (elapsed.setWidth 32) (s1.sample p).2
  | late : s1.nextLevel p.toNat = target →
      timeout.setWidth 64 ≤ (s1.sample p).2.nextReading - t0 →
      Measured s1 p target timeout t0 elapsed timeout (s1.sample p).2.now.2

/-- A poll pass from `s1` goes round again (R220). -/
def PollsAgain (s1 : State) (p : Pin) (target : Level) (timeout : Micros) (t0 : Clock) : Prop :=
  s1.nextLevel p.toNat = target ∧ (s1.sample p).2.nextReading - t0 < timeout.setWidth 64

/-- Everything that a step of a command can do to the state `s`. -/
inductive Effect (s : State) : Instr → State → Prop where
  /-- A check fails (R310). -/
  | turnedAway {i c} : s.seq = .idle → c ≠ .ok → Effect s i (s.raise c)
  | initFails {c} : s.seq = .idle → s.port = .unmapped → c ≠ .ok →
      Effect s .init (s.drawDevice.2.raise c)
  | initMaps : s.seq = .idle → s.port = .unmapped → s.nextDevice = .ok →
      Effect s .init (initWith .ok s.drawDevice.2)
  | teardown : s.seq = .idle → s.port = .mapped →
      Effect s .teardown (State.succeed { s with port := .released } .none)
  | setMode {p m} : s.Ready p → Effect s (.setMode p m) (setModeBody p m s)
  | getMode {p} : s.Ready p → Effect s (.getMode p) (getModeBody p s)
  | read {p} : s.Ready p → Effect s (.read p) (readBody p s)
  | write {p l} : s.Ready p → Effect s (.write p l) (writeBody p l s)
  | settleWaits {p m t0 s1} : PassFrom s (.setPull p m) (.settle t0) s1 → s1.nextReading - t0 < 20 →
      Effect s (.setPull p m) (s1.now.2.wait (.setPull p m) (.settle t0))
  | settleEnds {p m t0 s1} : PassFrom s (.setPull p m) (.settle t0) s1 → 20 ≤ s1.nextReading - t0 →
      Effect s (.setPull p m) (s1.now.2.releasePull p m)
  | holdWaits {p l d t0 s1} : PassFrom s (.triggerPulse p l d) (.hold t0) s1 →
      s1.nextReading - t0 < d.setWidth 64 →
      Effect s (.triggerPulse p l d) (s1.now.2.wait (.triggerPulse p l d) (.hold t0))
  | holdEnds {p l d t0 s1} : PassFrom s (.triggerPulse p l d) (.hold t0) s1 →
      d.setWidth 64 ≤ s1.nextReading - t0 →
      Effect s (.triggerPulse p l d) ((s1.now.2.drive p l.flip).succeed .none)
  | pollWaits {p target timeout t0 e s1} :
      PassFrom s (.readPulse p target timeout) (.poll t0 e) s1 → PollsAgain s1 p target timeout t0 →
      Effect s (.readPulse p target timeout)
        ((s1.sample p).2.now.2.wait (.readPulse p target timeout)
          (.poll t0 ((s1.sample p).2.nextReading - t0)))
  | pollEnds {p target timeout t0 e s1 d s2} :
      PassFrom s (.readPulse p target timeout) (.poll t0 e) s1 →
      Measured s1 p target timeout t0 e d s2 →
      Effect s (.readPulse p target timeout) (s2.succeed (measurement target timeout d))
  | decodeNothing {p n timeout} : s.Ready p → n = 0 →
      Effect s (.decode p n timeout) (s.succeed (.decoded [] true))
  | bitWaits {p n timeout i half t0 e buf s1} :
      PassFrom s (.decode p n timeout) (.bit i half t0 e buf) s1 →
      PollsAgain s1 p half.target timeout t0 →
      Effect s (.decode p n timeout)
        ((s1.sample p).2.now.2.wait (.decode p n timeout)
          (.bit i half t0 ((s1.sample p).2.nextReading - t0) buf))
  | bitFails {p n timeout i half t0 e buf s1 d s2} :
      PassFrom s (.decode p n timeout) (.bit i half t0 e buf) s1 →
      Measured s1 p half.target timeout t0 e d s2 → timeout ≤ d →
      Effect s (.decode p n timeout) s2.decodeFails
  | pivotEnds {p n timeout i t0 e buf s1 d s2} :
      PassFrom s (.decode p n timeout) (.bit i .pivot t0 e buf) s1 →
      Measured s1 p .low timeout t0 e d s2 → d < timeout →
      Effect s (.decode p n timeout)
        (s2.now.2.wait (.decode p n timeout) (.bit i (.pulse d) s2.nextReading 0 buf))
  | pulseEnds {p n timeout i pivot t0 e buf s1 d s2} :
      PassFrom s (.decode p n timeout) (.bit i (.pulse pivot) t0 e buf) s1 →
      Measured s1 p .high timeout t0 e d s2 → d < timeout → i + 1 < n.toNat →
      Effect s (.decode p n timeout)
        (s2.now.2.wait (.decode p n timeout) (.bit (i + 1) .pivot s2.nextReading 0
          (if decodedBit pivot d then setBufferBit buf i else buf)))
  | lastPulseEnds {p n timeout i pivot t0 e buf s1 d s2} :
      PassFrom s (.decode p n timeout) (.bit i (.pulse pivot) t0 e buf) s1 →
      Measured s1 p .high timeout t0 e d s2 → d < timeout → n.toNat ≤ i + 1 →
      Effect s (.decode p n timeout)
        (s2.succeed (.decoded (if decodedBit pivot d then setBufferBit buf i else buf) true))

variable {s t s1 : State}

/-- A checked command is turned away or has the effect of its body. -/
theorem Effect.checked {i : Instr} {p : Pin} {body : State → State} (hs : s.seq = .idle)
    (h : s.Ready p → Effect s i (body s)) : Effect s i (s.checked p body) := by
  by_cases hm : s.port = .mapped
  · by_cases hp : p.toNat < s.cfg.numPins
    · rw [s.checked_ok hm hp]
      exact h ⟨hs, hm, hp⟩
    · rw [s.checked_outOfRange hm (by omega)]
      exact .turnedAway hs (by decide)
  · rw [s.checked_notMapped hm]
    exact .turnedAway hs (by decide)

theorem Effect.settlePass {p : Pin} {m : Pull} {t0 : Clock}
    (h : PassFrom s (.setPull p m) (.settle t0) s1) :
    Effect s (.setPull p m) (settlePass p m t0 s1) := by
  rcases settlePass_cases p m t0 s1 with ⟨ht, he⟩ | ⟨ht, he⟩ <;> rw [he]
  · exact .settleWaits h ht
  · exact .settleEnds h ht

theorem Effect.holdPass {p : Pin} {l : Level} {d : Micros} {t0 : Clock}
    (h : PassFrom s (.triggerPulse p l d) (.hold t0) s1) :
    Effect s (.triggerPulse p l d) (holdPass p l d t0 s1) := by
  rcases holdPass_cases p l d t0 s1 with ⟨ht, he⟩ | ⟨ht, he⟩ <;> rw [he]
  · exact .holdWaits h ht
  · exact .holdEnds h ht

theorem Effect.readPulsePass {p : Pin} {target : Level} {timeout : Micros} {t0 e : Clock}
    (h : PassFrom s (.readPulse p target timeout) (.poll t0 e) s1) :
    Effect s (.readPulse p target timeout) (readPulsePass p target timeout t0 e s1) := by
  rcases readPulsePass_cases p target timeout t0 e s1 with ⟨hl, he⟩ | ⟨hl, ht, he⟩ | ⟨hl, ht, he⟩ <;>
    rw [he]
  · exact .pollEnds h (.changed hl)
  · exact .pollEnds h (.late hl ht)
  · exact .pollWaits h ⟨hl, ht⟩

theorem Effect.afterHalf {p : Pin} {n : BitCount} {timeout : Micros} {i : Nat} {half : Half}
    {t0 e : Clock} {buf : List Byte} {d : Micros} {s2 : State}
    (h : PassFrom s (.decode p n timeout) (.bit i half t0 e buf) s1)
    (hm : Measured s1 p half.target timeout t0 e d s2) :
    Effect s (.decode p n timeout) (afterHalf p n timeout i half buf d s2) := by
  rcases afterHalf_cases p n timeout i half buf d s2 with
    ⟨ht, he⟩ | ⟨ht, rfl, he⟩ | ⟨pivot, ht, rfl, hn, he⟩ | ⟨pivot, ht, rfl, hn, he⟩ <;> rw [he]
  · exact .bitFails h hm ht
  · exact .pivotEnds h hm ht
  · exact .pulseEnds h hm ht hn
  · exact .lastPulseEnds h hm ht hn

theorem Effect.decodePass {p : Pin} {n : BitCount} {timeout : Micros} {i : Nat} {half : Half}
    {t0 e : Clock} {buf : List Byte}
    (h : PassFrom s (.decode p n timeout) (.bit i half t0 e buf) s1) :
    Effect s (.decode p n timeout) (decodePass p n timeout i half t0 e buf s1) := by
  rcases decodePass_cases p n timeout i half t0 e buf s1 with
    ⟨hl, he⟩ | ⟨hl, ht, he⟩ | ⟨hl, ht, he⟩ <;> rw [he]
  · exact .afterHalf h (.changed hl)
  · exact .afterHalf h (.late hl ht)
  · exact .bitWaits h ⟨hl, ht⟩

/-- Every next state that exec answers is one of the effects above. -/
theorem exec_effect {i : Instr} (h : exec i s = .next t) : Effect s i t := by
  cases i with
  | init =>
    obtain ⟨hs, rfl⟩ := execInit_next h
    by_cases hp : s.port = .unmapped
    · rw [initBody, if_neg (by simp [hp])]
      show Effect s .init (initWith s.nextDevice s.drawDevice.2)
      cases hd : s.nextDevice
      · exact .initMaps hs hp hd
      · exact .initFails hs hp (by decide)
      · exact .initFails hs hp (by decide)
    · rw [initBody, if_pos hp]
      exact .turnedAway hs (by decide)
  | teardown =>
    obtain ⟨hs, rfl⟩ := execTeardown_next h
    by_cases hp : s.port = .mapped
    · rw [teardownBody, if_neg (by simp [hp])]
      exact .teardown hs hp
    · rw [teardownBody, if_pos hp]
      exact .turnedAway hs (by decide)
  | setMode p m =>
    obtain ⟨hs, rfl⟩ := execSetMode_next h
    exact .checked hs .setMode
  | getMode p =>
    obtain ⟨hs, rfl⟩ := execGetMode_next h
    exact .checked hs .getMode
  | read p =>
    obtain ⟨hs, rfl⟩ := execRead_next h
    exact .checked hs .read
  | write p l =>
    obtain ⟨hs, rfl⟩ := execWrite_next h
    exact .checked hs .write
  | setPull p m =>
    rcases execSetPull_next h with ⟨hs, rfl⟩ | ⟨t0, hs, rfl⟩
    · exact .checked hs fun hr => .settlePass (.setPull hr)
    · exact .settlePass (.resumed hs)
  | triggerPulse p l d =>
    rcases execTriggerPulse_next h with ⟨hs, rfl⟩ | ⟨t0, hs, rfl⟩
    · exact .checked hs fun hr => .holdPass (.triggerPulse hr)
    · exact .holdPass (.resumed hs)
  | readPulse p target timeout =>
    rcases execReadPulse_next h with ⟨hs, rfl⟩ | ⟨t0, e, hs, rfl⟩
    · exact .checked hs fun hr => .readPulsePass (.readPulse hr)
    · exact .readPulsePass (.resumed hs)
  | decode p n timeout =>
    rcases execDecode_next h with ⟨hs, rfl⟩ | ⟨i, half, t0, e, buf, hs, rfl⟩
    · refine .checked hs fun hr => ?_
      by_cases hn : n = 0
      · rw [decodeBody, if_pos hn]
        exact .decodeNothing hr hn
      · rw [decodeBody, if_neg hn]
        exact .decodePass (.decode hr hn)
    · exact .decodePass (.resumed hs)

/-! ### What passes leave alone -/

theorem PassFrom.cfg_eq {cmd : Instr} {ph : Phase} (h : PassFrom s cmd ph s1) : s1.cfg = s.cfg := by
  cases h <;> simp [State.assertPull]

theorem PassFrom.port_eq {cmd : Instr} {ph : Phase} (h : PassFrom s cmd ph s1) : s1.port = s.port := by
  cases h <;> simp [State.assertPull]

theorem PassFrom.host_eq {cmd : Instr} {ph : Phase} (h : PassFrom s cmd ph s1) : s1.host = s.host := by
  cases h <;> simp [State.assertPull]

/-- The state after a measurement is the state after its sample, or after its sample and a clock reading. -/
theorem Measured.state {p : Pin} {target : Level} {timeout : Micros} {t0 e : Clock} {d : Micros}
    {s2 : State} (h : Measured s1 p target timeout t0 e d s2) :
    s2 = (s1.sample p).2 ∨ s2 = (s1.sample p).2.now.2 := by
  cases h
  · exact .inl rfl
  · exact .inr rfl

end Sys2Proof.Machine
end

