-- ==== Sys2Proof/Laws/Fairness.lean ====
section
/-! SUPPORT. The laws of clock fairness (R45): what a step does to it, and runs in which it holds. -/

namespace Sys2Proof.Machine

variable {s t : State}

/-- A run keeps reading the clock exactly when it does so from its second state on. -/
theorem keepsReading_step (h : step s = .next t) : s.KeepsReading ↔ t.KeepsReading := by
  constructor
  · intro hs n
    obtain ⟨k, u, hr, hn⟩ := hs (n + (readings s.history).length + 1)
    cases k with
    | zero =>
      obtain rfl : s = u := Host.Outcome.next.inj hr
      omega
    | succ k => exact ⟨k, u, by rwa [run_succ h] at hr, by omega⟩
  · intro ht n
    obtain ⟨k, u, hr, hn⟩ := ht n
    exact ⟨k + 1, u, by rwa [run_succ h], hn⟩

/-- A state whose next step is fair is fair. -/
theorem clockFair_of_step (h : step s = .next t) (ht : t.ClockFair) : s.ClockFair := by
  intro hs bound
  obtain ⟨k, u, hr, hb⟩ := ht ((keepsReading_step h).1 hs) bound
  exact ⟨k + 1, u, by rwa [run_succ h], hb⟩

/-- A block with nothing to do reads no clock, so that its clock is fair. -/
theorem clockFair_of_waits (hv : s.cfg.Valid) (hs : s.seq = .idle) (hh : s.host = []) :
    s.ClockFair := by
  intro hk
  obtain ⟨k, u, hr, hn⟩ := hk ((readings s.history).length + 1)
  rw [run_waits hv hs hh] at hr
  obtain rfl : s = u := Host.Outcome.next.inj hr
  omega

end Sys2Proof.Machine
end

