-- ==== Sys2Proof/Laws/PerInstr.lean ====
section
/-! SUPPORT. The law that is stated of every command, one lemma a constructor: the command word holds
exactly the command's fields. -/

namespace Sys2Proof

/-- A command word holds the fields it was laid out from, each in its own bits (R101). -/
theorem Fields.ofWord_toWord (f : Fields) : Fields.ofWord f.toWord = f := by
  obtain ⟨op, arg, rsv, pin, count, usec⟩ := f
  simp only [Fields.ofWord, Fields.toWord, Fields.mk.injEq]
  refine ⟨?_, ?_, ?_, ?_, ?_, ?_⟩ <;>
    · apply BitVec.eq_of_getLsbD_eq
      intro i hi
      simp only [BitVec.getLsbD_extractLsb', BitVec.getLsbD_append, hi, decide_true, Bool.true_and]
      repeat' (split_ifs <;> first | omega | skip)
      all_goals first | rfl | (congr 1; omega)

namespace Laws.EncodedFields

/-- The command word of `i` holds the opcode and the operands of `i`, and 0 in every other field
(R101, R103). -/
def Statement (i : Instr) : Prop := Fields.ofWord (encode i) = i.fields

theorem init : Statement .init := Fields.ofWord_toWord _

theorem teardown : Statement .teardown := Fields.ofWord_toWord _

theorem setMode (pin : Pin) (mode : Mode) : Statement (.setMode pin mode) := Fields.ofWord_toWord _

theorem getMode (pin : Pin) : Statement (.getMode pin) := Fields.ofWord_toWord _

theorem setPull (pin : Pin) (pull : Pull) : Statement (.setPull pin pull) := Fields.ofWord_toWord _

theorem read (pin : Pin) : Statement (.read pin) := Fields.ofWord_toWord _

theorem write (pin : Pin) (level : Level) : Statement (.write pin level) := Fields.ofWord_toWord _

theorem triggerPulse (pin : Pin) (level : Level) (duration : Micros) :
    Statement (.triggerPulse pin level duration) := Fields.ofWord_toWord _

theorem readPulse (pin : Pin) (target : Level) (timeout : Micros) :
    Statement (.readPulse pin target timeout) := Fields.ofWord_toWord _

theorem decode (pin : Pin) (count : BitCount) (timeout : Micros) :
    Statement (.decode pin count timeout) := Fields.ofWord_toWord _

end Laws.EncodedFields

end Sys2Proof
end

