-- ==== Sys2Proof/Tests/Slice0.lean ====
section
/-! SUPPORT. The model's own tests. Expected results are those of spec/95_test_vectors.md (the section is
named at each test), or worked out by hand from the rule named. -/

namespace Sys2Proof.Tests

open Sys2Proof.Machine

/-! ### Words and terms that the checks refuse (95 section 2.1, R103, R8) -/

theorem test_reserved_ops :
    [0x0, 0xB, 0xF].map (fun w : CommandWord => (wellFormedWord w, decode w)) =
      List.replicate 3 (false, .error .reservedOp) := by decide

theorem test_reserved_bit :
    [0x83, 0x483, 0x499, 0x4A9, 0x48A].map (fun w : CommandWord => (wellFormedWord w, decode w)) =
      List.replicate 5 (false, .error .reservedBit) := by decide

theorem test_unused_fields :
    [0x0000000100000001, 0x11, 0x402, 0x414, 0x10406, 0x445, 0x427, 0x0000000100010408].map
        (fun w : CommandWord => (wellFormedWord w, decode w)) =
      List.replicate 8 (false, .error .unusedField) := by decide

theorem test_pull_code_three :
    (wellFormedWord 0x435, decode 0x435) = (false, .error .pullCode) := by decide

theorem test_short_bytes : decodeBytes [0x01, 0, 0, 0, 0, 0, 0] = .error .tooShort := by decide

theorem test_config_reference : Config.reference.Valid := by decide

theorem test_config_no_pins : ¬ { Config.reference with numPins := 0 }.Valid := by decide

theorem test_config_too_many_pins :
    ¬ { Config.reference with
          numPins := 257, blockWords := 300,
          layout := ⟨0, 100, 120, 140, 160, 180⟩ }.Valid := by decide

theorem test_config_small_block : ¬ { Config.reference with blockWords := 179 }.Valid := by decide

theorem test_config_cell_outside :
    ¬ { Config.reference with layout := ⟨0, 7, 10, 13, 37, 179⟩ }.Valid := by decide

theorem test_config_shared_cell :
    ¬ { Config.reference with layout := ⟨0, 7, 8, 13, 37, 38⟩ }.Valid := by decide

/-! ### Decoding (95 sections 2.1 to 2.9), a word of each family -/

theorem test_decode_legal_edges :
    [0x473, 0x418, 0xFFFFFFFFFFFF040A, 0xFF0A0A].map decode =
      [.ok (.setMode 4 .alt3), .ok (.triggerPulse 4 .high 0),
        .ok (.decode 4 65535 0xFFFFFFFF), .ok (.decode 10 255 0)] := by decide

theorem test_decode_modes :
    [0x1103, 0x1113, 0x1123, 0x1133, 0x1143, 0x1153, 0x1163, 0x1173].map decode =
      [Mode.input, .output, .alt5, .alt4, .alt0, .alt1, .alt2, .alt3].map
        fun m => Except.ok (.setMode 17 m) := by decide

theorem test_decode_lifecycle : [0x1, 0x2].map decode = [.ok .init, .ok .teardown] := by decide

theorem test_decode_pins :
    [0x1104, 0x2115, 0x2306, 0x2317, 0x3507].map decode =
      [.ok (.getMode 17), .ok (.setPull 33 .down), .ok (.read 35), .ok (.write 35 .high),
        .ok (.write 53 .low)] := by decide

theorem test_decode_pulses :
    [0x000003E800000418, 0x000000C800000409, 0x000000640008040A].map decode =
      [.ok (.triggerPulse 4 .high 1000), .ok (.readPulse 4 .low 200), .ok (.decode 4 8 100)] := by
  decide

/-- A serialized command word is little-endian: byte 0 holds bits [7:0] (R75). -/
theorem test_bytes_little_endian :
    encodeBytes (.decode 4 8 100) = [0x0A, 0x04, 0x08, 0x00, 0x64, 0x00, 0x00, 0x00] := by decide

theorem test_table_word : decodeTableWord 64 0x000003E800000418 = some (.triggerPulse 4 .high 1000) := by
  decide

theorem test_assemble_hex :
    Assembler.assemble "set_pull(0x21, PullDown)" = some (.setPull 33 .down) := by decide

theorem test_assemble_refuses :
    ["set_pull(4, 3)", "read(256)", "read(4", "initialize(1)"].map Assembler.assemble =
      [none, none, none, none] := by decide

/-! ### States -/

/-- Mapped and Idle, every pin in Input mode, every latch Low (the convention of 95). -/
def ready : State :=
  { State.reset with port := .mapped, latch := (List.range 54).map fun p => (p, .low) }

/-- `ready` with one stored cell. -/
def withCell (i : Nat) (v : Word) : State := { ready with cells := Cells.write [] i v }

/-- `ready` with coming clock readings and pads. -/
def withDraws (clock : List Clock) (pads : List Word) : State :=
  { ready with env := { ready.env with clock := clock, pads := pads } }

/-- `ready` with a running command, its history cut, and coming draws. -/
def running (cmd : Instr) (ph : Phase) (last : Clock) (clock : List Clock) (pads : List Word) : State :=
  { withDraws clock pads with seq := .busy cmd ph, clock := last }

/-- `ready` with pin 4 in Output mode and its latch at a level. -/
def pin4Output (l : Level) : State :=
  { withCell 0 0x00001000 with latch := Table.set ready.latch 4 l }

/-- The next state of an outcome. -/
def nextOf : Host.Outcome State Fault Refusal → Option State
  | .next s => some s
  | .fault _ | .refused _ => none

/-- What an outcome shows: the events, and the value of one reading of the next state. -/
def shows {α : Type} (o : Host.Outcome State Fault Refusal) (f : State → α) : Option (List Event × α) :=
  (nextOf o).map fun t => (t.events, f t)

/-- The event of a result with code OK. -/
def okResult (x : Payload) : Event := .result (.ok x)

/-! ### Port lifecycle (95 section 2.2) -/

theorem test_init_ok :
    shows (exec .init
        { State.reset with
          env := { State.reset.env with device := [.ok], cells := [(0, 0x1000)], latch := [(4, .high)] } })
        (fun t => (t.port, t.latchOf 4)) =
      some ([okResult .none], .mapped, .high) := by decide

theorem test_init_map_failed :
    shows (exec .init { State.reset with env := { State.reset.env with device := [.mapFailed] } })
        (fun t => t.port) =
      some ([.result ⟨.mapFailed, .none⟩], .unmapped) := by decide

theorem test_teardown : shows (exec .teardown ready) (fun t => (t.port, t.final)) =
    some ([okResult .none], .released, true) := by decide

theorem test_teardown_unmapped :
    shows (exec .teardown State.reset) (fun t => t.port) =
      some ([.result ⟨.notMapped, .none⟩], .unmapped) := by decide

/-- A run that ends after a failed INIT is final only with a TEARDOWN after it, and the reset state is not
final (R147). -/
theorem test_final_needs_teardown :
    ([[], [.result ⟨.mapFailed, .none⟩, .issue 0x1],
      [.result ⟨.notMapped, .none⟩, .issue 0x2, .result ⟨.mapFailed, .none⟩, .issue 0x1],
      [.result ⟨.mapFailed, .none⟩, .issue 0x1, .result ⟨.notMapped, .none⟩, .issue 0x2]].map
        fun es : List Event => State.final { State.reset with history := es }) =
      [false, false, true, false] := by decide

/-- A pin at NUM_PINS has no pad, whatever the mode field at its place holds (R26, R40). -/
theorem test_pad_of_no_pin :
    ((withCell 5 0x00001000).padDrive 54, (withCell 5 0x00000200).padDrive 53) = (none, some .low) := by
  decide

/-! ### SET_MODE and GET_MODE (95 section 2.3) -/

theorem test_set_mode_keeps_low_bits :
    shows (exec (.setMode 10 .alt0) (withCell 1 0x12345678)) (fun t => Cells.read t.cells 1) =
      some ([.read 1 0x12345678, .write 1 0x1234567C, okResult .none], 0x1234567C) := by decide

theorem test_set_mode_keeps_top_bits :
    shows (exec (.setMode 9 .output) (withCell 0 0xC0000000)) (fun t => t.mode 9) =
      some ([.read 0 0xC0000000, .write 0 0xC8000000, okResult .none], .output) := by decide

theorem test_get_mode_top_field :
    shows (exec (.getMode 9) (withCell 0 0xFFFFFFFF)) (fun _ => ()) =
      some ([.read 0 0xFFFFFFFF, okResult (.mode 7)], ()) := by decide

theorem test_get_mode_pin_54 :
    shows (exec (.getMode 54) ready) (fun _ => ()) = some ([.result ⟨.pinOutOfRange, .none⟩], ()) := by
  decide

/-! ### SET_PULL (95 section 2.4) -/

/-- The first step ends inside the settle delay, at the second of the readings 0, 5, 20. -/
theorem test_set_pull_waits :
    shows (exec (.setPull 33 .down) (withDraws [0, 5, 20] [])) (fun t => t.seq) =
      some ([.write 37 1, .write 39 2, .clock 0, .clock 5],
        .busy (.setPull 33 .down) (.settle 0)) := by decide

/-- The readings 7, 27: the delay is over at the second one. -/
theorem test_set_pull_off :
    shows (exec (.setPull 4 .off) (withDraws [7, 27] [])) (fun t => (t.pullOf 4, t.cells)) =
      some ([.write 37 0, .write 38 0x10, .clock 7, .clock 27, .write 37 0, .write 38 0,
        okResult .none], some .off, []) := by decide

/-! ### READ (95 section 2.5) and WRITE (95 section 2.6) -/

theorem test_read_input :
    shows (exec (.read 35) (withDraws [] [0x00000008])) (fun _ => ()) =
      some ([.sample 35 .high, .read 14 0x00000008, okResult (.level .high)], ()) := by decide

/-- A pin in Output mode reads as its latch, here against its pad; no pad sample of it is taken. -/
theorem test_read_output :
    shows (exec (.read 4)
        { pin4Output .high with env := { State.reset.env with pads := [0x00000000] } }) (fun _ => ()) =
      some ([.read 13 0x00000010, okResult (.level .high)], ()) := by decide

theorem test_write_second_bank :
    shows (exec (.write 32 .high) ready) (fun t => (t.latchOf 32, t.latchOf 0)) =
      some ([.write 8 0x00000001, okResult .none], .high, .low) := by decide

theorem test_write_low :
    shows (exec (.write 53 .low) { ready with latch := Table.set ready.latch 53 .high })
        (fun t => t.latchOf 53) =
      some ([.write 11 0x00200000, okResult .none], .low) := by decide

/-! ### TRIGGER_PULSE (95 section 2.7) -/

theorem test_trigger_zero :
    shows (exec (.triggerPulse 4 .high 0) (withDraws [9, 9] [])) (fun t => t.latchOf 4) =
      some ([.write 7 0x10, .clock 9, .clock 9, .write 10 0x10, okResult .none], .low) := by decide

/-- The last pass of `trigger_pulse(4, Low, 18000)`, at the reading 18000. -/
theorem test_trigger_ends :
    shows (exec (.triggerPulse 4 .low 18000)
        (running (.triggerPulse 4 .low 18000) (.hold 0) 0 [18000] [])) (fun t => (t.latchOf 4, t.seq)) =
      some ([.clock 18000, .write 7 0x10, okResult .none], .high, .idle) := by decide

/-! ### READ_PULSE (95 section 2.8) -/

/-- The row "change just before the timeout": the last pass, after the reading 99. -/
theorem test_read_pulse_ends :
    shows (exec (.readPulse 4 .high 100)
        (running (.readPulse 4 .high 100) (.poll 0 99) 99 [] [0])) (fun t => t.seq) =
      some ([.sample 4 .low, .read 13 0, okResult (.pulse 99 .high false)], .idle) := by decide

/-- The row "wall time overshoots": the duration is capped at the timeout. -/
theorem test_read_pulse_capped :
    shows (exec (.readPulse 4 .high 100)
        (running (.readPulse 4 .high 100) (.poll 0 60) 60 [250] [0x10])) (fun t => t.seq) =
      some ([.sample 4 .high, .read 13 0x10, .clock 250, okResult (.pulse 100 .high true)], .idle) := by
  decide

/-! ### DECODE (95 section 2.9) -/

theorem test_decode_no_bits :
    shows (exec (.decode 4 0 100) ready) (fun _ => ()) = some ([okResult (.decoded [] true)], ()) := by
  decide

/-- N = 9, the last pulse of the pairs (1,2) eight times, then (3,4): the seven low bits of byte 1 are 0. -/
theorem test_decode_padding :
    shows (exec (.decode 4 9 100)
        (running (.decode 4 9 100) (.bit 8 (.pulse 3) 0 4 [0xFF, 0x00]) 4 [] [0])) (fun t => t.seq) =
      some ([.sample 4 .low, .read 13 0, okResult (.decoded [0xFF, 0x80] true)], .idle) := by decide

/-! ### Steps (95 sections 2.1, 2.2, 3.4) -/

theorem test_step_illegal_word :
    shows (step { State.reset with host := [0] }) (fun t => (t.port, t.host)) =
      some ([.issue 0, .result ⟨.illegalCommand, .none⟩], .unmapped, []) := by decide

/-- The port is checked before the pin: `read(60)` while Unmapped. -/
theorem test_step_not_mapped :
    shows (step (State.reset.withFetchWord 64 0x3C06)) (fun t => t.port) =
      some ([.issue 0x3C06, .result ⟨.notMapped, .none⟩], .unmapped) := by decide

theorem test_step_bad_config :
    step { State.reset with cfg := { Config.reference with numPins := 0 } } = .refused .badConfig := by
  rfl

theorem test_decode_bits_msb_first :
    [0, 7, 8].map (setBufferBit [0, 0]) = [[0x80, 0], [0x01, 0], [0, 0x80]] := by decide

/-- The source lines of 95 sections 2.1 to 2.9 and the words beside them. -/
theorem test_assemble_spec_lines :
    ["initialize()", "set_mode(9, AltFunction3)", "read(35)", "trigger_pulse(4, Low, 18000)",
      "decode(4, 100, 8)"].map (fun l => (Assembler.assemble l).map encode) =
      [0x1, 0x973, 0x2306, 0x0000465000000408, 0x000000640008040A].map some := by decide

/-! ### Witnesses: states and operands that meet the hypotheses of each statement, at the edges of their
ranges -/

/-- `ready` with a command word to issue, and coming draws. -/
def issuing (w : CommandWord) (clock : List Clock) (pads : List Word) : State :=
  { withDraws clock pads with host := [w] }

/-- `ready` after TEARDOWN. -/
def released : State := { ready with port := .released }

/-- READ_PULSE of pin 4 inside its loop, 60 of its 100 microseconds gone. -/
def polling : State := running (.readPulse 4 .high 100) (.poll 0 60) 60 [99] [0x10]

theorem witness_EncodeOfDecode : decode 0x0000000000001113 = .ok (.setMode 17 .output) := by decide

theorem witness_OpcodeRowsDisjoint :
    (opcodeRows.filter fun r => r.covers 0x473).map OpcodeRow.mnemonic = ["SET_MODE"] := by decide

theorem witness_PullCodeThreeIsNoCommand :
    ((0x435 : CommandWord).extractLsb' 0 4 = 5 ∧ (0x435 : CommandWord).extractLsb' 4 2 = 3) ∧
    ((0x445 : CommandWord).extractLsb' 0 4 = 5 ∧ (0x445 : CommandWord).getLsbD 6 = true) := by decide

/-- A word of each ground: OP 0 and B, RSV, an unused field, pull code 3. -/
theorem witness_IllegalWordsChangeNothing :
    ((0x0 : CommandWord).extractLsb' 0 4 = 0 ∧ 0xB ≤ ((0xB : CommandWord).extractLsb' 0 4).toNat ∧
      (0x83 : CommandWord).getLsbD 7 = true ∧
      (∀ r ∈ opcodeRows, (0x414 : CommandWord) &&& r.mask ≠ r.pattern) ∧
      ∀ r ∈ opcodeRows, (0x435 : CommandWord) &&& r.mask = r.pattern →
        r.pullRow = true ∧ (0x435 : CommandWord).extractLsb' 4 2 = 3) ∧
    (issuing 0x435 [] []).cfg.Valid ∧ (issuing 0x435 [] []).seq = .idle ∧
    (issuing 0x435 [] []).host = [0x435] := by decide

theorem witness_StepRunsDecodedCommand :
    (issuing 0x3507 [] []).cfg.Valid ∧ (issuing 0x3507 [] []).seq = .idle ∧
    (issuing 0x3507 [] []).host = [0x3507] ∧ decode 0x3507 = .ok (.write 53 .low) := by decide

theorem witness_RunningCommandIsAlone :
    polling.cfg.Valid ∧ polling.seq = .busy (.readPulse 4 .high 100) (.poll 0 60) ∧
    (nextOf (step polling)).isSome = true := by decide

theorem witness_AddressMapNamesEachCell :
    Config.reference.Valid ∧ (CellName.fsel 5).exists Config.reference = true ∧
    (CellName.fsel 6).exists Config.reference = false ∧
    CellName.at Config.reference 39 = some (.pudclk 1) ∧ CellName.at Config.reference 40 = none := by
  decide

/-- Sound states that step: at reset, mapped and Idle, and in a command of each kind that waits. -/
theorem witness_StepKeepsInv :
    State.reset.Inv ∧ ready.Inv ∧ polling.Inv ∧
    (running (.setPull 53 .up) (.settle 5) 24 [] []).Inv ∧
    (running (.triggerPulse 53 .low 18000) (.hold 0) 17999 [] []).Inv ∧
    (running (.decode 4 9 100) (.bit 8 (.pulse 99) 0 99 [0xFF, 0x00]) 99 [] []).Inv :=
  ⟨by decide, by decide, by decide, by decide, by decide, by decide⟩

theorem witness_StepKeepsInv_next :
    (nextOf (step polling)).any (fun t => decide (t.seq = .busy (.readPulse 4 .high 100) (.poll 0 99))) =
      true := by decide

theorem witness_StepKeepsEventsFit :
    polling.Inv ∧ (∀ e ∈ polling.history, e.fits polling.cfg = true) ∧
    (nextOf (step polling)).isSome = true := by decide

theorem witness_ClockNeverMovesBackward :
    polling.clockOrdered = true ∧ (nextOf (step polling)).map State.clock = some 99 := by decide

theorem witness_SoundBlockAlwaysSteps : polling.cfg.Valid ∧ polling.Inv := by decide

theorem witness_HistoryOnlyGrows : (nextOf (step polling)).isSome = true := by decide

theorem witness_OnlyLifecycleMovesPort :
    (nextOf (exec .teardown ready)).map State.port = some .released := by decide

/-- A cell of each class that changes, in a sound block: the last function-select cell under SET_MODE, the
pull-control cell and the second pull clock-enable cell under SET_PULL. -/
theorem witness_StateChangesOnlyUnderItsWriters :
    ready.cfg.Valid ∧ ready.Inv ∧
    (nextOf (exec (.setMode 53 .alt3) ready)).map (fun t => Cells.read t.cells 5) = some 0x00000E00 ∧
    CellName.at ready.cfg 5 = some (.fsel 5) ∧
    (nextOf (exec (.setPull 33 .down) (withDraws [0, 5] []))).map
        (fun t => (Cells.read t.cells 37, Cells.read t.cells 39)) = some (1, 2) ∧
    CellName.at ready.cfg 37 = some .pud ∧ CellName.at ready.cfg 39 = some (.pudclk 1) := by decide

theorem witness_PullIsGhost :
    (nextOf (exec (.read 53) (withDraws [] [0x00200000]))).isSome = true := by decide

theorem witness_NotMappedWithoutMapping :
    Instr.read 255 ≠ .init ∧ released.seq = .idle ∧ released.port ≠ .mapped := by decide

theorem witness_PinOutOfRangeRefused :
    (Instr.decode 54 1 1).pin? = some 54 ∧ ready.seq = .idle ∧ ready.port = .mapped ∧
    ready.cfg.numPins ≤ (54 : Pin).toNat := by decide

theorem witness_SecondInitRefused : released.seq = .idle ∧ released.port ≠ .unmapped := by decide

/-- The three outcomes of the device. -/
theorem witness_InitFollowsDeviceOutcome :
    State.reset.seq = .idle ∧ State.reset.port = .unmapped ∧
    [DeviceOutcome.ok, .resourceUnavailable, .mapFailed].map (fun o =>
        State.nextDevice { State.reset with env := { State.reset.env with device := [o] } }) =
      [.ok, .resourceUnavailable, .mapFailed] := by decide

theorem witness_TeardownReleasesPort :
    ready.seq = .idle ∧ ready.port = .mapped ∧ released.seq = .idle ∧ released.port ≠ .mapped := by
  decide

theorem witness_ReleasedForever :
    released.port = .released ∧ released.seq = .idle ∧
    (nextOf (step { released with host := [0x1] })).isSome = true := by decide

/-- The last pin is Ready: the hypothesis of the statements about one pin command. -/
theorem witness_SetModeWritesOneField : ready.Ready 53 := by decide
theorem witness_GetModeReturnsField : ready.Ready 53 := by decide
theorem witness_SetPullBegins : ready.Ready 53 := by decide
theorem witness_ReadReturnsLevel : ready.Ready 53 ∧ (pin4Output .high).Ready 4 := by decide
theorem witness_WriteMovesOneLatch : ready.Ready 53 := by decide
theorem witness_TriggerPulseBegins : ready.Ready 53 := by decide
theorem witness_ZeroTriggerEndsAtOnce : ready.Ready 53 := by decide
theorem witness_ReadPulseTimeoutZero : ready.Ready 53 := by decide
theorem witness_DecodeOfNoBits : ready.Ready 53 := by decide
theorem witness_DecodeTimeoutZero :
    ready.Ready 53 ∧ (0xFFFF : BitCount) ≠ 0 ∧
    (withDraws [] [0]).nextLevel 4 = .low ∧ (withDraws [] [0x10]).nextLevel 4 ≠ .low := by decide
theorem witness_DecodeBegins : ready.Ready 53 ∧ (1 : BitCount) ≠ 0 := by decide

theorem witness_SetModeIsolatesPins :
    ready.Ready 9 ∧ (nextOf (exec (.setMode 9 .alt3) ready)).isSome = true := by decide

theorem witness_SetModeDrivesPadExactlyInOutput :
    ready.Ready 9 ∧
    (nextOf (exec (.setMode 9 .output) ready)).map (fun t => t.padDrive 9) = some (some .low) ∧
    (nextOf (exec (.setMode 9 .input) ready)).map (fun t => t.padDrive 9) = some none := by decide

/-- The readings 19 and 20 microseconds after the start: the last that waits, the first that ends. -/
theorem witness_SetPullSettles :
    (running (.setPull 4 .up) (.settle 7) 7 [26] []).seq = .busy (.setPull 4 .up) (.settle 7) ∧
    (running (.setPull 4 .up) (.settle 7) 7 [26] []).nextReading - 7 < 20 ∧
    20 ≤ (running (.setPull 4 .up) (.settle 7) 7 [27] []).nextReading - 7 := by decide

theorem witness_SetPullRunsProtocol :
    let s := issuing 0x425 [7, 7, 26, 27] []
    s.cfg.Valid ∧ s.Ready 4 ∧ s.host = [0x425] ∧ decode 0x425 = .ok (.setPull 4 .up) ∧
    s.env.clock = 7 :: [7, 26] ++ 27 :: [] ∧ NeverBack s.clock (7 :: [7, 26] ++ [27]) ∧
    StaysBelow 7 20 [7, 26] ∧ (20 : Clock) ≤ 27 - 7 :=
  ⟨by decide, by decide, rfl, by decide, rfl, by decide, by simp [StaysBelow], by decide⟩

theorem witness_LevelCellFormedAtRead :
    (31 < 32 ∧ 32 * 1 + 21 < ready.cfg.numPins ∧ ¬ 32 * 1 + 22 < ready.cfg.numPins) ∧
    (pin4Output .high).mode (32 * 0 + 4) = .output := by decide

theorem witness_TriggerPulseHolds :
    (running (.triggerPulse 53 .high 100) (.hold 0) 0 [99] []).seq =
      .busy (.triggerPulse 53 .high 100) (.hold 0) ∧
    (53 : Pin).toNat < ready.cfg.numPins ∧
    (running (.triggerPulse 53 .high 100) (.hold 0) 0 [99] []).nextReading - 0 < 100 ∧
    100 ≤ (running (.triggerPulse 53 .high 100) (.hold 0) 0 [100] []).nextReading - 0 := by decide

theorem witness_TriggerPulseRuns :
    let w : CommandWord := 0x000003E800000418
    let s := issuing w [0, 999, 1000] []
    s.cfg.Valid ∧ s.Ready 4 ∧ s.host = [w] ∧ decode w = .ok (.triggerPulse 4 .high 1000) ∧
    s.env.clock = 0 :: [999] ++ 1000 :: [] ∧ NeverBack s.clock (0 :: [999] ++ [1000]) ∧
    StaysBelow 0 1000 [999] ∧ (1000 : Micros).setWidth 64 ≤ (1000 : Clock) - 0 :=
  ⟨by decide, by decide, rfl, by decide, rfl, by decide, by simp [StaysBelow], by decide⟩

theorem witness_ReadSeesDrivenLevel :
    let s := { pin4Output .low with env := (withDraws [0, 0] []).env }
    s.port = .mapped ∧ (4 : Pin).toNat < s.cfg.numPins ∧ s.mode (4 : Pin).toNat = .output ∧
    s.seq = .idle ∧ (nextOf (exec (.write 4 .high) s)).isSome = true ∧
    (nextOf (exec (.triggerPulse 4 .high 0) s)).map State.seq = some .idle := by decide

/-- The three ends of a pass: the level changed, the timeout reached, the level holds. -/
theorem witness_ReadPulseFollowsLoop :
    ready.Ready 4 ∧ polling.seq = .busy (.readPulse 4 .high 100) (.poll 0 60) ∧
    (running (.readPulse 4 .high 100) (.poll 0 60) 60 [] [0]).nextLevel 4 ≠ .high ∧
    polling.nextLevel 4 = .high ∧
    (running (.readPulse 4 .high 100) (.poll 0 60) 60 [100] [0x10]).nextReading - 0 = 100 ∧
    polling.nextReading - 0 = 99 := by decide

theorem witness_ReadPulseWithinTimeout :
    let s := running (.readPulse 4 .high 100) (.poll 0 60) 60 [100] [0x10]
    s.Inv ∧ (nextOf (exec (.readPulse 4 .high 100) s)).map (fun t => t.history.head?) =
      some (some (okResult (.pulse 100 .high true))) := by decide

theorem witness_ReadPulseFirstSampleDiffers :
    let s := withDraws [9] [0]
    s.Ready 4 ∧
    State.nextLevel
      { s with clock := 9, env := s.env.takeClock, history := .clock 9 :: s.history } 4 ≠ .high := by
  decide

/-- One sample that holds, then one that sees the other level; and two that hold, the second at the
timeout. -/
theorem witness_ReadPulseMeasures :
    let w : CommandWord := 0x000000C800000419
    let s := issuing w [5, 204] [0x10, 0]
    let s' := issuing w [5, 204, 205] [0x10, 0x10]
    (s.cfg.Valid ∧ s.Ready 4 ∧ s.mode (4 : Pin).toNat ≠ .output ∧ s.host = [w] ∧
      decode w = .ok (.readPulse 4 .high 200) ∧ StaysBelow 5 200 [204] ∧
      Level.ofBit ((0x10 : Word).getLsbD ((4 : Pin).toNat % 32)) = .high) ∧
    (s.env.pads = [0x10] ++ 0 :: [] ∧ s.env.clock = 5 :: [204] ++ [] ∧
      NeverBack s.clock (5 :: [204]) ∧
      Level.ofBit ((0 : Word).getLsbD ((4 : Pin).toNat % 32)) ≠ .high) ∧
    s'.env.pads = [0x10] ++ 0x10 :: [] ∧ s'.env.clock = 5 :: [204] ++ 205 :: [] ∧
    NeverBack s'.clock (5 :: [204] ++ [205]) ∧ (200 : Micros).setWidth 64 ≤ (205 : Clock) - 5 :=
  ⟨⟨by decide, by decide, by decide, rfl, by decide, by simp [StaysBelow], by decide⟩,
    ⟨rfl, rfl, by decide, by decide⟩, rfl, rfl, by decide, by decide⟩

theorem witness_FairClockEndsReadPulse :
    let w : CommandWord := 0x000000C800000409
    let s := issuing w [5, 204, 205] []
    s.cfg.Valid ∧ s.Ready 4 ∧ s.host = [w] ∧ decode w = .ok (.readPulse 4 .low 200) ∧
    s.env.clock = 5 :: [204, 205] ++ [] ∧ NeverBack s.clock (5 :: [204, 205]) ∧
    ∃ t ∈ ([204, 205] : List Clock), (200 : Micros).setWidth 64 ≤ t - 5 :=
  ⟨by decide, by decide, rfl, by decide, rfl, by decide, 205, by simp, by decide⟩

/-- A pivot that goes on, one that ends at 99, one that reaches the timeout, and a last pulse. -/
theorem witness_DecodeFollowsLoop :
    let at_ := fun half e clock pads => running (.decode 4 9 100) (.bit 8 half 0 e [0xFF, 0]) e clock pads
    (at_ .pivot 50 [99] [0]).seq = .busy (.decode 4 9 100) (.bit 8 .pivot 0 50 [0xFF, 0]) ∧
    (at_ .pivot 50 [99] [0]).nextLevel 4 = .low ∧
    (at_ .pivot 50 [99] [0]).nextReading - 0 < (100 : Micros).setWidth 64 ∧
    (at_ .pivot 99 [] [0x10]).nextLevel 4 ≠ .low ∧
    (100 : Micros).setWidth 64 ≤ (at_ .pivot 50 [100] [0]).nextReading - 0 ∧
    (at_ (.pulse 3) 4 [] [0]).nextLevel 4 ≠ .high ∧ (9 : BitCount).toNat ≤ 8 + 1 := by decide

theorem witness_BufferBitsPackedMsbFirst : 15 < 8 * [(0 : Byte), 0].length := by decide

theorem witness_DecodeOnlyObserves :
    (nextOf (exec (.decode 4 9 100)
      (running (.decode 4 9 100) (.bit 8 .pivot 0 50 [0xFF, 0]) 50 [99] [0]))).isSome = true := by
  decide

/-- One bit, of a pivot of 50 and a pulse of 70 microseconds. -/
theorem witness_DecodeReadsTrain :
    let w : CommandWord := 0x000000640001040A
    let s := issuing w [9, 59, 59, 129] [0, 0x10, 0x10, 0]
    (s.cfg.Valid ∧ s.Ready 4 ∧ s.mode (4 : Pin).toNat ≠ .output ∧ s.host = [w] ∧
      decode w = .ok (.decode 4 (BitVec.ofNat 16 [((50, 70) : BitPair)].length) 100) ∧
      ∀ q ∈ [((50, 70) : BitPair)], q.1 < 100 ∧ q.2 < 100) ∧
    (s.clock ≤ 9 ∧ (9 : Clock).toNat + trainLength [(50, 70)] < 2 ^ 64 ∧
      s.env.clock = trainClocks 9 [(50, 70)] ++ []) ∧
    s.env.pads = [0, 0x10, 0x10, 0] ++ [] ∧
    ([0, 0x10, 0x10, 0] : List Word).map
        (fun v => Level.ofBit (v.getLsbD ((4 : Pin).toNat % 32))) = trainLevels [(50, 70)] :=
  ⟨⟨by decide, by decide, by decide, rfl, by decide, by simp⟩,
    ⟨by decide, by simp [trainLength], by decide⟩, rfl, by decide⟩

/-- `read_pulse(4, High, 200)` whose first reading after the start timestamp reaches the timeout: the run
waits from then on, so its clock is fair. -/
theorem witness_ReadPulseEndsInFairRun :
    let w : CommandWord := 0x000000C800000419
    let s := issuing w [5, 205] [0x10]
    s.cfg.Valid ∧ s.Ready 4 ∧ s.host = [w] ∧ decode w = .ok (.readPulse 4 .high 200) ∧
    s.ClockFair ∧ s.nextReading.toNat + (200 : Micros).toNat < 2 ^ 64 := by
  refine ⟨by decide, by decide, rfl, by decide, ?_, by simp [State.nextReading, issuing, withDraws]; decide⟩
  exact clockFair_of_step rfl (clockFair_of_waits (by decide) rfl rfl)

end Sys2Proof.Tests
end

section
/-! PROOFS. The mode codes (R27). -/

namespace Sys2Proof

/-- With `Mode.ofCode_code`, this makes codes and modes a bijection: no 3-bit value is reserved (R27). -/
@[simp] theorem Mode.code_ofCode (c : BitVec 3) : (Mode.ofCode c).code = c := by
  revert c
  decide

/-- Settles O7: the eight values by evaluation, the totality by the two round trips of code and mode. -/
theorem modeCodesNameEveryMode : Obligations.ModeCodesNameEveryMode :=
  ⟨rfl, rfl, rfl, rfl, rfl, rfl, rfl, rfl, Mode.ofCode_code, Mode.code_ofCode⟩

end Sys2Proof
end

section
/-! PROOFS. Decoding through the fields of a word: a word decodes to a command exactly when it holds the
fields that encode the command, and the rows of the opcode map admit these fields and no others
(R101, R103, R112). -/

namespace Sys2Proof

/-! ### Words and their fields (R101) -/

/-- The six fields cover the word: none of its bits is left out (R101). -/
theorem Fields.toWord_ofWord (w : CommandWord) : (Fields.ofWord w).toWord = w := by
  simp only [Fields.toWord, Fields.ofWord]
  iterate 5 rw [BitVec.extractLsb'_append_extractLsb'_eq_extractLsb' (by rfl)]
  exact BitVec.extractLsb'_eq_self

theorem Fields.ofWord_inj {v w : CommandWord} : Fields.ofWord v = Fields.ofWord w ↔ v = w :=
  (Function.LeftInverse.injective Fields.toWord_ofWord).eq_iff

/-- The pull code of a word is ARG[1:0]. -/
theorem extractLsb'_pullCode (w : CommandWord) :
    w.extractLsb' 4 2 = (Fields.ofWord w).arg.extractLsb' 0 2 := by
  ext i hi
  have hi3 : i < 3 := by omega
  simp [Fields.ofWord, hi3]

/-- A masked comparison of words is a masked comparison of each field. -/
theorem and_eq_iff_fields (w m p : CommandWord) :
    w &&& m = p ↔
      (Fields.ofWord w).op &&& (Fields.ofWord m).op = (Fields.ofWord p).op ∧
      (Fields.ofWord w).arg &&& (Fields.ofWord m).arg = (Fields.ofWord p).arg ∧
      (Fields.ofWord w).rsv &&& (Fields.ofWord m).rsv = (Fields.ofWord p).rsv ∧
      (Fields.ofWord w).pin &&& (Fields.ofWord m).pin = (Fields.ofWord p).pin ∧
      (Fields.ofWord w).count &&& (Fields.ofWord m).count = (Fields.ofWord p).count ∧
      (Fields.ofWord w).usec &&& (Fields.ofWord m).usec = (Fields.ofWord p).usec := by
  rw [← Fields.ofWord_inj]
  simp only [Fields.ofWord, BitVec.extractLsb'_and, Fields.mk.injEq]

/-- A mask of ones keeps the whole field. -/
theorem and_ofNat_ones {n m : Nat} (x : BitVec n) (h : m + 1 = 2 ^ n) : x &&& BitVec.ofNat n m = x := by
  have hm : BitVec.ofNat n m = BitVec.allOnes n := by
    apply BitVec.eq_of_toNat_eq
    rw [BitVec.toNat_ofNat, BitVec.toNat_allOnes, ← h, Nat.mod_eq_of_lt (by omega)]
    omega
  rw [hm, BitVec.and_allOnes]

/-! ### The ARG field of level and pull operands (R108, R112)

The opcode map tests the unused bits of ARG by a mask, the decoder by their slice; the mask is the spelling
used below. -/

theorem extractLsb'_one_two_eq_zero (a : BitVec 3) : a.extractLsb' 1 2 = 0#2 ↔ a &&& 6#3 = 0#3 := by
  revert a
  decide

theorem extractLsb'_two_one_eq_zero (a : BitVec 3) : a.extractLsb' 2 1 = 0#1 ↔ a &&& 4#3 = 0#3 := by
  revert a
  decide

theorem extractLsb'_zero_two_eq_three (a : BitVec 3) : a.extractLsb' 0 2 = 3#2 ↔ a &&& 3#3 = 3#3 := by
  revert a
  decide

theorem Level.arg_and_six (l : Level) : l.arg &&& 6#3 = 0#3 := by
  cases l <;> decide

/-- An ARG field with only bit 0 in use is that of the level the bit names. -/
theorem Level.arg_ofBit {a : BitVec 3} (h : a &&& 6#3 = 0#3) : (Level.ofBit a[0]).arg = a := by
  revert a
  decide

theorem Pull.arg_and_four (m : Pull) : m.arg &&& 4#3 = 0#3 := by
  cases m <;> decide

theorem Pull.ofCode_arg (m : Pull) : Pull.ofCode (m.arg.extractLsb' 0 2) = some m := by
  cases m <;> rfl

theorem Pull.ofCode_eq_none (c : BitVec 2) : Pull.ofCode c = none ↔ c = 3#2 := by
  revert c
  decide

/-- No pull mode has code 3 (R112). -/
theorem Pull.extractLsb'_arg_ne_three (m : Pull) : m.arg.extractLsb' 0 2 ≠ 3#2 := by
  rw [Ne, ← Pull.ofCode_eq_none, Pull.ofCode_arg]
  exact Option.some_ne_none m

/-- An ARG field with ARG[2] = 0 is that of the pull mode its code names. -/
theorem Pull.arg_of_ofCode {a : BitVec 3} {m : Pull} (hm : Pull.ofCode (a.extractLsb' 0 2) = some m)
    (h : a &&& 4#3 = 0#3) : m.arg = a := by
  revert a
  cases m <;> decide

/-! ### What decoding answers (R103) -/

theorem accept_eq_ok (c : Bool) (i j : Instr) : accept c i = .ok j ↔ c = true ∧ i = j := by
  cases c <;> simp [accept]

theorem opcode_eq {op : BitVec 4} {k : Nat} (h : op.toNat = k) : op = BitVec.ofNat 4 k := by
  rw [← h, BitVec.ofNat_toNat, BitVec.setWidth_eq]

/-- The decoder answers each command on the fields that encode it. -/
theorem Instr.decode_fields (i : Instr) : i.fields.decode = .ok i := by
  cases i with
  | setPull p m =>
    simp [Instr.fields, Fields.decode, accept, Pull.ofCode_arg, extractLsb'_two_one_eq_zero,
      Pull.arg_and_four]
  | write p l | triggerPulse p l d | readPulse p l t =>
    have hbit : Level.ofBit l.arg[0] = l := by cases l <;> rfl
    simp [Instr.fields, Fields.decode, accept, extractLsb'_one_two_eq_zero, Level.arg_and_six, hbit]
  | _ => simp [Instr.fields, Fields.decode, accept]

/-- The decoder answers a command only on the fields that encode it. -/
theorem Fields.eq_fields_of_decode {f : Fields} {i : Instr} (h : f.decode = .ok i) : f = i.fields := by
  obtain ⟨op, arg, rsv, pin, count, usec⟩ := f
  simp only [Fields.decode] at h
  split at h
  case isTrue => cases h
  case isFalse hrsv =>
    obtain rfl := not_ne_iff.1 hrsv
    split at h
    case h_1 _ hop | h_2 _ hop | h_3 _ hop | h_4 _ hop | h_6 _ hop | h_10 _ hop =>
      obtain ⟨hclear, rfl⟩ := (accept_eq_ok _ _ _).1 h
      simp_all [opcode_eq hop, Instr.fields]
    case h_5 _ hop =>
      split at h
      · cases h
      · next m hm =>
        obtain ⟨hclear, rfl⟩ := (accept_eq_ok _ _ _).1 h
        simp_all [opcode_eq hop, Instr.fields, extractLsb'_two_one_eq_zero, Pull.arg_of_ofCode hm]
    case h_7 _ hop | h_8 _ hop | h_9 _ hop =>
      obtain ⟨hclear, rfl⟩ := (accept_eq_ok _ _ _).1 h
      simp_all [opcode_eq hop, Instr.fields, extractLsb'_one_two_eq_zero, Level.arg_ofBit]
    case h_11 => cases h

/-- A word decodes to a command exactly when it holds the command's fields. -/
theorem decode_eq_ok_iff (w : CommandWord) (i : Instr) :
    decode w = .ok i ↔ Fields.ofWord w = i.fields :=
  ⟨Fields.eq_fields_of_decode, fun h => by rw [decode, h, Instr.decode_fields]⟩

/-! ### The rows of the opcode map (R103) -/

/-- The row's masked comparison and extra condition, field by field. -/
def OpcodeRow.Admits (r : OpcodeRow) (f : Fields) : Prop :=
  (f.op &&& (Fields.ofWord r.mask).op = (Fields.ofWord r.pattern).op ∧
    f.arg &&& (Fields.ofWord r.mask).arg = (Fields.ofWord r.pattern).arg ∧
    f.rsv &&& (Fields.ofWord r.mask).rsv = (Fields.ofWord r.pattern).rsv ∧
    f.pin &&& (Fields.ofWord r.mask).pin = (Fields.ofWord r.pattern).pin ∧
    f.count &&& (Fields.ofWord r.mask).count = (Fields.ofWord r.pattern).count ∧
    f.usec &&& (Fields.ofWord r.mask).usec = (Fields.ofWord r.pattern).usec) ∧
  (r.pullRow = true → f.arg.extractLsb' 0 2 ≠ 3)

/-- A row admits the fields of a word exactly when the word meets the condition of R103. -/
theorem OpcodeRow.admits_ofWord (r : OpcodeRow) (w : CommandWord) :
    r.Admits (Fields.ofWord w) ↔
      w &&& r.mask = r.pattern ∧ (r.pullRow = true → w.extractLsb' 4 2 ≠ 3) := by
  rw [OpcodeRow.Admits, and_eq_iff_fields, extractLsb'_pullCode]

/-- The model's test of a row, which reads the extra condition by a mask of its own. -/
theorem OpcodeRow.covers_iff_admits (r : OpcodeRow) (w : CommandWord) :
    r.covers w = true ↔ r.Admits (Fields.ofWord w) := by
  have hpull : w &&& 0x30#64 = 0x30#64 ↔ w.extractLsb' 4 2 = 3#2 := by
    rw [and_eq_iff_fields, extractLsb'_pullCode, extractLsb'_zero_two_eq_three]
    simp [Fields.ofWord]
  rw [OpcodeRow.admits_ofWord]
  simp [OpcodeRow.covers, hpull, imp_iff_not_or]

/-- Every command has a row of its mnemonic that admits it. -/
theorem Instr.exists_row_admits_fields (i : Instr) :
    ∃ r ∈ opcodeRows, r.Admits i.fields ∧ r.mnemonic = i.mnemonic := by
  cases i with
  | setPull p m =>
    simpa [opcodeRows, Instr.mnemonic, OpcodeRow.Admits, Instr.fields, Fields.ofWord] using
      And.intro m.arg_and_four m.extractLsb'_arg_ne_three
  | write p l | triggerPulse p l d | readPulse p l t =>
    simpa [opcodeRows, Instr.mnemonic, OpcodeRow.Admits, Instr.fields, Fields.ofWord] using l.arg_and_six
  | _ => simp [opcodeRows, Instr.mnemonic, OpcodeRow.Admits, Instr.fields, Fields.ofWord]

/-- What a row admits is a command: the mask covers the opcode, RSV and every field that the row's command
does not use. -/
theorem OpcodeRow.exists_fields_of_admits {r : OpcodeRow} (hr : r ∈ opcodeRows) {f : Fields}
    (h : r.Admits f) : ∃ i : Instr, f = i.fields := by
  obtain ⟨op, arg, rsv, pin, count, usec⟩ := f
  fin_cases hr <;> simp [OpcodeRow.Admits, Fields.ofWord, and_ofNat_ones] at h
  · exact ⟨.init, by simp [Instr.fields, h]⟩
  · exact ⟨.teardown, by simp [Instr.fields, h]⟩
  · exact ⟨.setMode pin (Mode.ofCode arg), by simp [Instr.fields, h]⟩
  · exact ⟨.getMode pin, by simp [Instr.fields, h]⟩
  · obtain ⟨hfields, hcode⟩ := h
    obtain ⟨m, hm⟩ := Option.ne_none_iff_exists'.1 (mt (Pull.ofCode_eq_none _).1 hcode)
    exact ⟨.setPull pin m, by simp [Instr.fields, hfields, Pull.arg_of_ofCode hm]⟩
  · exact ⟨.read pin, by simp [Instr.fields, h]⟩
  · exact ⟨.write pin (Level.ofBit arg[0]), by simp [Instr.fields, h, Level.arg_ofBit]⟩
  · exact ⟨.triggerPulse pin (Level.ofBit arg[0]) usec, by simp [Instr.fields, h, Level.arg_ofBit]⟩
  · exact ⟨.readPulse pin (Level.ofBit arg[0]) usec, by simp [Instr.fields, h, Level.arg_ofBit]⟩
  · exact ⟨.decode pin count usec, by simp [Instr.fields, h]⟩

/-- Settles O4: a command's fields are admitted by a row of its mnemonic, and what a row admits is a
command's fields. -/
theorem commandIffTableRow : Obligations.CommandIffTableRow := by
  intro w
  simp only [← OpcodeRow.admits_ofWord, OpcodeRow.covers_iff_admits, decode_eq_ok_iff]
  refine ⟨⟨?_, ?_⟩, ?_⟩
  · rintro ⟨i, hi⟩
    obtain ⟨r, hr, hadmits, -⟩ := i.exists_row_admits_fields
    exact ⟨r, hr, hi ▸ hadmits⟩
  · rintro ⟨r, hr, hadmits⟩
    exact OpcodeRow.exists_fields_of_admits hr hadmits
  · intro i hi
    exact hi ▸ i.exists_row_admits_fields

/-! ### SET_PULL (R112) -/

/-- OP 5 is SET_PULL alone, so its ARG is a pull operand's (R103). -/
theorem Instr.exists_pull_of_op {i : Instr} (h : i.fields.op = 5) : ∃ m : Pull, i.fields.arg = m.arg := by
  cases i with
  | setPull p m => exact ⟨m, rfl⟩
  | _ => simp [Instr.fields] at h

/-- Settles O8: a command with OP 5 has the ARG of a pull mode, which has neither code 3 nor bit 2 set. -/
theorem pullCodeThreeIsNoCommand : Obligations.PullCodeThreeIsNoCommand := by
  intro w hop harg i hi
  have hfields : Fields.ofWord w = i.fields := (decode_eq_ok_iff w i).1 hi
  obtain ⟨m, hm⟩ : ∃ m : Pull, (Fields.ofWord w).arg = m.arg := by
    rw [hfields]
    exact Instr.exists_pull_of_op (hfields ▸ hop)
  rcases harg with hcode | hbit
  · rw [extractLsb'_pullCode, hm] at hcode
    exact m.extractLsb'_arg_ne_three hcode
  · have hbit : m.arg.getLsbD 2 = true := by
      rw [← hm]
      simpa [Fields.ofWord] using hbit
    cases m <;> cases hbit

end Sys2Proof
end

section
/-! PROOFS. SET_MODE (R160 to R162). -/

namespace Sys2Proof.Machine

variable {s : State} {p : Pin}

/-- SET_MODE's complete next state: three events, and no field changed but the cells (R160, R162). The
sequencer stays Idle because the command begins and ends in one step (R22). -/
theorem setModeBody_eq (hidle : s.seq = .idle) (m : Mode) :
    let c := CellName.fsel (fselCell p.toNat)
    let new := withModeField (s.cell c) (fselShift p.toNat) m.code
    setModeBody p m s =
      { s with
        cells := Cells.write s.cells (c.index s.cfg) new,
        history :=
          .result ⟨.ok, .none⟩ :: .write (c.index s.cfg) new :: .read (c.index s.cfg) (s.cell c) ::
            s.history } := by
  cases s
  cases hidle
  rfl

/-- On a ready pin SET_MODE passes its checks and runs (R310). -/
theorem exec_setMode_of_ready (h : s.Ready p) (m : Mode) :
    exec (.setMode p m) s = .next (setModeBody p m s) := by
  obtain ⟨hidle, hport, hpin⟩ := h
  rw [exec, execSetMode, runAtOnce, runPhase_idle hidle, s.checked_ok hport hpin]

/-- The bits of a function-select cell outside a pin's field keep their values when the field is written
(R161). -/
theorem getLsbD_withModeField_fselShift (old : Word) (q : Nat) (code : BitVec 3) {j : Nat}
    (hj : ∀ k < 3, j ≠ fselShift q + k) :
    (withModeField old (fselShift q) code).getLsbD j = old.getLsbD j := by
  refine getLsbD_withModeField old (q % 10) code (Nat.mod_lt q (by decide)) j ?_
  change j < fselShift q ∨ fselShift q + 3 ≤ j
  by_contra hin
  exact hj (j - fselShift q) (by omega) (by omega)

/-- Settles O31: the next state is known in full, so what is left is the cell store's law of a read after
a write, and that the field's write keeps the other bits of the word. -/
theorem setModeWritesOneField : Obligations.SetModeWritesOneField := by
  intro s p m h i sh old new
  have hnext : exec (.setMode p m) s =
      .next { s with
        cells := Cells.write s.cells i new,
        history := .result ⟨.ok, .none⟩ :: .write i new :: .read i old :: s.history } :=
    (exec_setMode_of_ready h m).trans (congrArg _ (setModeBody_eq h.1 m))
  refine ⟨_, hnext, rfl, ?_, ?_, ?_⟩
  · exact Cells.read_write_same s.cells i new
  · intro j hj
    exact getLsbD_withModeField_fselShift old p.toNat m.code hj
  · intro j hj
    exact Cells.read_write_other s.cells new hj

end Sys2Proof.Machine
end

section
/-! PROOFS. DECODE (R240 to R249). -/

namespace Sys2Proof.Machine

variable {s : State} {p : Pin}

/-- A command that succeeds in the step it began in changes nothing but the history: the sequencer was
Idle and is Idle again (R22). -/
theorem State.succeed_of_idle (hidle : s.seq = .idle) (x : Payload) :
    s.succeed x = { s with history := .result ⟨.ok, x⟩ :: s.history } := by
  cases s
  cases hidle
  rfl

/-- On a ready pin DECODE passes its checks and runs (R310). -/
theorem exec_decode_of_ready (h : s.Ready p) (n : BitCount) (timeout : Micros) :
    exec (.decode p n timeout) s = .next (decodeBody p n timeout s) := by
  obtain ⟨hidle, hport, hpin⟩ := h
  rw [exec, execDecode, runPhase_idle hidle, s.checked_ok hport hpin]

/-- Settles O53: on a ready pin DECODE runs, with no bits it succeeds at once (R245), and success from
Idle adds its result only. -/
theorem decodeOfNoBits : Obligations.DecodeOfNoBits := by
  intro s p timeout h
  rw [exec_decode_of_ready h, decodeBody_zero, State.succeed_of_idle h.1]

end Sys2Proof.Machine
end

section
/-! PROOFS. Round trips of the command word, its serialization and its rows (R75, R100 to R104), and the
words that are no command (R115). -/

namespace Sys2Proof

/-! ### The two directions of the word's round trip (R101 to R104) -/

/-- Settles O2: a command word holds the command's fields, and these decode to the command. -/
theorem decodeOfEncode : Obligations.DecodeOfEncode := fun i =>
  (decode_eq_ok_iff (encode i) i).2 (Fields.ofWord_toWord i.fields)

/-- Settles O3: a word that decodes holds the fields of its command, and a word is laid out from the
fields that it holds. -/
theorem encodeOfDecode : Obligations.EncodeOfDecode := by
  intro w i h
  have hfields : Fields.ofWord w = i.fields := (decode_eq_ok_iff w i).1 h
  rw [encode, ← hfields, Fields.toWord_ofWord]

/-- Settles O1: each word is the one that its command encodes to. -/
theorem specWordsDecode : Obligations.SpecWordsDecode :=
  ⟨decodeOfEncode .init, decodeOfEncode .teardown, decodeOfEncode (.setMode 17 .output),
    decodeOfEncode (.setMode 53 .alt5), decodeOfEncode (.getMode 17), decodeOfEncode (.setPull 4 .up),
    decodeOfEncode (.read 35), decodeOfEncode (.write 35 .high),
    decodeOfEncode (.triggerPulse 4 .high 1000), decodeOfEncode (.readPulse 4 .low 200),
    decodeOfEncode (.decode 4 8 100)⟩

/-! ### One row a word (R104) -/

/-- Every mask covers the opcode, so a covered word has the opcode of the row's pattern. -/
theorem OpcodeRow.op_of_covers {r : OpcodeRow} (hr : r ∈ opcodeRows) {w : CommandWord}
    (h : r.covers w = true) : (Fields.ofWord w).op = (Fields.ofWord r.pattern).op := by
  have hmask : ∀ r ∈ opcodeRows, (Fields.ofWord r.mask).op = BitVec.allOnes 4 := by decide
  obtain ⟨⟨hop, -⟩, -⟩ := (r.covers_iff_admits w).1 h
  rwa [hmask r hr, BitVec.and_allOnes] at hop

/-- No opcode stands in two rows. -/
theorem opcodeRows_op_injective :
    ∀ r ∈ opcodeRows, ∀ r' ∈ opcodeRows,
      (Fields.ofWord r.pattern).op = (Fields.ofWord r'.pattern).op → r = r' := by
  decide

/-- Settles O5: the opcode of a covered word tells its row. -/
theorem opcodeRowsDisjoint : Obligations.OpcodeRowsDisjoint := by
  intro w r hr r' hr' h h'
  exact opcodeRows_op_injective r hr r' hr'
    ((OpcodeRow.op_of_covers hr h).symm.trans (OpcodeRow.op_of_covers hr' h'))

/-! ### Serialized command words (R75, R100) -/

/-- The eight bytes of a word, put together again, are the word. -/
theorem wordOfBytes_bytesOfWord (w : CommandWord) :
    wordOfBytes (w.extractLsb' 0 8) (w.extractLsb' 8 8) (w.extractLsb' 16 8) (w.extractLsb' 24 8)
      (w.extractLsb' 32 8) (w.extractLsb' 40 8) (w.extractLsb' 48 8) (w.extractLsb' 56 8) = w := by
  rw [wordOfBytes]
  iterate 7 rw [BitVec.extractLsb'_append_extractLsb'_eq_extractLsb' (by rfl)]
  exact BitVec.extractLsb'_eq_self

/-- Byte k of a serialized word is its slice at bit 8k (R75). -/
theorem getElem?_bytesOfWord (w : CommandWord) {k : Nat} (hk : k < 8) :
    (bytesOfWord w)[k]? = some (w.extractLsb' (8 * k) 8) := by
  interval_cases k <;> rfl

/-- Settles O6: the bytes put together are the word, which decodes to its command, and a byte is a slice
of the word. -/
theorem serializedCommandReadsBack : Obligations.SerializedCommandReadsBack := by
  intro i rest
  refine ⟨?_, rfl, fun k hk j hj => ?_⟩
  · simp only [encodeBytes, bytesOfWord, List.cons_append, List.nil_append, decodeBytes,
      wordOfBytes_bytesOfWord, decodeOfEncode i]
  · simp [encodeBytes, getElem?_bytesOfWord _ hk, hj]

/-! ### Words that are no command (R115) -/

/-- Every opcode of a command lies between 1 and 0xA (R103). -/
theorem Instr.op_fields_range (i : Instr) : i.fields.op ≠ 0 ∧ i.fields.op.toNat < 0xB := by
  cases i <;> exact ⟨by simp [Instr.fields], by simp [Instr.fields]⟩

/-- No command sets the reserved bit (R103). -/
theorem Instr.rsv_fields (i : Instr) : i.fields.rsv = 0 := by cases i <;> rfl

/-- A word that breaks the opcode, the reserved bit or every row of the map is no command (R115). -/
theorem decode_ne_ok_of_illegal {w : CommandWord}
    (h : w.extractLsb' 0 4 = 0 ∨ 0xB ≤ (w.extractLsb' 0 4).toNat ∨ w.getLsbD 7 = true ∨
      ∀ r ∈ opcodeRows, w &&& r.mask = r.pattern → r.pullRow = true ∧ w.extractLsb' 4 2 = 3)
    (i : Instr) : decode w ≠ .ok i := by
  intro hi
  have hfields : Fields.ofWord w = i.fields := (decode_eq_ok_iff w i).1 hi
  have hop : w.extractLsb' 0 4 = i.fields.op := congrArg Fields.op hfields
  obtain ⟨hne, hlt⟩ := i.op_fields_range
  rcases h with h | h | h | h
  · exact hne (hop ▸ h)
  · rw [hop] at h
    omega
  · have hrsv : w.extractLsb' 7 1 = 0 := (congrArg Fields.rsv hfields).trans i.rsv_fields
    have hbit : (w.extractLsb' 7 1).getLsbD 0 = true := by simpa using h
    rw [hrsv] at hbit
    exact absurd hbit (by decide)
  · obtain ⟨r, hr, hmatch, hpull⟩ := (commandIffTableRow w).1.1 ⟨i, hi⟩
    obtain ⟨hrow, hcode⟩ := h r hr hmatch
    exact hpull hrow hcode

namespace Machine

/-- Settles O9: such a word decodes to an error, and a rejected word leaves its issue and its result. -/
theorem illegalWordsChangeNothing : Obligations.IllegalWordsChangeNothing := by
  intro s w ws hv hidle hhost hillegal
  cases hd : decode w with
  | ok i => exact absurd hd (decode_ne_ok_of_illegal hillegal i)
  | error e =>
    rw [step_rejects hv hidle hhost hd]
    cases s
    cases hidle
    rfl

end Machine

end Sys2Proof
end

section
/-! PROOFS. The assembler's line form (R117, R118): each piece of a line reads back as what it was written
from. -/

namespace Sys2Proof.Assembler

/-! ### Decimal numerals -/

theorem digitValue_ofNat {d : Nat} (h : d < 10) : digitValue (Char.ofNat (48 + d)) = d := by
  interval_cases d <;> decide

theorem isDigit_ofNat {d : Nat} (h : d < 10) : (Char.ofNat (48 + d)).isDigit = true := by
  interval_cases d <;> decide

theorem digits_append (base n : Nat) (xs ys : List Char) :
    digits base n (xs ++ ys) = (digits base n xs).bind fun m => digits base m ys := by
  induction xs generalizing n with
  | nil => rfl
  | cons c cs ih =>
    simp only [List.cons_append, digits]
    split_ifs
    · exact ih _
    · rfl

/-- The decimal digits of a number name it. -/
theorem digits_decimal {fuel n : Nat} (h : n < 10 ^ fuel) : digits 10 0 (decimal fuel n) = some n := by
  induction fuel generalizing n with
  | zero =>
    obtain rfl : n = 0 := by simpa using h
    rfl
  | succ fuel ih =>
    simp only [decimal]
    split_ifs with hn
    · simp [digits, digitValue_ofNat hn, hn]
    · have hmod : n % 10 < 10 := Nat.mod_lt n (by decide)
      rw [digits_append, ih (by omega)]
      simp [digits, digitValue_ofNat hmod, hmod, Nat.div_add_mod]

theorem isDigit_of_mem_decimal {fuel n : Nat} {c : Char} (h : c ∈ decimal fuel n) :
    c.isDigit = true := by
  induction fuel generalizing n with
  | zero => simp [decimal] at h
  | succ fuel ih =>
    simp only [decimal] at h
    split_ifs at h with hn
    · rw [List.mem_singleton.1 h]
      exact isDigit_ofNat hn
    · rcases List.mem_append.1 h with h | h
      · exact ih h
      · rw [List.mem_singleton.1 h]
        exact isDigit_ofNat (Nat.mod_lt n (by decide))

theorem decimal_ne_nil (fuel n : Nat) : decimal (fuel + 1) n ≠ [] := by
  simp only [decimal]
  split_ifs <;> simp

/-- Digits alone are a decimal numeral: no `0x` stands before them (R117). -/
theorem numeral_of_isDigit {cs : List Char} (hne : cs ≠ []) (h : ∀ c ∈ cs, c.isDigit = true) :
    numeral cs = digits 10 0 cs := by
  unfold numeral
  split
  · exact absurd rfl hne
  · next c cs => exact absurd (h 'x' (by simp)) (by decide)
  · rfl

/-- A field's numeral reads back as the field (R101, R102). -/
theorem field_showField {w : Nat} (hw : w ≤ 32) (v : BitVec w) : field w (showField v) = some v := by
  have hlt : v.toNat < 2 ^ w := v.isLt
  have hpow : 2 ^ w ≤ 2 ^ 32 := Nat.pow_le_pow_right (by decide) hw
  have hnum : numeral (showField v) = some v.toNat := by
    rw [showField, numeral_of_isDigit (decimal_ne_nil 9 _) fun c => isDigit_of_mem_decimal]
    exact digits_decimal (by omega)
  simp [field, hnum, hlt]

/-! ### Spelled operands (R117) -/

theorem modeOf_modeName (m : Mode) : modeOf (modeName m).toList = some m := by cases m <;> decide

theorem pullOf_pullName (m : Pull) : pullOf (pullName m).toList = some m := by cases m <;> decide

theorem levelOf_levelName (l : Level) : levelOf (levelName l).toList = some l := by cases l <;> decide

/-! ### Splitting a call's operands -/

/-- An operand that the line's separators cannot cut: not empty, of letters and digits. -/
def Plain (cs : List Char) : Prop := cs ≠ [] ∧ cs.all Char.isAlphanum = true

theorem plain_showField {w : Nat} (v : BitVec w) : Plain (showField v) :=
  ⟨decimal_ne_nil 9 _,
    List.all_eq_true.2 fun c h => by simp [Char.isAlphanum, isDigit_of_mem_decimal h]⟩

theorem plain_modeName (m : Mode) : Plain (modeName m).toList := by
  cases m <;> exact ⟨by decide, by decide⟩

theorem plain_pullName (m : Pull) : Plain (pullName m).toList := by
  cases m <;> exact ⟨by decide, by decide⟩

theorem plain_levelName (l : Level) : Plain (levelName l).toList := by
  cases l <;> exact ⟨by decide, by decide⟩

/-- Every operand of a command's line is plain. -/
theorem plain_of_mem_parts {i : Instr} {cs : List Char} (h : cs ∈ (parts i).2) : Plain cs := by
  cases i <;> simp only [parts, List.mem_cons, List.not_mem_nil, or_false] at h <;>
    rcases h with rfl | rfl | rfl <;>
    simp only [plain_showField, plain_modeName, plain_pullName, plain_levelName]

theorem Plain.ne_comma {cs : List Char} (h : Plain cs) : ∀ c ∈ cs, c ≠ ',' := by
  rintro c hc rfl
  exact absurd (List.all_eq_true.1 h.2 ',' hc) (by decide)

/-- No space is dropped from the front of a plain operand. -/
theorem Plain.dropWhile_space {cs : List Char} (h : Plain cs) : cs.dropWhile (· == ' ') = cs := by
  obtain ⟨hne, hall⟩ := h
  cases cs with
  | nil => rfl
  | cons c cs =>
    refine List.dropWhile_cons_of_neg ?_
    intro hc
    rw [beq_iff_eq.1 hc] at hall
    exact absurd (List.all_eq_true.1 hall ' ' List.mem_cons_self) (by decide)

theorem splitCommas_of_ne_comma {cs : List Char} (h : ∀ c ∈ cs, c ≠ ',') : splitCommas cs = [cs] := by
  induction cs with
  | nil => rfl
  | cons c cs ih =>
    obtain ⟨hc, hcs⟩ := List.forall_mem_cons.1 h
    simp [splitCommas, hc, ih hcs]

theorem splitCommas_append_comma {cs : List Char} (h : ∀ c ∈ cs, c ≠ ',') (rest : List Char) :
    splitCommas (cs ++ ',' :: rest) = cs :: splitCommas rest := by
  induction cs with
  | nil => simp [splitCommas]
  | cons c cs ih =>
    obtain ⟨hc, hcs⟩ := List.forall_mem_cons.1 h
    simp [splitCommas, hc, ih hcs]

/-- A space before the operands goes to the first of them. -/
theorem splitCommas_space (cs : List Char) :
    ∃ f fs, splitCommas cs = f :: fs ∧ splitCommas (' ' :: cs) = (' ' :: f) :: fs := by
  cases h : splitCommas cs with
  | nil =>
    exfalso
    cases cs with
    | nil => simp [splitCommas] at h
    | cons c cs =>
      simp only [splitCommas] at h
      split_ifs at h
      split at h <;> simp at h
  | cons f fs => exact ⟨f, fs, rfl, by simp [splitCommas, h]⟩

/-- Plain operands that are joined by commas are split into themselves. -/
theorem split_joinOperands {a : List Char} {ops : List (List Char)}
    (h : ∀ cs ∈ a :: ops, Plain cs) :
    (splitCommas (joinOperands (a :: ops))).map (List.dropWhile (· == ' ')) = a :: ops := by
  induction ops generalizing a with
  | nil =>
    have ha : Plain a := h a List.mem_cons_self
    simp [joinOperands, splitCommas_of_ne_comma ha.ne_comma, ha.dropWhile_space]
  | cons b ops ih =>
    obtain ⟨ha, hrest⟩ := List.forall_mem_cons.1 h
    obtain ⟨f, fs, hsplit, hspace⟩ := splitCommas_space (joinOperands (b :: ops))
    have ih := ih hrest
    rw [hsplit, List.map_cons] at ih
    rw [joinOperands, splitCommas_append_comma ha.ne_comma, hspace, List.map_cons, List.map_cons,
      ha.dropWhile_space, List.dropWhile_cons_of_pos (by decide), ih]

theorem operands_joinOperands {ops : List (List Char)} (h : ∀ cs ∈ ops, Plain cs) :
    operands (joinOperands ops) = ops := by
  cases ops with
  | nil => rfl
  | cons a ops =>
    have hne : joinOperands (a :: ops) ≠ [] := by
      have ha : a ≠ [] := (h a List.mem_cons_self).1
      cases ops <;> simp [joinOperands, ha]
    rw [operands, if_neg hne]
    exact split_joinOperands h

/-! ### Lines -/

/-- A name without parenthesis, then the operands in parentheses, is the call of that name. -/
theorem assembleChars_call {name : List Char} (h : name.all (· != '(') = true) (ops : List Char) :
    assembleChars (name ++ '(' :: ops ++ [')']) = call (String.ofList name) (operands ops) := by
  have hline : name ++ '(' :: ops ++ [')'] = name ++ '(' :: (ops ++ [')']) := by simp
  have h := List.all_eq_true.1 h
  rw [hline, assembleChars, List.takeWhile_append_of_pos h, List.dropWhile_append_of_pos h,
    List.dropWhile_cons_of_neg (by decide), List.takeWhile_cons_of_neg (by decide)]
  simp

/-- The call with a command's name and operands is the command. -/
theorem call_parts (i : Instr) : call (parts i).1 (parts i).2 = some i := by
  cases i <;>
    simp [parts, call, field_showField, modeOf_modeName, pullOf_pullName, levelOf_levelName]

theorem all_ne_paren_name_parts (i : Instr) : (parts i).1.toList.all (· != '(') = true := by
  cases i <;> simp only [parts] <;> decide

/-- Settles O10: the line splits into the name and the operands it was written from, and their call is
the command. -/
theorem assembleOfRender : Obligations.AssembleOfRender := by
  intro i
  rw [assemble, render, String.toList_ofList, assembleChars_call (all_ne_paren_name_parts i),
    operands_joinOperands fun _ => plain_of_mem_parts, String.ofList_toList, call_parts]

end Sys2Proof.Assembler
end

section
/-! PROOFS. The parameters and the address map (R7, R8, R25, R38): six runs of cells that share no index. -/

namespace Sys2Proof

/-! ### Runs of cells -/

/-- The indices of the cells of a run. -/
def Span.indices (a : Span) : List Nat := (List.range a.cells).map (a.base + ·)

theorem Span.mem_indices {a : Span} {i : Nat} :
    i ∈ a.indices ↔ a.base ≤ i ∧ i < a.base + a.cells := by
  simp only [Span.indices, List.mem_map, List.mem_range]
  constructor
  · rintro ⟨k, hk, rfl⟩
    omega
  · intro h
    exact ⟨i - a.base, by omega, by omega⟩

theorem Span.nodup_indices (a : Span) : a.indices.Nodup :=
  List.nodup_range.map fun _ _ h => Nat.add_left_cancel h

/-- Runs that are not empty are apart exactly when they share no index. -/
theorem Span.disjoint_indices {a b : Span} (ha : 0 < a.cells) (hb : 0 < b.cells) :
    a.indices.Disjoint b.indices ↔ a.Apart b := by
  simp only [List.Disjoint, Span.mem_indices, Span.Apart]
  constructor
  · intro h
    by_contra hover
    exact @h (max a.base b.base) (by omega) (by omega)
  · intro h i hi hi'
    omega

theorem Span.forall_indices_lt {a : Span} (ha : 0 < a.cells) (n : Nat) :
    (∀ i ∈ a.indices, i < n) ↔ a.base + a.cells ≤ n := by
  simp only [Span.mem_indices]
  constructor
  · intro h
    have := h (a.base + a.cells - 1) (by omega)
    omega
  · intro h i hi
    omega

/-- No class of cells is empty (R25). -/
theorem Config.cells_pos_of_mem_spans {c : Config} {a : Span} (h : a ∈ c.spans) : 0 < a.cells := by
  simp only [Config.spans, List.mem_cons, List.not_mem_nil, or_false] at h
  rcases h with rfl | rfl | rfl | rfl | rfl | rfl <;> simp [Config.fselCells, Config.banks]

namespace Machine

/-- The named cells lie in the six runs, in the order of the runs (R25). -/
theorem map_index_namedCells (c : Config) :
    (namedCells c).map (CellName.index c) = c.spans.flatMap Span.indices := by
  simp [namedCells, Config.spans, Span.indices, Function.comp_def, CellName.index]

/-- The constraints of R8, said of the named cells one by one. -/
theorem valid_iff_namedCells (c : Config) :
    c.Valid ↔
      1 ≤ c.numPins ∧ c.numPins ≤ 256 ∧ 180 ≤ c.blockWords ∧
        (∀ n ∈ namedCells c, n.index c < c.blockWords) ∧
        ((namedCells c).map (CellName.index c)).Nodup := by
  have hbound : (∀ n ∈ namedCells c, n.index c < c.blockWords) ↔
      ∀ a ∈ c.spans, a.base + a.cells ≤ c.blockWords := by
    rw [← List.forall_mem_map (P := (· < c.blockWords)), map_index_namedCells]
    simp only [List.mem_flatMap, forall_exists_index, and_imp]
    rw [forall_comm]
    refine forall_congr' fun a => ?_
    rw [forall_comm]
    exact forall_congr' fun ha => Span.forall_indices_lt (Config.cells_pos_of_mem_spans ha) _
  have hnodup : ((namedCells c).map (CellName.index c)).Nodup ↔ c.spans.Pairwise Span.Apart := by
    rw [map_index_namedCells, List.nodup_flatMap]
    simp only [Span.nodup_indices, implies_true, true_and]
    exact List.Pairwise.iff_of_mem fun ha hb =>
      Span.disjoint_indices (Config.cells_pos_of_mem_spans ha) (Config.cells_pos_of_mem_spans hb)
  rw [hbound, hnodup, Config.Valid]
  tauto

/-- A step refuses the parameters exactly when they are not valid: no command does (R8). -/
theorem step_eq_badConfig_iff (s : State) : step s = .refused .badConfig ↔ ¬ s.cfg.Valid := by
  have hexec : ∀ i u, exec i u ≠ .refused .badConfig := by
    intro i u
    obtain ⟨start, resume, he⟩ := exec_runs i u
    rw [he]
    exact runPhase_ne_badConfig
  refine ⟨fun h hv => ?_, step_badConfig⟩
  cases hs : s.seq with
  | busy cmd ph => exact hexec cmd s (step_busy hv hs ▸ h)
  | idle =>
    cases hh : s.host with
    | nil => simp [step_waits hv hs hh] at h
    | cons w ws =>
      cases hd : decode w with
      | error e => simp [step_rejects hv hs hh hd] at h
      | ok i => exact hexec i _ (step_issues hv hs hh hd ▸ h)

/-- Settles O13: only a step's own check refuses the parameters, and that check says the constraints run
by run. -/
theorem configRefusedExactlyWhenInvalid : Obligations.ConfigRefusedExactlyWhenInvalid := by
  intro s
  rw [step_eq_badConfig_iff, valid_iff_namedCells]

/-! ### The address map (R25, R38) -/

theorem offsetIn_eq_some {base cells i j : Nat} :
    offsetIn base cells i = some j ↔ j < cells ∧ base + j = i := by
  unfold offsetIn
  split_ifs <;> simp <;> omega

/-- What the address map finds is a named cell, at the index asked for. -/
theorem CellName.of_at {c : Config} {i : Nat} {n : CellName} (h : CellName.at c i = some n) :
    n.exists c = true ∧ n.index c = i := by
  simp only [CellName.at, Option.or_eq_some_iff, Option.map_eq_some_iff, offsetIn_eq_some] at h
  rcases h with ⟨k, ⟨hk, hi⟩, rfl⟩ | ⟨-, ⟨k, ⟨hk, hi⟩, rfl⟩ | ⟨-, ⟨k, ⟨hk, hi⟩, rfl⟩ |
    ⟨-, ⟨k, ⟨hk, hi⟩, rfl⟩ | ⟨-, ⟨k, ⟨hk, hi⟩, rfl⟩ | ⟨-, k, ⟨hk, hi⟩, rfl⟩⟩⟩⟩⟩
  · exact ⟨decide_eq_true hk, hi⟩
  · exact ⟨decide_eq_true hk, hi⟩
  · exact ⟨decide_eq_true hk, hi⟩
  · exact ⟨decide_eq_true hk, hi⟩
  · exact ⟨rfl, by simp only [CellName.index]; omega⟩
  · exact ⟨decide_eq_true hk, hi⟩

/-- Every index of a named cell has a name. -/
theorem CellName.at_index_ne_none {c : Config} {n : CellName} (hn : n.exists c = true) :
    CellName.at c (n.index c) ≠ none := by
  have hself : ∀ {base cells j : Nat}, j < cells → offsetIn base cells (base + j) ≠ none := by
    intro base cells j hj
    rw [offsetIn_eq_some.2 ⟨hj, rfl⟩]
    exact Option.some_ne_none j
  simp only [CellName.at, Ne, Option.or_eq_none_iff, Option.map_eq_none_iff]
  rintro ⟨hfsel, hset, hclr, hlev, hpud, hpudclk⟩
  cases n with
  | fsel k => exact hself (of_decide_eq_true hn) hfsel
  | set b => exact hself (of_decide_eq_true hn) hset
  | clr b => exact hself (of_decide_eq_true hn) hclr
  | lev b => exact hself (of_decide_eq_true hn) hlev
  | pud => exact hself Nat.one_pos hpud
  | pudclk b => exact hself (of_decide_eq_true hn) hpudclk

theorem CellName.mem_namedCells {c : Config} {n : CellName} (h : n.exists c = true) :
    n ∈ namedCells c := by
  cases n with
  | pud => simp [namedCells]
  | fsel _ | set _ | clr _ | lev _ | pudclk _ => simpa [namedCells, CellName.exists] using h

/-- The address map finds each named cell at its index: another cell there would share the index. -/
theorem CellName.at_index {c : Config} (hv : c.Valid) {n : CellName} (hn : n.exists c = true) :
    CellName.at c (n.index c) = some n := by
  obtain ⟨-, -, -, -, hnodup⟩ := (valid_iff_namedCells c).1 hv
  obtain ⟨m, hm⟩ := Option.ne_none_iff_exists'.1 (CellName.at_index_ne_none hn)
  obtain ⟨hexists, hindex⟩ := CellName.of_at hm
  rw [hm, List.inj_on_of_nodup_map hnodup (mem_namedCells hexists) (mem_namedCells hn) hindex]

/-- A named cell lies in the block (R8). -/
theorem CellName.index_lt {c : Config} (hv : c.Valid) {n : CellName} (hn : n.exists c = true) :
    n.index c < c.blockWords := by
  obtain ⟨-, -, -, hlt, -⟩ := (valid_iff_namedCells c).1 hv
  exact hlt n (CellName.mem_namedCells hn)

/-- Settles O14: the map finds each cell at its index, since no two share one, and finds nothing else. -/
theorem addressMapNamesEachCell : Obligations.AddressMapNamesEachCell := fun _ hv =>
  ⟨fun _ hn => ⟨CellName.at_index hv hn, CellName.index_lt hv hn⟩, fun _ _ => CellName.of_at⟩

/-! ### The cells of a pin (R13, R25) -/

theorem exists_fselCell {c : Config} {p : Nat} (h : p < c.numPins) :
    (CellName.fsel (fselCell p)).exists c = true := by
  refine decide_eq_true ?_
  rw [fselCell, Config.fselCells]
  omega

theorem bank_lt_banks {c : Config} {p : Nat} (h : p < c.numPins) : bank p < c.banks := by
  rw [bank_eq, Config.banks]
  omega

theorem exists_driveCell {c : Config} {p : Nat} (h : p < c.numPins) (l : Level) :
    (driveCell p l).exists c = true := by
  cases l <;> exact decide_eq_true (bank_lt_banks h)

end Machine

end Sys2Proof
end

section
/-! PROOFS. Reset (R340). -/

namespace Sys2Proof.Machine

/-- Settles O15: the fields of the reset state are written out. -/
theorem resetIsUnmappedIdleUnknown : Obligations.ResetIsUnmappedIdleUnknown :=
  ⟨rfl, rfl, fun _ => rfl, rfl, rfl⟩

/-- Settles O16: the reset state's tables and history are empty and its parameters are fixed numbers. -/
theorem resetIsSound : Obligations.ResetIsSound :=
  ⟨by decide, by decide, by decide, by decide⟩

end Sys2Proof.Machine
end

section
/-! PROOFS. How a command begins and goes on (R22, R310), and the commands that their checks turn away
(R304 to R306). -/

namespace Sys2Proof.Machine

variable {s t : State} {p : Pin}

/-! ### A command's first step and its later ones -/

/-- A command on a ready pin runs its body. -/
theorem runPhase_of_ready (h : s.Ready p) {cmd : Instr} {body : State → State}
    {resume : Phase → Option State} :
    runPhase cmd s (fun s => s.checked p body) resume = .next (body s) := by
  obtain ⟨hidle, hport, hpin⟩ := h
  rw [runPhase_idle hidle, s.checked_ok hport hpin]

theorem exec_getMode_of_ready (h : s.Ready p) :
    exec (.getMode p) s = .next (getModeBody p s) := by
  rw [exec, execGetMode, runAtOnce, runPhase_of_ready h]

theorem exec_setPull_of_ready (h : s.Ready p) (m : Pull) :
    exec (.setPull p m) s = .next (setPullBody p m s) := by
  rw [exec, execSetPull, runPhase_of_ready h]

theorem exec_read_of_ready (h : s.Ready p) : exec (.read p) s = .next (readBody p s) := by
  rw [exec, execRead, runAtOnce, runPhase_of_ready h]

theorem exec_write_of_ready (h : s.Ready p) (l : Level) :
    exec (.write p l) s = .next (writeBody p l s) := by
  rw [exec, execWrite, runAtOnce, runPhase_of_ready h]

theorem exec_triggerPulse_of_ready (h : s.Ready p) (l : Level) (d : Micros) :
    exec (.triggerPulse p l d) s = .next (triggerPulseBody p l d s) := by
  rw [exec, execTriggerPulse, runPhase_of_ready h]

theorem exec_readPulse_of_ready (h : s.Ready p) (target : Level) (timeout : Micros) :
    exec (.readPulse p target timeout) s = .next (readPulseBody p target timeout s) := by
  rw [exec, execReadPulse, runPhase_of_ready h]

theorem exec_setPull_of_busy {m : Pull} {t0 : Clock} (h : s.seq = .busy (.setPull p m) (.settle t0)) :
    exec (.setPull p m) s = .next (settlePass p m t0 s) := by
  rw [exec, execSetPull, runPhase_busy h rfl]

theorem exec_triggerPulse_of_busy {l : Level} {d : Micros} {t0 : Clock}
    (h : s.seq = .busy (.triggerPulse p l d) (.hold t0)) :
    exec (.triggerPulse p l d) s = .next (holdPass p l d t0 s) := by
  rw [exec, execTriggerPulse, runPhase_busy h rfl]

theorem exec_readPulse_of_busy {target : Level} {timeout : Micros} {t0 e : Clock}
    (h : s.seq = .busy (.readPulse p target timeout) (.poll t0 e)) :
    exec (.readPulse p target timeout) s = .next (readPulsePass p target timeout t0 e s) := by
  rw [exec, execReadPulse, runPhase_busy h rfl]

theorem exec_decode_of_busy {n : BitCount} {timeout : Micros} {i : Nat} {half : Half} {t0 e : Clock}
    {buf : List Byte} (h : s.seq = .busy (.decode p n timeout) (.bit i half t0 e buf)) :
    exec (.decode p n timeout) s = .next (decodePass p n timeout i half t0 e buf s) := by
  rw [exec, execDecode, runPhase_busy h rfl]

/-- From Idle every command answers a next state (R312, R313). -/
theorem exec_of_idle (i : Instr) (h : s.seq = .idle) : ∃ t, exec i s = .next t := by
  obtain ⟨start, resume, he⟩ := exec_runs i s
  exact ⟨start s, he ▸ runPhase_idle h⟩

/-- Settles O11: the step of an Idle block that has a command to run. -/
theorem stepRunsDecodedCommand : Obligations.StepRunsDecodedCommand :=
  fun _ _ _ _ hv hidle hhost hd => step_issues hv hidle hhost hd

/-! ### Commands that are turned away (R303 to R306) -/

/-- A command that is turned away from Idle leaves its result and nothing else. -/
theorem State.raise_of_idle (h : s.seq = .idle) (c : ResultCode) :
    s.raise c = { s with history := .result ⟨c, .none⟩ :: s.history } := by
  cases s
  cases h
  rfl

/-- A pin command that begins makes the checks of its pin first (R310). -/
theorem exec_eq_checked {i : Instr} (hi : i.pin? = some p) (h : s.seq = .idle) :
    ∃ body, exec i s = .next (s.checked p body) := by
  cases i <;> simp only [Instr.pin?, Option.some.injEq, reduceCtorEq] at hi <;> subst hi <;>
    simp only [exec, execSetMode, execGetMode, execSetPull, execRead, execWrite, execTriggerPulse,
      execReadPulse, execDecode, runAtOnce, runPhase_idle h] <;>
    exact ⟨_, rfl⟩

theorem exec_teardown_of_idle (h : s.seq = .idle) : exec .teardown s = .next (teardownBody s) := by
  rw [exec, execTeardown, runAtOnce, runPhase_idle h]

theorem exec_init_of_idle (h : s.seq = .idle) : exec .init s = .next (initBody s) := by
  rw [exec, execInit, runAtOnce, runPhase_idle h]

theorem teardownBody_of_mapped (h : s.port = .mapped) :
    teardownBody s = State.succeed { s with port := .released } .none := if_neg (not_not.2 h)

theorem teardownBody_of_ne_mapped (h : s.port ≠ .mapped) : teardownBody s = s.raise .notMapped := if_pos h

theorem initBody_of_unmapped (h : s.port = .unmapped) :
    initBody s = initWith s.nextDevice s.drawDevice.2 := if_neg (not_not.2 h)

theorem initBody_of_ne_unmapped (h : s.port ≠ .unmapped) :
    initBody s = s.raise .alreadyInitialized := if_pos h

/-- Settles O25: TEARDOWN checks the port itself, and the pin commands check it first of all. -/
theorem notMappedWithoutMapping : Obligations.NotMappedWithoutMapping := by
  intro i s hi hidle hport
  rw [← State.raise_of_idle hidle]
  cases hp : i.pin? with
  | some p =>
    obtain ⟨body, he⟩ := exec_eq_checked hp hidle
    rw [he, s.checked_notMapped hport]
  | none =>
    obtain rfl : i = .teardown := by cases i <;> simp_all [Instr.pin?]
    rw [exec_teardown_of_idle hidle, teardownBody_of_ne_mapped hport]

/-- Settles O26: the pin commands check the pin once the port is found Mapped. -/
theorem pinOutOfRangeRefused : Obligations.PinOutOfRangeRefused := by
  intro i p s hi hidle hport hpin
  obtain ⟨body, he⟩ := exec_eq_checked hi hidle
  rw [he, s.checked_outOfRange hport hpin, State.raise_of_idle hidle]

/-- Settles O27: INIT checks the port first. -/
theorem secondInitRefused : Obligations.SecondInitRefused := by
  intro s hidle hport
  rw [exec_init_of_idle hidle, initBody_of_ne_unmapped hport, State.raise_of_idle hidle]

/-- Settles O29: TEARDOWN's two answers. -/
theorem teardownReleasesPort : Obligations.TeardownReleasesPort := by
  intro s hidle
  rw [exec_teardown_of_idle hidle]
  refine ⟨fun hport => ?_, fun hport => ?_⟩
  · rw [teardownBody_of_mapped hport]
    cases s
    cases hidle
    rfl
  · rw [teardownBody_of_ne_mapped hport, State.raise_of_idle hidle]

/-! ### INIT (R140) -/

/-- INIT from Unmapped does what the device answers. -/
theorem exec_init_of_unmapped (hidle : s.seq = .idle) (hport : s.port = .unmapped) :
    exec .init s = .next (initWith s.nextDevice s.drawDevice.2) := by
  rw [exec_init_of_idle hidle, initBody_of_unmapped hport]

/-- After writes whose values depend on their cells alone, each written cell holds its value and every
other cell what it held. -/
theorem Cells.read_foldl_write (f : Nat → Word) (g : CellName → Nat) (cs : List CellName)
    (t : Table Word) (i : Nat) :
    Cells.read (cs.foldl (fun t c => Cells.write t (g c) (f (g c))) t) i =
      if ∃ c ∈ cs, g c = i then f i else Cells.read t i := by
  induction cs generalizing t with
  | nil => simp
  | cons c cs ih =>
    rw [List.foldl_cons, ih, Cells.read_write]
    by_cases hcs : ∃ c ∈ cs, g c = i
    · simp [hcs]
    · by_cases hc : g c = i
      · simp [hc]
      · simp [hcs, hc, Ne.symm hc]

theorem State.read_drawCells (s : State) (cs : List CellName) (i : Nat) :
    Cells.read (s.drawCells cs) i =
      if ∃ c ∈ cs, c.index s.cfg = i then s.initialCell i else Cells.read s.cells i :=
  Cells.read_foldl_write s.initialCell (CellName.index s.cfg) cs s.cells i

theorem State.get?_drawLatch (s : State) (p : Nat) :
    Table.get? s.drawLatch p = if p < s.cfg.numPins then some (s.initialLatch p) else none :=
  Table.get?_range s.cfg.numPins s.initialLatch p

@[simp] theorem Env.takeDevice_cells (e : Env) : e.takeDevice.cells = e.cells := by
  unfold Env.takeDevice
  split <;> rfl

@[simp] theorem Env.takeDevice_latch (e : Env) : e.takeDevice.latch = e.latch := by
  unfold Env.takeDevice
  split <;> rfl

/-- The contents from before the block do not depend on the device's answer (R39). -/
theorem State.drawCells_drawDevice (s : State) (cs : List CellName) :
    s.drawDevice.2.drawCells cs = s.drawCells cs := by
  simp [State.drawCells, State.initialCell]

theorem State.drawLatch_drawDevice (s : State) : s.drawDevice.2.drawLatch = s.drawLatch := by
  simp [State.drawLatch, State.initialLatch]

/-- The complete next state of an INIT that succeeds. -/
theorem initWith_ok_eq (hidle : s.seq = .idle) :
    initWith .ok s.drawDevice.2 =
      { s with
        port := .mapped, cells := s.drawCells (drawnCells s.cfg), latch := s.drawLatch, pull := [],
        env := s.env.takeDevice, history := .result ⟨.ok, .none⟩ :: s.history } := by
  rw [initWith, State.drawCells_drawDevice, State.drawLatch_drawDevice]
  cases s
  cases hidle
  rfl

/-- Settles O28: INIT does what the device answers; on success the cells and the latches read as the draw
by index and by pin left them. -/
theorem initFollowsDeviceOutcome : Obligations.InitFollowsDeviceOutcome := by
  intro s hidle hport
  rw [exec_init_of_unmapped hidle hport]
  have hidle' : s.drawDevice.2.seq = .idle := hidle
  refine ⟨fun hd => ?_, fun hd => ?_, fun hd => ?_⟩
  · rw [hd, initWith, State.raise_of_idle hidle']
    rfl
  · rw [hd, initWith, State.raise_of_idle hidle']
    rfl
  · rw [hd, initWith_ok_eq hidle]
    refine ⟨_, rfl, rfl, fun c hc => ?_, fun i hi => ?_, fun p hp => ?_⟩
    · exact (s.read_drawCells _ _).trans (if_pos ⟨c, hc, rfl⟩)
    · exact (s.read_drawCells _ _).trans (if_neg fun ⟨c, hc, h⟩ => hi c hc h)
    · exact congrArg (·.getD .low) ((s.get?_drawLatch p).trans (if_pos hp))

end Sys2Proof.Machine
end

section
/-! PROOFS. What the effect of a command leaves alone, and which command writes what (R22, R23, R37, R51). -/

namespace Sys2Proof.Machine

variable {s t s1 s2 : State} {i cmd : Instr} {ph : Phase}

/-! ### A measurement only observes -/

section Measured

variable {p : Pin} {target : Level} {timeout d : Micros} {t0 e : Clock}

theorem Measured.cfg_eq (h : Measured s1 p target timeout t0 e d s2) : s2.cfg = s1.cfg := by
  cases h <;> rfl

theorem Measured.port_eq (h : Measured s1 p target timeout t0 e d s2) : s2.port = s1.port := by
  cases h <;> rfl

theorem Measured.cells_eq (h : Measured s1 p target timeout t0 e d s2) : s2.cells = s1.cells := by
  cases h <;> rfl

theorem Measured.latch_eq (h : Measured s1 p target timeout t0 e d s2) : s2.latch = s1.latch := by
  cases h <;> rfl

theorem Measured.pull_eq (h : Measured s1 p target timeout t0 e d s2) : s2.pull = s1.pull := by
  cases h <;> rfl

theorem Measured.host_eq (h : Measured s1 p target timeout t0 e d s2) : s2.host = s1.host := by
  cases h <;> rfl

end Measured

/-! ### What a command writes before its first pass -/

/-- Only SET_PULL writes a cell before its first pass. -/
theorem PassFrom.cells_eq (h : PassFrom s cmd ph s1) :
    s1.cells = s.cells ∨ ∃ p m, cmd = .setPull p m ∧ s1.cells = (s.assertPull p m).cells := by
  cases h with
  | setPull => exact .inr ⟨_, _, rfl, rfl⟩
  | triggerPulse => exact .inl (by simp)
  | resumed | readPulse | decode => exact .inl rfl

/-- Only TRIGGER_PULSE moves a latch before its first pass. -/
theorem PassFrom.latch_eq (h : PassFrom s cmd ph s1) :
    s1.latch = s.latch ∨ ∃ p l d, cmd = .triggerPulse p l d := by
  cases h with
  | triggerPulse => exact .inr ⟨_, _, _, rfl⟩
  | resumed | setPull | readPulse | decode => exact .inl rfl

/-- Only SET_PULL changes a pull before its first pass. -/
theorem PassFrom.pull_eq (h : PassFrom s cmd ph s1) :
    s1.pull = s.pull ∨ ∃ p m, cmd = .setPull p m := by
  cases h with
  | setPull => exact .inr ⟨_, _, rfl⟩
  | triggerPulse => exact .inl (by simp)
  | resumed | readPulse | decode => exact .inl rfl

/-- A pass is one of the running command, or of a command on a pin that is ready. -/
theorem PassFrom.busy_or_ready (h : PassFrom s cmd ph s1) :
    s.seq = .busy cmd ph ∨ ∃ p, cmd.pin? = some p ∧ s.Ready p := by
  cases h with
  | resumed hs => exact .inl hs
  | setPull hr | triggerPulse hr | readPulse hr | decode hr => exact .inr ⟨_, rfl, hr⟩

/-! ### What no command writes (R51) -/

theorem Effect.cfg_eq (h : Effect s i t) : t.cfg = s.cfg := by
  cases h with
  | settleWaits hp | settleEnds hp | holdWaits hp | holdEnds hp | pollWaits hp | bitWaits hp =>
    simp [State.releasePull, hp.cfg_eq]
  | pollEnds hp hm | bitFails hp hm | pivotEnds hp hm | pulseEnds hp hm | lastPulseEnds hp hm =>
    simp [hm.cfg_eq, hp.cfg_eq]
  | write => simp [writeBody]
  | _ => rfl

theorem Effect.host_eq (h : Effect s i t) : t.host = s.host := by
  cases h with
  | settleWaits hp | settleEnds hp | holdWaits hp | holdEnds hp | pollWaits hp | bitWaits hp =>
    simp [State.releasePull, hp.host_eq]
  | pollEnds hp hm | bitFails hp hm | pivotEnds hp hm | pulseEnds hp hm | lastPulseEnds hp hm =>
    simp [hm.host_eq, hp.host_eq]
  | write => simp [writeBody]
  | _ => rfl

/-- After its step a command has ended, or it waits at a phase of its own (R22). -/
theorem Effect.seq_idle_or_busy (h : Effect s i t) : t.seq = .idle ∨ ∃ ph, t.seq = .busy i ph := by
  cases h with
  | settleWaits | holdWaits | pollWaits | bitWaits | pivotEnds | pulseEnds => exact .inr ⟨_, rfl⟩
  | _ => exact .inl rfl

/-- Settles O12: what a running command's step leaves alone. -/
theorem runningCommandIsAlone : Obligations.RunningCommandIsAlone := by
  intro s cmd ph hv hs
  have hstep : step s = exec cmd s := step_busy hv hs
  refine ⟨hstep, fun t ht => ?_⟩
  have heffect : Effect s cmd t := exec_effect (hstep ▸ ht)
  exact ⟨heffect.host_eq, heffect.seq_idle_or_busy⟩

/-! ### Which command writes what (R51) -/

/-- Only a successful INIT and a TEARDOWN move the port (R23). -/
theorem Effect.port_eq (h : Effect s i t) :
    t.port = s.port ∨ (i = .init ∧ s.port = .unmapped ∧ t.port = .mapped) ∨
      (i = .teardown ∧ s.port = .mapped ∧ t.port = .released) := by
  cases h with
  | initMaps _ hp => exact .inr (.inl ⟨rfl, hp, rfl⟩)
  | teardown _ hp => exact .inr (.inr ⟨rfl, hp, rfl⟩)
  | settleWaits hp | settleEnds hp | holdWaits hp | holdEnds hp | pollWaits hp | bitWaits hp =>
    exact .inl (by simp [State.releasePull, hp.port_eq])
  | pollEnds hp hm | bitFails hp hm | pivotEnds hp hm | pulseEnds hp hm | lastPulseEnds hp hm =>
    exact .inl (by simp [hm.port_eq, hp.port_eq])
  | write => exact .inl (by simp [writeBody])
  | _ => exact .inl rfl

/-- Settles O22: the port under the effect of a command. -/
theorem onlyLifecycleMovesPort : Obligations.OnlyLifecycleMovesPort :=
  fun _ _ _ h => (exec_effect h).port_eq

theorem Effect.latch_eq (h : Effect s i t) :
    t.latch = s.latch ∨ i = .init ∨ (∃ p l, i = .write p l) ∨ ∃ p l d, i = .triggerPulse p l d := by
  cases h with
  | initFails | initMaps => exact .inr (.inl rfl)
  | write => exact .inr (.inr (.inl ⟨_, _, rfl⟩))
  | holdWaits | holdEnds => exact .inr (.inr (.inr ⟨_, _, _, rfl⟩))
  | settleWaits hp | settleEnds hp | pollWaits hp | bitWaits hp =>
    exact .inl (by simpa [State.releasePull] using hp.latch_eq)
  | pollEnds hp hm | bitFails hp hm | pivotEnds hp hm | pulseEnds hp hm | lastPulseEnds hp hm =>
    exact .inl (by simpa [hm.latch_eq] using hp.latch_eq)
  | _ => exact .inl rfl

theorem Effect.pull_eq (h : Effect s i t) :
    t.pull = s.pull ∨ i = .init ∨ ∃ p m, i = .setPull p m := by
  cases h with
  | initFails | initMaps => exact .inr (.inl rfl)
  | settleWaits | settleEnds => exact .inr (.inr ⟨_, _, rfl⟩)
  | holdWaits hp | holdEnds hp | pollWaits hp | bitWaits hp =>
    exact .inl (by simpa using hp.pull_eq)
  | pollEnds hp hm | bitFails hp hm | pivotEnds hp hm | pulseEnds hp hm | lastPulseEnds hp hm =>
    exact .inl (by simpa [hm.pull_eq] using hp.pull_eq)
  | write => exact .inl (by simp [writeBody])
  | _ => exact .inl rfl

theorem Effect.clock_eq (h : Effect s i t) :
    t.clock = s.clock ∨ (∃ p m, i = .setPull p m) ∨ (∃ p l d, i = .triggerPulse p l d) ∨
      (∃ p l d, i = .readPulse p l d) ∨ ∃ p n d, i = .decode p n d := by
  cases h with
  | settleWaits | settleEnds => exact .inr (.inl ⟨_, _, rfl⟩)
  | holdWaits | holdEnds => exact .inr (.inr (.inl ⟨_, _, _, rfl⟩))
  | pollWaits | pollEnds => exact .inr (.inr (.inr (.inl ⟨_, _, _, rfl⟩)))
  | decodeNothing | bitWaits | bitFails | pivotEnds | pulseEnds | lastPulseEnds =>
    exact .inr (.inr (.inr (.inr ⟨_, _, _, rfl⟩)))
  | write => exact .inl (by simp [writeBody])
  | _ => exact .inl rfl

/-! ### Which command writes which cell (R51) -/

/-- The cells that a command writes (R140, R160, R170). -/
def writesCell (c : Config) : Instr → CellName → Prop
  | .init, n => n ∈ drawnCells c
  | .setMode p _, n => n = .fsel (fselCell p.toNat)
  | .setPull p _, n => n = .pud ∨ n = .pudclk (bank p.toNat)
  | _, _ => False

/-- SET_PULL's two cells are all that it writes, at its beginning and at its end. -/
theorem read_assertPull (s : State) (p : Pin) (m : Pull) {k : Nat}
    (hpud : CellName.pud.index s.cfg ≠ k) (hclk : (CellName.pudclk (bank p.toNat)).index s.cfg ≠ k) :
    Cells.read (s.assertPull p m).cells k = Cells.read s.cells k := by
  simp [State.assertPull, Cells.read_write_other, hpud.symm, hclk.symm]

theorem read_releasePull (s : State) (p : Pin) (m : Pull) {k : Nat}
    (hpud : CellName.pud.index s.cfg ≠ k) (hclk : (CellName.pudclk (bank p.toNat)).index s.cfg ≠ k) :
    Cells.read (s.releasePull p m).cells k = Cells.read s.cells k := by
  simp [State.releasePull, Cells.read_write_other, hpud.symm, hclk.symm]

/-- A cell that none of the command's own lies at keeps what it holds. -/
theorem Effect.read_cells (h : Effect s i t) {k : Nat}
    (hk : ∀ n, writesCell s.cfg i n → n.index s.cfg ≠ k) :
    Cells.read t.cells k = Cells.read s.cells k := by
  have hpass : ∀ {cmd ph s1}, PassFrom s cmd ph s1 →
      (∀ n, writesCell s.cfg cmd n → n.index s.cfg ≠ k) →
        Cells.read s1.cells k = Cells.read s.cells k := by
    intro cmd ph s1 hp hk
    rcases hp.cells_eq with hc | ⟨p, m, rfl, hc⟩ <;> rw [hc]
    exact read_assertPull s p m (hk _ (.inl rfl)) (hk _ (.inr rfl))
  cases h with
  | initMaps hs _ _ =>
    rw [initWith_ok_eq hs]
    exact (s.read_drawCells _ _).trans (if_neg fun ⟨c, hc, h⟩ => hk c hc h)
  | setMode hr =>
    rw [setModeBody_eq hr.1]
    exact Cells.read_write_other _ _ (hk _ rfl).symm
  | settleEnds hp =>
    rw [read_releasePull _ _ _ (by simpa [hp.cfg_eq] using hk _ (.inl rfl))
      (by simpa [hp.cfg_eq] using hk _ (.inr rfl)), State.now_cells, hpass hp hk]
  | settleWaits hp | holdWaits hp | holdEnds hp | pollWaits hp | bitWaits hp =>
    simpa using hpass hp hk
  | pollEnds hp hm | bitFails hp hm | pivotEnds hp hm | pulseEnds hp hm | lastPulseEnds hp hm =>
    simpa [hm.cells_eq] using hpass hp hk
  | write => simp [writeBody]
  | _ => rfl

/-- What a sound sequencer says of a running command. -/
theorem State.seqFits_busy (hfits : s.seqFits = true) (h : s.seq = .busy cmd ph) :
    s.port = .mapped ∧ (∀ p, cmd.pin? = some p → p.toNat < s.cfg.numPins) ∧
      s.phaseFits cmd ph = true := by
  simp only [State.seqFits, h, Bool.and_eq_true, decide_eq_true_eq, Option.all_eq_true] at hfits
  obtain ⟨⟨hport, hpin⟩, hphase⟩ := hfits
  exact ⟨hport, hpin, hphase⟩

theorem PassFrom.mapped (hfits : s.seqFits = true) (h : PassFrom s cmd ph s1) : s.port = .mapped := by
  rcases h.busy_or_ready with hs | ⟨p, -, -, hport, -⟩
  · exact (State.seqFits_busy hfits hs).1
  · exact hport

theorem PassFrom.pin_lt (hfits : s.seqFits = true) (h : PassFrom s cmd ph s1) {p : Pin}
    (hp : cmd.pin? = some p) : p.toNat < s.cfg.numPins := by
  rcases h.busy_or_ready with hs | ⟨q, hq, -, -, hpin⟩
  · exact (State.seqFits_busy hfits hs).2.1 p hp
  · obtain rfl : p = q := Option.some.inj (hp.symm.trans hq)
    exact hpin

/-- A pin command in a sound block is turned away, or its pin is in range. -/
theorem Effect.raise_or_pin_lt (hfits : s.seqFits = true) (h : Effect s i t) :
    (∃ c, t = s.raise c) ∨ ∀ p, i.pin? = some p → p.toNat < s.cfg.numPins := by
  cases h with
  | turnedAway => exact .inl ⟨_, rfl⟩
  | initFails | initMaps | teardown => exact .inr fun _ hp => nomatch hp
  | setMode hr | getMode hr | read hr | write hr | decodeNothing hr =>
    exact .inr fun p hp => Option.some.inj hp ▸ hr.2.2
  | settleWaits hp | settleEnds hp | holdWaits hp | holdEnds hp | pollWaits hp | bitWaits hp
  | pollEnds hp | bitFails hp | pivotEnds hp | pulseEnds hp | lastPulseEnds hp =>
    exact .inr fun p hpin => hp.pin_lt hfits hpin

theorem exists_of_mem_drawnCells {c : Config} {n : CellName} (h : n ∈ drawnCells c) :
    n.exists c = true ∧ ((∃ j, n = .fsel j) ∨ n = .pud ∨ ∃ b, n = .pudclk b) := by
  simp only [drawnCells, List.mem_append, List.mem_map, List.mem_range, List.mem_singleton] at h
  rcases h with (⟨j, hj, rfl⟩ | rfl) | ⟨b, hb, rfl⟩
  · exact ⟨decide_eq_true hj, .inl ⟨j, rfl⟩⟩
  · exact ⟨rfl, .inr (.inl rfl)⟩
  · exact ⟨decide_eq_true hb, .inr (.inr ⟨b, rfl⟩)⟩

/-- The cells that a command writes are cells that the block has, of the classes of R51. -/
theorem exists_of_writesCell {c : Config} {n : CellName}
    (hpin : ∀ p, i.pin? = some p → p.toNat < c.numPins) (h : writesCell c i n) :
    n.exists c = true ∧
      (((∃ j, n = .fsel j) ∧ (i = .init ∨ ∃ p m, i = .setMode p m)) ∨
        (n = .pud ∨ ∃ b, n = .pudclk b) ∧ (i = .init ∨ ∃ p m, i = .setPull p m)) := by
  cases i with
  | init =>
    obtain ⟨hn, hfsel | hpull⟩ := exists_of_mem_drawnCells h
    · exact ⟨hn, .inl ⟨hfsel, .inl rfl⟩⟩
    · exact ⟨hn, .inr ⟨hpull, .inl rfl⟩⟩
  | setMode p m =>
    obtain rfl : n = .fsel (fselCell p.toNat) := h
    exact ⟨exists_fselCell (hpin p rfl), .inl ⟨⟨_, rfl⟩, .inr ⟨p, m, rfl⟩⟩⟩
  | setPull p m =>
    rcases h with rfl | rfl
    · exact ⟨rfl, .inr ⟨.inl rfl, .inr ⟨p, m, rfl⟩⟩⟩
    · exact ⟨decide_eq_true (bank_lt_banks (hpin p rfl)), .inr ⟨.inr ⟨_, rfl⟩, .inr ⟨p, m, rfl⟩⟩⟩
  | teardown | getMode | read | write | triggerPulse | readPulse | decode => exact h.elim

/-- Settles O23: field by field; a cell that changes is one of the command's own, which the address map
names. -/
theorem stateChangesOnlyUnderItsWriters : Obligations.StateChangesOnlyUnderItsWriters := by
  intro i s t h
  have heffect : Effect s i t := exec_effect h
  refine ⟨?_, heffect.latch_eq, heffect.pull_eq, heffect.clock_eq, ?_, heffect.cfg_eq,
    heffect.host_eq⟩
  · rcases heffect.port_eq with hport | ⟨hi, -⟩ | ⟨hi, -⟩
    · exact .inl hport
    · exact .inr (.inl hi)
    · exact .inr (.inr hi)
  · rintro hv ⟨-, -, -, hfits⟩ k hk
    rcases heffect.raise_or_pin_lt hfits with ⟨c, rfl⟩ | hpin
    · exact absurd rfl hk
    · obtain ⟨n, hn, rfl⟩ : ∃ n, writesCell s.cfg i n ∧ n.index s.cfg = k := by
        by_contra hnone
        exact hk (heffect.read_cells fun n hn hindex => hnone ⟨n, hn, hindex⟩)
      obtain ⟨hexists, hclass⟩ := exists_of_writesCell hpin hn
      simpa only [CellName.at_index hv hexists, Option.some.injEq] using hclass

/-! ### What the sequencer can always do (R312, R313) -/

/-- A running command at a phase of its own answers a next state. -/
theorem exec_of_phaseFits (hs : s.seq = .busy cmd ph) (h : s.phaseFits cmd ph = true) :
    ∃ t, exec cmd s = .next t := by
  cases cmd with
  | setPull p m =>
    cases ph with
    | settle t0 => exact ⟨_, exec_setPull_of_busy hs⟩
    | _ => exact absurd h Bool.false_ne_true
  | triggerPulse p l d =>
    cases ph with
    | hold t0 => exact ⟨_, exec_triggerPulse_of_busy hs⟩
    | _ => exact absurd h Bool.false_ne_true
  | readPulse p target timeout =>
    cases ph with
    | poll t0 e => exact ⟨_, exec_readPulse_of_busy hs⟩
    | _ => exact absurd h Bool.false_ne_true
  | decode p n timeout =>
    cases ph with
    | bit i half t0 e buf => exact ⟨_, exec_decode_of_busy hs⟩
    | _ => exact absurd h Bool.false_ne_true
  | _ => exact absurd h Bool.false_ne_true

/-- Settles O20: from Idle a block waits, rejects a word or begins a command, and a running command of a
sound block goes on. -/
theorem soundBlockAlwaysSteps : Obligations.SoundBlockAlwaysSteps := by
  rintro s hv ⟨-, -, -, hfits⟩
  cases hs : s.seq with
  | busy cmd ph =>
    rw [step_busy hv hs]
    exact exec_of_phaseFits hs (State.seqFits_busy hfits hs).2.2
  | idle =>
    cases hh : s.host with
    | nil => exact ⟨s, step_waits hv hs hh⟩
    | cons w ws =>
      cases hd : decode w with
      | error e => exact ⟨_, step_rejects hv hs hh hd⟩
      | ok i =>
        rw [step_issues hv hs hh hd]
        exact exec_of_idle i hs

/-! ### A released port (R141, R146) -/

/-- An Idle block whose port is Released turns every command away. -/
theorem Effect.raise_of_released (h : Effect s i t) (hport : s.port = .released)
    (hidle : s.seq = .idle) : ∃ c, c ≠ .ok ∧ t = s.raise c := by
  have hready : ∀ {p}, ¬ s.Ready p := fun hr => absurd (hport.symm.trans hr.2.1) (by decide)
  have hpass : ∀ {cmd ph s1}, ¬ PassFrom s cmd ph s1 := by
    intro cmd ph s1 hp
    rcases hp.busy_or_ready with hs | ⟨p, -, hr⟩
    · exact absurd (hidle.symm.trans hs) (by simp)
    · exact hready hr
  cases h with
  | turnedAway _ hc => exact ⟨_, hc, rfl⟩
  | initFails _ hp | initMaps _ hp | teardown _ hp => exact absurd (hport.symm.trans hp) (by decide)
  | setMode hr | getMode hr | read hr | write hr | decodeNothing hr => exact absurd hr hready
  | settleWaits hp | settleEnds hp | holdWaits hp | holdEnds hp | pollWaits hp | bitWaits hp
  | pollEnds hp | bitFails hp | pivotEnds hp | pulseEnds hp | lastPulseEnds hp => exact absurd hp hpass

/-- Settles O30: a released block waits, rejects a word or turns a command away. -/
theorem releasedForever : Obligations.ReleasedForever := by
  intro s t hport hidle hstep
  obtain ⟨-, ⟨-, hhost, rfl⟩ | ⟨w, ws, -, -, rfl⟩ | ⟨w, ws, i, -, -, -, hexec⟩ | ⟨cmd, ph, hs, -⟩⟩ :=
    step_next hstep
  · exact ⟨hport, hidle, rfl, rfl, rfl, rfl, fun hne => absurd hhost hne⟩
  · exact ⟨hport, rfl, rfl, rfl, rfl, rfl, fun _ => ⟨.illegalCommand, by decide, rfl⟩⟩
  · obtain ⟨c, hc, rfl⟩ := (exec_effect hexec).raise_of_released hport hidle
    exact ⟨hport, rfl, rfl, rfl, rfl, rfl, fun _ => ⟨c, hc, rfl⟩⟩
  · exact absurd (hidle.symm.trans hs) (by simp)

end Sys2Proof.Machine
end

section
/-! PROOFS. The outcomes of each pass, from what decides them (R170, R200, R220, R240). -/

namespace Sys2Proof.Machine

variable {s : State} {p : Pin} {t0 e : Clock}

theorem settlePass_of_lt {m : Pull} (h : s.nextReading - t0 < 20) :
    settlePass p m t0 s = s.now.2.wait (.setPull p m) (.settle t0) := by
  rcases settlePass_cases p m t0 s with ⟨-, he⟩ | ⟨hle, -⟩
  · exact he
  · exact absurd h (BitVec.not_lt.2 hle)

theorem settlePass_of_le {m : Pull} (h : 20 ≤ s.nextReading - t0) :
    settlePass p m t0 s = s.now.2.releasePull p m := by
  rcases settlePass_cases p m t0 s with ⟨hlt, -⟩ | ⟨-, he⟩
  · exact absurd hlt (BitVec.not_lt.2 h)
  · exact he

theorem holdPass_of_lt {l : Level} {d : Micros} (h : s.nextReading - t0 < d.setWidth 64) :
    holdPass p l d t0 s = s.now.2.wait (.triggerPulse p l d) (.hold t0) := by
  rcases holdPass_cases p l d t0 s with ⟨-, he⟩ | ⟨hle, -⟩
  · exact he
  · exact absurd h (BitVec.not_lt.2 hle)

theorem holdPass_of_le {l : Level} {d : Micros} (h : d.setWidth 64 ≤ s.nextReading - t0) :
    holdPass p l d t0 s = (s.now.2.drive p l.flip).succeed .none := by
  rcases holdPass_cases p l d t0 s with ⟨hlt, -⟩ | ⟨-, he⟩
  · exact absurd hlt (BitVec.not_lt.2 h)
  · exact he

section ReadPulse

variable {target : Level} {timeout : Micros}

theorem readPulsePass_of_ne (h : s.nextLevel p.toNat ≠ target) :
    readPulsePass p target timeout t0 e s =
      (s.sample p).2.succeed (measurement target timeout (e.setWidth 32)) := by
  rw [readPulsePass, s.pollPass_of_ne h]

theorem readPulsePass_of_late (h : s.nextLevel p.toNat = target)
    (ht : timeout.setWidth 64 ≤ (s.sample p).2.nextReading - t0) :
    readPulsePass p target timeout t0 e s =
      (s.sample p).2.now.2.succeed (measurement target timeout timeout) := by
  rw [readPulsePass, s.pollPass_of_late h ht]

theorem readPulsePass_of_again (h : s.nextLevel p.toNat = target)
    (ht : (s.sample p).2.nextReading - t0 < timeout.setWidth 64) :
    readPulsePass p target timeout t0 e s =
      (s.sample p).2.now.2.wait (.readPulse p target timeout)
        (.poll t0 ((s.sample p).2.nextReading - t0)) := by
  rw [readPulsePass, s.pollPass_of_again h ht]

end ReadPulse

section Decode

variable {n : BitCount} {timeout d : Micros} {i : Nat} {half : Half} {buf : List Byte}

theorem decodePass_of_ne (h : s.nextLevel p.toNat ≠ half.target) :
    decodePass p n timeout i half t0 e buf s =
      afterHalf p n timeout i half buf (e.setWidth 32) (s.sample p).2 := by
  rw [decodePass, s.pollPass_of_ne h]

theorem decodePass_of_late (h : s.nextLevel p.toNat = half.target)
    (ht : timeout.setWidth 64 ≤ (s.sample p).2.nextReading - t0) :
    decodePass p n timeout i half t0 e buf s =
      afterHalf p n timeout i half buf timeout (s.sample p).2.now.2 := by
  rw [decodePass, s.pollPass_of_late h ht]

theorem decodePass_of_again (h : s.nextLevel p.toNat = half.target)
    (ht : (s.sample p).2.nextReading - t0 < timeout.setWidth 64) :
    decodePass p n timeout i half t0 e buf s =
      (s.sample p).2.now.2.wait (.decode p n timeout)
        (.bit i half t0 ((s.sample p).2.nextReading - t0) buf) := by
  rw [decodePass, s.pollPass_of_again h ht]

theorem afterHalf_of_le (h : timeout ≤ d) :
    afterHalf p n timeout i half buf d s = s.decodeFails := by
  simp [afterHalf, timedOut, h]

theorem afterHalf_pivot (h : d < timeout) :
    afterHalf p n timeout i .pivot buf d s =
      s.now.2.wait (.decode p n timeout) (.bit i (.pulse d) s.nextReading 0 buf) := by
  simp [afterHalf, timedOut, BitVec.not_le.2 h, beginHalf]

theorem afterHalf_pulse_next {pivot : Micros} (h : d < timeout) (hn : i + 1 < n.toNat) :
    afterHalf p n timeout i (.pulse pivot) buf d s =
      s.now.2.wait (.decode p n timeout) (.bit (i + 1) .pivot s.nextReading 0
        (if decodedBit pivot d then setBufferBit buf i else buf)) := by
  simp [afterHalf, timedOut, BitVec.not_le.2 h, beginHalf, hn]

theorem afterHalf_pulse_last {pivot : Micros} (h : d < timeout) (hn : n.toNat ≤ i + 1) :
    afterHalf p n timeout i (.pulse pivot) buf d s =
      s.succeed (.decoded (if decodedBit pivot d then setBufferBit buf i else buf) true) := by
  simp [afterHalf, timedOut, BitVec.not_le.2 h, Nat.not_lt.2 hn]

end Decode

end Sys2Proof.Machine
end

section
/-! PROOFS. The pulls are ghost state (R37): no operation reads them. -/

namespace Sys2Proof.Machine

variable {p : Pin}

/-- The state with other configured pulls. -/
def State.withPull (s : State) (x : Table Pull) : State := { s with pull := x }

/-- Changing the pulls before `f` changes nothing but the pulls after it. -/
def PullBlind (f : State → State) : Prop :=
  ∀ s x, ∃ y, f (s.withPull x) = (f s).withPull y

theorem pullBlind_checked {body : State → State} (h : PullBlind body) :
    PullBlind fun s => s.checked p body := by
  intro s x
  simp only
  by_cases hport : s.port = .mapped
  · by_cases hpin : p.toNat < s.cfg.numPins
    · rw [s.checked_ok hport hpin, (s.withPull x).checked_ok hport hpin]
      exact h s x
    · have hpin := Nat.not_lt.1 hpin
      rw [s.checked_outOfRange hport hpin, (s.withPull x).checked_outOfRange hport hpin]
      exact ⟨x, rfl⟩
  · rw [s.checked_notMapped hport, (s.withPull x).checked_notMapped hport]
    exact ⟨x, rfl⟩

/-! ### The commands that end in one step -/

theorem pullBlind_initBody : PullBlind initBody := by
  intro s x
  by_cases hport : s.port = .unmapped
  · rw [initBody_of_unmapped hport, initBody_of_unmapped (s := s.withPull x) hport]
    change ∃ y, initWith s.nextDevice (s.withPull x).drawDevice.2 =
      (initWith s.nextDevice s.drawDevice.2).withPull y
    cases s.nextDevice with
    | ok => exact ⟨[], rfl⟩
    | resourceUnavailable | mapFailed => exact ⟨x, rfl⟩
  · rw [initBody_of_ne_unmapped hport, initBody_of_ne_unmapped (s := s.withPull x) hport]
    exact ⟨x, rfl⟩

theorem pullBlind_teardownBody : PullBlind teardownBody := by
  intro s x
  by_cases hport : s.port = .mapped
  · rw [teardownBody_of_mapped hport, teardownBody_of_mapped (s := s.withPull x) hport]
    exact ⟨x, rfl⟩
  · rw [teardownBody_of_ne_mapped hport, teardownBody_of_ne_mapped (s := s.withPull x) hport]
    exact ⟨x, rfl⟩

theorem pullBlind_setModeBody (m : Mode) : PullBlind (setModeBody p m) := fun _ x => ⟨x, rfl⟩

theorem pullBlind_getModeBody : PullBlind (getModeBody p) := fun _ x => ⟨x, rfl⟩

theorem pullBlind_readBody : PullBlind (readBody p) := fun _ x => ⟨x, rfl⟩

theorem pullBlind_writeBody (l : Level) : PullBlind (writeBody p l) := by
  intro s x
  cases l <;> exact ⟨x, rfl⟩

/-! ### The passes of the commands that wait -/

theorem pullBlind_settlePass (m : Pull) (t0 : Clock) : PullBlind (settlePass p m t0) := by
  intro s x
  rcases settlePass_cases p m t0 s with ⟨h, he⟩ | ⟨h, he⟩
  · rw [he, settlePass_of_lt (s := s.withPull x) h]
    exact ⟨x, rfl⟩
  · rw [he, settlePass_of_le (s := s.withPull x) h]
    exact ⟨Table.set x p.toNat m, rfl⟩

theorem pullBlind_setPullBody (m : Pull) : PullBlind (setPullBody p m) := fun s x =>
  pullBlind_settlePass m (s.assertPull p m).nextReading (s.assertPull p m).now.2
    ((s.withPull x).forgetPulls p).pull

theorem pullBlind_holdPass (l : Level) (d : Micros) (t0 : Clock) : PullBlind (holdPass p l d t0) := by
  intro s x
  rcases holdPass_cases p l d t0 s with ⟨h, he⟩ | ⟨h, he⟩
  · rw [he, holdPass_of_lt (s := s.withPull x) h]
    exact ⟨x, rfl⟩
  · rw [he, holdPass_of_le (s := s.withPull x) h]
    cases l <;> exact ⟨x, rfl⟩

theorem pullBlind_triggerPulseBody (l : Level) (d : Micros) : PullBlind (triggerPulseBody p l d) := by
  intro s x
  rw [triggerPulseBody_eq, triggerPulseBody_eq]
  cases l
  · exact pullBlind_holdPass .low d (s.drive p .low).nextReading (s.drive p .low).now.2 x
  · exact pullBlind_holdPass .high d (s.drive p .high).nextReading (s.drive p .high).now.2 x

theorem pullBlind_readPulsePass (target : Level) (timeout : Micros) (t0 e : Clock) :
    PullBlind (readPulsePass p target timeout t0 e) := by
  intro s x
  rcases readPulsePass_cases p target timeout t0 e s with ⟨h, he⟩ | ⟨h, ht, he⟩ | ⟨h, ht, he⟩
  · rw [he, readPulsePass_of_ne (s := s.withPull x) h]
    exact ⟨x, rfl⟩
  · rw [he, readPulsePass_of_late (s := s.withPull x) h ht]
    exact ⟨x, rfl⟩
  · rw [he, readPulsePass_of_again (s := s.withPull x) h ht]
    exact ⟨x, rfl⟩

theorem pullBlind_readPulseBody (target : Level) (timeout : Micros) :
    PullBlind (readPulseBody p target timeout) := fun s x =>
  pullBlind_readPulsePass target timeout s.nextReading 0 s.now.2 x

theorem pullBlind_afterHalf (n : BitCount) (timeout : Micros) (i : Nat) (half : Half) (buf : List Byte)
    (d : Micros) : PullBlind (afterHalf p n timeout i half buf d) := by
  intro s x
  rcases afterHalf_cases p n timeout i half buf d s with
    ⟨h, he⟩ | ⟨h, rfl, he⟩ | ⟨pivot, h, rfl, hn, he⟩ | ⟨pivot, h, rfl, hn, he⟩
  · rw [he, afterHalf_of_le h]
    exact ⟨x, rfl⟩
  · rw [he, afterHalf_pivot h]
    exact ⟨x, rfl⟩
  · rw [he, afterHalf_pulse_next h hn]
    exact ⟨x, rfl⟩
  · rw [he, afterHalf_pulse_last h hn]
    exact ⟨x, rfl⟩

theorem pullBlind_decodePass (n : BitCount) (timeout : Micros) (i : Nat) (half : Half) (t0 e : Clock)
    (buf : List Byte) : PullBlind (decodePass p n timeout i half t0 e buf) := by
  intro s x
  rcases decodePass_cases p n timeout i half t0 e buf s with ⟨h, he⟩ | ⟨h, ht, he⟩ | ⟨h, ht, he⟩
  · rw [he, decodePass_of_ne (s := s.withPull x) h]
    exact pullBlind_afterHalf n timeout i half buf _ (s.sample p).2 x
  · rw [he, decodePass_of_late (s := s.withPull x) h ht]
    exact pullBlind_afterHalf n timeout i half buf _ (s.sample p).2.now.2 x
  · rw [he, decodePass_of_again (s := s.withPull x) h ht]
    exact ⟨x, rfl⟩

theorem pullBlind_decodeBody (n : BitCount) (timeout : Micros) : PullBlind (decodeBody p n timeout) := by
  intro s x
  by_cases hn : n = 0
  · subst hn
    exact ⟨x, rfl⟩
  · rw [decodeBody_eq p hn, decodeBody_eq p hn]
    exact pullBlind_decodePass n timeout 0 .pivot s.nextReading 0 _ s.now.2 x

/-! ### Commands -/

/-- A command's step is blind to the pulls when its beginning is, and its going on from every phase. -/
theorem runPhase_withPull {cmd : Instr} {s t : State} {x : Table Pull} {start : State → State}
    {resume resume' : Phase → Option State} (hstart : PullBlind start)
    (hresume : ∀ ph t, resume ph = some t → ∃ y, resume' ph = some (t.withPull y))
    (h : runPhase cmd s start resume = .next t) :
    ∃ y, runPhase cmd (s.withPull x) start resume' = .next (t.withPull y) := by
  rcases runPhase_next h with ⟨hs, rfl⟩ | ⟨ph, hs, hr⟩
  · obtain ⟨y, hy⟩ := hstart s x
    exact ⟨y, by rw [runPhase_idle (s := s.withPull x) hs, hy]⟩
  · obtain ⟨y, hy⟩ := hresume ph t hr
    exact ⟨y, runPhase_busy (s := s.withPull x) hs hy⟩

theorem runAtOnce_withPull {cmd : Instr} {s t : State} {x : Table Pull} {body : State → State}
    (hbody : PullBlind body) (h : runAtOnce cmd s body = .next t) :
    ∃ y, runAtOnce cmd (s.withPull x) body = .next (t.withPull y) :=
  runPhase_withPull (resume := fun _ => none) hbody (fun _ _ hr => nomatch hr) h

/-- Settles O24: the beginning of every command and each of its passes are blind to the pulls. -/
theorem pullIsGhost : Obligations.PullIsGhost := by
  intro i s t x h
  change ∃ y, exec i (s.withPull x) = .next (t.withPull y)
  cases i with
  | init => exact runAtOnce_withPull pullBlind_initBody h
  | teardown => exact runAtOnce_withPull pullBlind_teardownBody h
  | setMode p m => exact runAtOnce_withPull (pullBlind_checked (pullBlind_setModeBody m)) h
  | getMode p => exact runAtOnce_withPull (pullBlind_checked pullBlind_getModeBody) h
  | read p => exact runAtOnce_withPull (pullBlind_checked pullBlind_readBody) h
  | write p l => exact runAtOnce_withPull (pullBlind_checked (pullBlind_writeBody l)) h
  | setPull p m =>
    refine runPhase_withPull (pullBlind_checked (pullBlind_setPullBody m)) (fun ph u hr => ?_) h
    cases ph with
    | settle t0 =>
      obtain rfl := Option.some.inj hr
      obtain ⟨y, hy⟩ := pullBlind_settlePass m t0 s x
      exact ⟨y, congrArg some hy⟩
    | _ => cases hr
  | triggerPulse p l d =>
    refine runPhase_withPull (pullBlind_checked (pullBlind_triggerPulseBody l d)) (fun ph u hr => ?_) h
    cases ph with
    | hold t0 =>
      obtain rfl := Option.some.inj hr
      obtain ⟨y, hy⟩ := pullBlind_holdPass l d t0 s x
      exact ⟨y, congrArg some hy⟩
    | _ => cases hr
  | readPulse p target timeout =>
    refine runPhase_withPull (pullBlind_checked (pullBlind_readPulseBody target timeout))
      (fun ph u hr => ?_) h
    cases ph with
    | poll t0 e =>
      obtain rfl := Option.some.inj hr
      obtain ⟨y, hy⟩ := pullBlind_readPulsePass target timeout t0 e s x
      exact ⟨y, congrArg some hy⟩
    | _ => cases hr
  | decode p n timeout =>
    refine runPhase_withPull (pullBlind_checked (pullBlind_decodeBody n timeout)) (fun ph u hr => ?_) h
    cases ph with
    | bit i half t0 e buf =>
      obtain rfl := Option.some.inj hr
      obtain ⟨y, hy⟩ := pullBlind_decodePass n timeout i half t0 e buf s x
      exact ⟨y, congrArg some hy⟩
    | _ => cases hr

end Sys2Proof.Machine
end

section
/-! PROOFS. A step as a chain of the shared operations of Machine/Ops.lean: what each operation keeps, every
step keeps (R80). -/

namespace Sys2Proof.Machine

open Relation (ReflTransGen)

/-- One shared operation from the state `s`, on a pin that satisfies `P`. -/
inductive Act (P : Pin → Prop) (s : State) : State → Prop where
  | issue {w ws} : Act P s (s.issue w ws)
  | now : Act P s s.now.2
  | sample {p} : P p → Act P s (s.sample p).2
  | drive {p l} : P p → Act P s (s.drive p l)
  | readFsel {p} : P p → Act P s (s.readFsel (fselCell p.toNat)).2
  | writeFsel {p v} : P p → Act P s (s.writeFsel (fselCell p.toNat) v)
  | writePud {v} : v.toNat ≤ 2 → Act P s (s.writePud v)
  | writePudclk {p v} : P p → v = 0 ∨ v = pinMask p.toNat → Act P s (s.writePudclk (bank p.toNat) v)
  | forgetPulls {p} : Act P s (s.forgetPulls p)
  | knowPull {p m} : P p → Act P s { s with pull := Table.set s.pull p.toNat m }
  | draw {e} : Act P s { s with env := e }
  | map : Act P s
      { s with port := .mapped, cells := s.drawCells (drawnCells s.cfg), latch := s.drawLatch, pull := [] }
  | release : s.port = .mapped → Act P s { s with port := .released }
  | wait {i ph} : Act P s (s.wait i ph)
  | finish {r} : Act P s (s.finish r)

variable {P : Pin → Prop} {s t s1 s2 : State} {i cmd : Instr} {ph : Phase}

/-- A chain of shared operations. -/
abbrev Acts (P : Pin → Prop) : State → State → Prop := ReflTransGen (Act P)

/-- The operations that SET_PULL makes before its first pass. -/
theorem acts_assertPull {p : Pin} (hp : P p) (m : Pull) : Acts P s (s.assertPull p m) :=
  ((ReflTransGen.single .forgetPulls).tail (.writePud (by cases m <;> decide))).tail
    (.writePudclk hp (.inr rfl))

theorem acts_releasePull {p : Pin} (hp : P p) (m : Pull) : Acts P s (s.releasePull p m) :=
  (((ReflTransGen.single (.writePud (by decide))).tail (.writePudclk hp (.inl rfl))).tail (.knowPull hp)).tail
    .finish

theorem PassFrom.acts (hP : ∀ p, cmd.pin? = some p → P p) (h : PassFrom s cmd ph s1) : Acts P s s1 := by
  cases h with
  | resumed => exact .refl
  | setPull => exact (acts_assertPull (hP _ rfl) _).tail .now
  | triggerPulse => exact (ReflTransGen.single (.drive (hP _ rfl))).tail .now
  | readPulse | decode => exact .single .now

theorem Measured.acts {p : Pin} {target : Level} {timeout d : Micros} {t0 e : Clock} (hp : P p)
    (h : Measured s1 p target timeout t0 e d s2) : Acts P s1 s2 := by
  cases h with
  | changed => exact .single (.sample hp)
  | late => exact (ReflTransGen.single (.sample hp)).tail .now

/-- Every effect of a command on an allowed pin is a chain of operations on it. -/
theorem Effect.acts (hP : ∀ p, i.pin? = some p → P p) (h : Effect s i t) : Acts P s t := by
  cases h with
  | turnedAway => exact .single .finish
  | initFails => exact (ReflTransGen.single .draw).tail .finish
  | initMaps => exact ((ReflTransGen.single .draw).tail .map).tail .finish
  | teardown _ hport => exact (ReflTransGen.single (.release hport)).tail .finish
  | setMode =>
    exact ((ReflTransGen.single (.readFsel (hP _ rfl))).tail (.writeFsel (hP _ rfl))).tail .finish
  | getMode => exact (ReflTransGen.single (.readFsel (hP _ rfl))).tail .finish
  | read => exact (ReflTransGen.single (.sample (hP _ rfl))).tail .finish
  | write => exact (ReflTransGen.single (.drive (hP _ rfl))).tail .finish
  | settleWaits hp | holdWaits hp => exact ((hp.acts hP).tail .now).tail .wait
  | settleEnds hp => exact ((hp.acts hP).tail .now).trans (acts_releasePull (hP _ rfl) _)
  | holdEnds hp => exact (((hp.acts hP).tail .now).tail (.drive (hP _ rfl))).tail .finish
  | pollWaits hp | bitWaits hp => exact (((hp.acts hP).tail (.sample (hP _ rfl))).tail .now).tail .wait
  | decodeNothing => exact .single .finish
  | pollEnds hp hm | lastPulseEnds hp hm =>
    exact ((hp.acts hP).trans (hm.acts (hP _ rfl))).tail .finish
  | bitFails hp hm => exact (((hp.acts hP).trans (hm.acts (hP _ rfl))).tail .draw).tail .finish
  | pivotEnds hp hm | pulseEnds hp hm =>
    exact (((hp.acts hP).trans (hm.acts (hP _ rfl))).tail .now).tail .wait

/-- A step of any block is a chain of operations. -/
theorem step_acts (h : step s = .next t) : Acts (fun _ => True) s t := by
  obtain ⟨-, ⟨-, -, rfl⟩ | ⟨w, ws, -, -, rfl⟩ | ⟨w, ws, i, -, -, -, hexec⟩ | ⟨cmd, ph, -, hexec⟩⟩ :=
    step_next h
  · exact .refl
  · exact (ReflTransGen.single .issue).tail .finish
  · exact (ReflTransGen.single .issue).trans ((exec_effect hexec).acts fun _ _ => trivial)
  · exact (exec_effect hexec).acts fun _ _ => trivial

/-- A command's effect in a block with a sound sequencer is a chain of operations on pins in range. -/
theorem Effect.acts_of_seqFits (h : Effect s i t) (hfits : s.seqFits = true) :
    Acts (fun p => p.toNat < s.cfg.numPins) s t := by
  rcases h.raise_or_pin_lt hfits with ⟨c, rfl⟩ | hpin
  · exact .single .finish
  · exact h.acts hpin

/-- A step of a block with a sound sequencer is a chain of operations on pins in range. -/
theorem step_acts_of_seqFits (hfits : s.seqFits = true) (h : step s = .next t) :
    Acts (fun p => p.toNat < s.cfg.numPins) s t := by
  obtain ⟨-, ⟨-, -, rfl⟩ | ⟨w, ws, -, -, rfl⟩ | ⟨w, ws, i, hs, -, -, hexec⟩ | ⟨cmd, ph, -, hexec⟩⟩ :=
    step_next h
  · exact .refl
  · exact (ReflTransGen.single .issue).tail .finish
  · have hidle : (s.issue w ws).seqFits = true := by simp [State.seqFits, hs]
    exact (ReflTransGen.single .issue).trans ((exec_effect hexec).acts_of_seqFits hidle)
  · exact (exec_effect hexec).acts_of_seqFits hfits

/-- What every operation keeps, a chain of operations keeps. -/
theorem Acts.keep {Q : State → Prop} (hact : ∀ u v, Act P u v → Q u → Q v) (h : Acts P s t)
    (hs : Q s) : Q t := by
  induction h with
  | refl => exact hs
  | tail _ hlast ih => exact hact _ _ hlast ih

/-! ### The history only grows (R80, R86) -/

theorem Act.history_suffix (h : Act P s t) : s.history <:+ t.history := by
  cases h with
  | sample => exact List.suffix_append _ _
  | forgetPulls | knowPull | draw | map | release | wait => exact List.suffix_rfl
  | drive =>
    rw [State.drive_history]
    exact List.suffix_cons _ _
  | issue | now | readFsel | writeFsel | writePud | writePudclk | finish => exact List.suffix_cons _ _

/-- Settles O21: no operation drops an event. -/
theorem historyOnlyGrows : Obligations.HistoryOnlyGrows := by
  intro s t h
  obtain ⟨es, hes⟩ : s.history <:+ t.history :=
    (step_acts h).keep (Q := fun u => s.history <:+ u.history)
      (fun _ _ hact hu => hu.trans hact.history_suffix) List.suffix_rfl
  exact ⟨es, hes.symm⟩

/-! ### The clock (R45) -/

theorem readings_append (es es' : List Event) : readings (es ++ es') = readings es ++ readings es' := by
  induction es with
  | nil => rfl
  | cons e es ih => cases e <;> simp [readings, ih]

/-- A sample reads no clock. -/
theorem readings_sampleEvents (s : State) (p : Pin) : readings (s.sampleEvents p) = [] := by
  rw [State.sampleEvents]
  split_ifs <;> rfl

/-- An operation is a clock reading, or it leaves the clock and the readings alone. -/
theorem Act.now_or_clock_eq (h : Act P s t) :
    t = s.now.2 ∨ (t.clock = s.clock ∧ readings t.history = readings s.history) := by
  cases h with
  | now => exact .inl rfl
  | sample =>
    exact .inr ⟨rfl, by rw [State.sample_history, readings_append, readings_sampleEvents, List.nil_append]⟩
  | drive => exact .inr ⟨State.drive_clock _ _ _, by rw [State.drive_history, readings]⟩
  | issue | readFsel | writeFsel | writePud | writePudclk | forgetPulls | knowPull | draw | map | release |
    wait | finish => exact .inr ⟨rfl, rfl⟩

/-- A clock reading keeps the readings in order: it is at or above the last one. -/
theorem clockOrdered_now (h : s.clockOrdered = true) : s.now.2.clockOrdered = true := by
  rw [State.clockOrdered, decide_eq_true_eq] at h ⊢
  have hlast : ∀ t ∈ s.clock :: readings s.history, t ≤ s.nextReading := by
    intro t ht
    rcases List.mem_cons.1 ht with rfl | ht
    · exact s.le_nextReading
    · exact BitVec.le_trans (List.rel_of_pairwise_cons h ht) s.le_nextReading
  have hordered := (List.pairwise_cons.1 h).2
  simp only [State.now_clock, State.now_history, readings, List.pairwise_cons, List.mem_cons,
    forall_eq_or_imp, BitVec.le_refl, true_and]
  exact ⟨fun t ht => hlast t (.tail _ ht), fun t ht => hlast t (.tail _ ht), hordered⟩

/-- Settles O19: an operation that moves the clock is a reading. -/
theorem clockNeverMovesBackward : Obligations.ClockNeverMovesBackward := by
  intro s t hordered h
  refine (step_acts h).keep (Q := fun u => u.clockOrdered = true ∧ s.clock ≤ u.clock) ?_
    ⟨hordered, BitVec.le_refl _⟩
  rintro u v hact ⟨hu, hle⟩
  rcases hact.now_or_clock_eq with rfl | ⟨hclock, hreadings⟩
  · exact ⟨clockOrdered_now hu, BitVec.le_trans hle u.le_nextReading⟩
  · rw [State.clockOrdered, hclock, hreadings]
    exact ⟨hu, hle⟩

/-! ### Events touch named cells only (R25, R32, R34, R36, R38) -/

theorem Act.cfg_eq (h : Act P s t) : t.cfg = s.cfg := by
  cases h with
  | drive => exact State.drive_cfg _ _ _
  | _ => rfl

theorem fits_read {c : Config} (hv : c.Valid) {n : CellName} (hn : n.exists c = true)
    (hread : n.readable = true) (v : Word) : (Event.read (n.index c) v).fits c = true := by
  simp [Event.fits, CellName.index_lt hv hn, CellName.at_index hv hn, hread]

theorem fits_write {c : Config} (hv : c.Valid) {n : CellName} (hn : n.exists c = true)
    (hwrite : n.writable = true) {v : Word} (hacc : n.accepts v = true) :
    (Event.write (n.index c) v).fits c = true := by
  simp [Event.fits, CellName.index_lt hv hn, CellName.at_index hv hn, hwrite, hacc]

theorem accepts_pudclk (b : Nat) {p : Nat} {v : Word} (h : v = 0 ∨ v = pinMask p) :
    (CellName.pudclk b).accepts v = true := by
  simp only [CellName.accepts, Bool.or_eq_true, decide_eq_true_eq, List.any_eq_true, List.mem_range]
  exact h.imp_right fun h => ⟨bitpos p, bitpos_lt p, h⟩

theorem writable_driveCell (p : Nat) (l : Level) : (driveCell p l).writable = true := by
  cases l <;> rfl

theorem accepts_driveCell (p : Nat) (l : Level) (v : Word) : (driveCell p l).accepts v = true := by
  cases l <;> rfl

/-- The events of a sample of a pin in range (R32). -/
theorem fits_sampleEvents (hv : s.cfg.Valid) {p : Pin} (hp : p.toNat < s.cfg.numPins) :
    ∀ e ∈ s.sampleEvents p, e.fits s.cfg = true := by
  have hlev : (CellName.lev (bank p.toNat)).exists s.cfg = true := decide_eq_true (bank_lt_banks hp)
  have hsample : ∀ l, (Event.sample p l).fits s.cfg = true := fun _ => decide_eq_true hp
  rw [State.sampleEvents]
  split_ifs <;> simp [fits_read hv hlev rfl, hsample]

/-- The events that an operation on a pin in range adds. -/
theorem Act.history_fits (hv : s.cfg.Valid) (h : Act (fun p => p.toNat < s.cfg.numPins) s t)
    (hs : ∀ e ∈ s.history, e.fits s.cfg = true) : ∀ e ∈ t.history, e.fits s.cfg = true := by
  cases h with
  | sample hp => exact List.forall_mem_append.2 ⟨fits_sampleEvents hv hp, hs⟩
  | drive hp =>
    rw [State.drive_history]
    exact List.forall_mem_cons.2
      ⟨fits_write hv (exists_driveCell hp _) (writable_driveCell _ _) (accepts_driveCell _ _ _), hs⟩
  | readFsel hp => exact List.forall_mem_cons.2 ⟨fits_read hv (exists_fselCell hp) rfl _, hs⟩
  | writeFsel hp => exact List.forall_mem_cons.2 ⟨fits_write hv (exists_fselCell hp) rfl rfl, hs⟩
  | writePud hc =>
    exact List.forall_mem_cons.2 ⟨fits_write hv (n := .pud) rfl rfl (decide_eq_true hc), hs⟩
  | writePudclk hp hc =>
    exact List.forall_mem_cons.2
      ⟨fits_write hv (n := .pudclk _) (decide_eq_true (bank_lt_banks hp)) rfl (accepts_pudclk _ hc), hs⟩
  | issue | now | finish => exact List.forall_mem_cons.2 ⟨rfl, hs⟩
  | forgetPulls | knowPull | draw | map | release | wait => exact hs

/-- Settles O18: every operation on a pin in range adds events that fit. -/
theorem stepKeepsEventsFit : Obligations.StepKeepsEventsFit := by
  rintro s t ⟨-, -, -, hfits⟩ hs h
  have hv : s.cfg.Valid := (step_next h).1
  have hkeep := (step_acts_of_seqFits hfits h).keep
    (Q := fun u => u.cfg = s.cfg ∧ ∀ e ∈ u.history, e.fits u.cfg = true) ?_ ⟨rfl, hs⟩
  · exact hkeep.2
  · rintro u v hact ⟨hcfg, hu⟩
    rw [← hcfg] at hact hv
    refine ⟨hact.cfg_eq.trans hcfg, ?_⟩
    rw [hact.cfg_eq]
    exact hact.history_fits hv hu

end Sys2Proof.Machine
end

section
/-! PROOFS. Every step keeps the state sound: the tables by the operations, the sequencer by the passes
(R22, R37, R39, R170, R200, R220, R240). -/

namespace Sys2Proof.Machine

variable {P : Pin → Prop} {s t s1 s2 : State} {i cmd : Instr} {ph : Phase}

/-! ### The tables -/

/-- The tables of a sound state. -/
def State.TablesFit (s : State) : Prop := Cells.Wf s.cells ∧ s.LatchFits ∧ s.PullFits

theorem drawCells_wf (h : Cells.Wf s.cells) (cs : List CellName) : Cells.Wf (s.drawCells cs) := by
  rw [State.drawCells]
  generalize s.cells = t at h
  induction cs generalizing t with
  | nil => exact h
  | cons c cs ih => exact ih _ (Cells.write_wf h _ _)

/-- INIT draws the latches of all pins (R39). -/
theorem latchFits_drawLatch (hlatch : t.latch = s.drawLatch) (hcfg : t.cfg = s.cfg) : t.LatchFits := by
  refine ⟨?_, fun e he => ?_, fun _ p hp => ?_⟩
  · rw [hlatch]
    exact Table.range_wf _ _
  · rw [hlatch, State.drawLatch] at he
    obtain ⟨p, hp, rfl⟩ := List.mem_map.1 he
    exact hcfg ▸ List.mem_range.1 hp
  · rw [hlatch, State.get?_drawLatch, if_pos (hcfg ▸ hp), Option.isSome_some]

/-- Driving a pin writes latches of pins in range, and drops none. -/
theorem latchFits_drive (h : s.LatchFits) (p : Pin) (l : Level) : (s.drive p l).LatchFits := by
  obtain ⟨hwf, hlt, hall⟩ := h
  simp only [State.LatchFits, State.drive_latch, State.drive_cfg, State.drive_port]
  refine ⟨latchBits_wf _ _ _ _ hwf _, latchBits_lt _ _ _ _ hlt _, fun hport q hq => ?_⟩
  rw [get?_latchBits _ _ _ _ _ _ (le_refl 32)]
  split_ifs
  · rfl
  · exact hall hport q hq

/-- Every operation on a pin in range keeps the tables' form. -/
theorem Act.tablesFit (hP : ∀ p, P p → p.toNat < s.cfg.numPins) (h : Act P s t) (hs : s.TablesFit) :
    t.TablesFit := by
  obtain ⟨hcells, hlatch, hpull⟩ := hs
  cases h with
  | issue | now | sample | readFsel | draw | wait | finish => exact ⟨hcells, hlatch, hpull⟩
  | drive _ =>
    refine ⟨?_, latchFits_drive hlatch _ _, ?_⟩
    · rwa [State.drive_cells]
    · rwa [State.PullFits, State.drive_pull, State.drive_cfg]
  | writeFsel | writePud | writePudclk => exact ⟨Cells.write_wf hcells _ _, hlatch, hpull⟩
  | forgetPulls =>
    exact ⟨hcells, hlatch, Table.filter_wf hpull.1 _, fun e he => hpull.2 e (List.mem_of_mem_filter he)⟩
  | knowPull hp =>
    refine ⟨hcells, hlatch, Table.set_wf hpull.1 _ _, fun e he => ?_⟩
    rcases Table.mem_set he with rfl | he
    · exact hP _ hp
    · exact hpull.2 e he
  | map => exact ⟨drawCells_wf hcells _, latchFits_drawLatch rfl rfl, List.Pairwise.nil, by simp⟩
  | release hport =>
    obtain ⟨hwf, hlt, hall⟩ := hlatch
    exact ⟨hcells, ⟨hwf, hlt, fun _ => hall (by simp [hport])⟩, hpull⟩

theorem step_tablesFit (hfits : s.seqFits = true) (hs : s.TablesFit) (h : step s = .next t) :
    t.TablesFit := by
  have hkeep := (step_acts_of_seqFits hfits h).keep
    (Q := fun u => u.cfg = s.cfg ∧ u.TablesFit) ?_ ⟨rfl, hs⟩
  · exact hkeep.2
  · rintro u v hact ⟨hcfg, hu⟩
    exact ⟨hact.cfg_eq.trans hcfg, hact.tablesFit (fun p hp => hcfg ▸ hp) hu⟩

/-! ### The sequencer -/

/-- What a phase says before a pass is made from the state `s`. It leaves out that a measurement is below
its timeout, which a timeout of 0 breaks before the first pass (R225, R247). -/
def State.PassFits (s : State) : Instr → Phase → Prop
  | .setPull _ _, .settle t0 => t0 ≤ s.clock
  | .triggerPulse _ _ _, .hold t0 => t0 ≤ s.clock
  | .readPulse _ _ timeout, .poll t0 e => t0 ≤ s.clock ∧ e ≤ timeout.setWidth 64
  | .decode _ n timeout, .bit i half t0 _ buf =>
    t0 ≤ s.clock ∧ i < n.toNat ∧ buf.length = byteCount n.toNat ∧
      ∀ pivot, half = .pulse pivot → pivot < timeout
  | _, _ => False

theorem passFits_of_phaseFits (h : s.phaseFits cmd ph = true) : s.PassFits cmd ph := by
  cases cmd with
  | setPull p m =>
    cases ph with
    | settle t0 => exact of_decide_eq_true (p := t0 ≤ s.clock) h
    | _ => exact absurd h Bool.false_ne_true
  | triggerPulse p l d =>
    cases ph with
    | hold t0 => exact of_decide_eq_true (p := t0 ≤ s.clock) h
    | _ => exact absurd h Bool.false_ne_true
  | readPulse p target timeout =>
    cases ph with
    | poll t0 e =>
      obtain ⟨ht0, -, he⟩ := of_decide_eq_true h
      exact ⟨ht0, BitVec.le_of_lt he⟩
    | _ => exact absurd h Bool.false_ne_true
  | decode p n timeout =>
    cases ph with
    | bit i half t0 e buf =>
      obtain ⟨hmeasure, hhalf⟩ := Bool.and_eq_true_iff.1 h
      obtain ⟨ht0, -, -, hi, hbuf⟩ := of_decide_eq_true hmeasure
      refine ⟨ht0, hi, hbuf, ?_⟩
      rintro pivot rfl
      exact of_decide_eq_true hhalf
    | _ => exact absurd h Bool.false_ne_true
  | _ => exact absurd h Bool.false_ne_true

/-- A pass of a sound block is made from a phase that fits the command. -/
theorem PassFrom.passFits (h : PassFrom s cmd ph s1) (hfits : s.seqFits = true) :
    s1.PassFits cmd ph := by
  cases h with
  | resumed hs => exact passFits_of_phaseFits (State.seqFits_busy hfits hs).2.2
  | setPull => exact BitVec.le_refl _
  | triggerPulse => exact BitVec.le_refl _
  | readPulse => exact ⟨BitVec.le_refl _, BitVec.le_def.2 (Nat.zero_le _)⟩
  | decode _ hn =>
    refine ⟨BitVec.le_refl _, ?_, List.length_replicate, fun pivot hpivot => nomatch hpivot⟩
    exact Nat.pos_of_ne_zero fun h0 => hn (BitVec.eq_of_toNat_eq h0)

/-- A command that waits in the state `t` is sound there when its phase is, since its checks still hold. -/
theorem PassFrom.seqFits_wait {ph' : Phase} (h : PassFrom s cmd ph s1) (hfits : s.seqFits = true)
    (hport : t.port = s1.port) (hcfg : t.cfg = s1.cfg)
    (hphase : t.phaseFits cmd ph' = true) : (t.wait cmd ph').seqFits = true := by
  have hpin : ∀ p, cmd.pin? = some p → p.toNat < t.cfg.numPins := fun p hp => by
    rw [hcfg, h.cfg_eq]
    exact h.pin_lt hfits hp
  have hmapped : t.port = .mapped := by rw [hport, h.port_eq, h.mapped hfits]
  have hphase : (t.wait cmd ph').phaseFits cmd ph' = true := hphase
  simp only [State.seqFits, State.wait_seq, State.wait_port, State.wait_cfg, hmapped, hphase,
    decide_true, Bool.true_and, Bool.and_true, Option.all_eq_true]
  exact fun p hp => decide_eq_true (hpin p hp)

/-- The phase in which a measurement of a bit begins fits (R240). -/
theorem phaseFits_beginHalf (u : State) (p : Pin) {n : BitCount} {timeout d : Micros} {j : Nat}
    {half : Half} {buf : List Byte} (hd : d < timeout) (hj : j < n.toNat)
    (hbuf : buf.length = byteCount n.toNat) (hhalf : ∀ pivot, half = .pulse pivot → pivot < timeout) :
    u.now.2.phaseFits (.decode p n timeout) (.bit j half u.nextReading 0 buf) = true := by
  have hpos : (0 : Clock) < timeout.setWidth 64 := by bv_omega
  refine Bool.and_eq_true_iff.2 ⟨decide_eq_true ⟨BitVec.le_refl _, ?_, hpos, hj, hbuf⟩, ?_⟩
  · exact (BitVec.sub_self _).symm
  · cases half with
    | pivot => rfl
    | pulse pivot => exact decide_eq_true (hhalf pivot rfl)

theorem length_setBufferBit (buf : List Byte) (i : Nat) : (setBufferBit buf i).length = buf.length :=
  List.length_modify _ _ _

/-- A decoded bit keeps the buffer's length, whichever it is (R240). -/
theorem length_ite_setBufferBit (b : Bool) (buf : List Byte) (i : Nat) :
    (if b then setBufferBit buf i else buf).length = buf.length := by
  cases b
  · rfl
  · exact length_setBufferBit buf i

/-- After the effect of a command the sequencer is sound: it is Idle, or the command waits at a phase that
fits. -/
theorem Effect.seqFits (h : Effect s i t) (hfits : s.seqFits = true) : t.seqFits = true := by
  cases h with
  | settleWaits hp =>
    refine hp.seqFits_wait hfits rfl rfl (decide_eq_true ?_)
    exact BitVec.le_trans (hp.passFits hfits) (State.le_nextReading _)
  | holdWaits hp =>
    refine hp.seqFits_wait hfits rfl rfl (decide_eq_true ?_)
    exact BitVec.le_trans (hp.passFits hfits) (State.le_nextReading _)
  | pollWaits hp hagain =>
    obtain ⟨ht0, -⟩ := hp.passFits hfits
    refine hp.seqFits_wait hfits rfl rfl (decide_eq_true ⟨?_, rfl, hagain.2⟩)
    exact BitVec.le_trans ht0 (State.le_nextReading (State.sample _ _).2)
  | @bitWaits p n timeout i half t0 e buf s1 hp hagain =>
    obtain ⟨ht0, hi, hbuf, hhalf⟩ := hp.passFits hfits
    refine hp.seqFits_wait hfits rfl rfl (Bool.and_eq_true_iff.2 ⟨decide_eq_true ?_, ?_⟩)
    · exact ⟨BitVec.le_trans ht0 (State.le_nextReading (s1.sample p).2), rfl, hagain.2, hi, hbuf⟩
    · cases half with
      | pivot => rfl
      | pulse pivot => exact decide_eq_true (hhalf pivot rfl)
  | pivotEnds hp hm hd =>
    obtain ⟨-, hi, hbuf, -⟩ := hp.passFits hfits
    refine hp.seqFits_wait hfits hm.port_eq hm.cfg_eq (phaseFits_beginHalf _ _ hd hi hbuf ?_)
    rintro pivot ⟨⟩
    exact hd
  | pulseEnds hp hm hd hnext =>
    obtain ⟨-, -, hbuf, -⟩ := hp.passFits hfits
    refine hp.seqFits_wait hfits hm.port_eq hm.cfg_eq (phaseFits_beginHalf _ _ hd hnext ?_ ?_)
    · rw [length_ite_setBufferBit, hbuf]
    · rintro pivot ⟨⟩
  | turnedAway | initFails | initMaps | teardown | setMode | getMode | read | write | settleEnds |
    holdEnds | pollEnds | decodeNothing | bitFails | lastPulseEnds => rfl

theorem step_seqFits (hfits : s.seqFits = true) (h : step s = .next t) : t.seqFits = true := by
  obtain ⟨-, ⟨-, -, rfl⟩ | ⟨w, ws, -, -, rfl⟩ | ⟨w, ws, i, hs, -, -, hexec⟩ | ⟨cmd, ph, -, hexec⟩⟩ :=
    step_next h
  · exact hfits
  · rfl
  · exact (exec_effect hexec).seqFits (by simp [State.seqFits, hs])
  · exact (exec_effect hexec).seqFits hfits

/-- Settles O17: the operations keep the tables in form, and the passes leave the sequencer at a phase that
fits. -/
theorem stepKeepsInv : Obligations.StepKeepsInv := by
  rintro s t ⟨hcells, hlatch, hpull, hfits⟩ h
  obtain ⟨hcells', hlatch', hpull'⟩ := step_tablesFit hfits ⟨hcells, hlatch, hpull⟩ h
  exact ⟨hcells', hlatch', hpull', step_seqFits hfits h⟩

end Sys2Proof.Machine
end

section
/-! PROOFS. SET_MODE's effect on the modes and the pads, and GET_MODE (R40, R160 to R165). -/

namespace Sys2Proof.Machine

variable {s t : State} {p : Pin}

/-! ### Modes after SET_MODE (R160, R161) -/

theorem setModeBody_cells (p : Pin) (m : Mode) (s : State) :
    (setModeBody p m s).cells =
      Cells.write s.cells (CellName.index s.cfg (.fsel (fselCell p.toNat)))
        (withModeField (s.cell (.fsel (fselCell p.toNat))) (fselShift p.toNat) m.code) := rfl

/-- SET_MODE sets its pin's code and keeps every other pin's, in the same cell and in the others. -/
theorem modeCode_setModeBody (p : Pin) (m : Mode) (s : State) (q : Nat) :
    (setModeBody p m s).modeCode q = if q = p.toNat then m.code else s.modeCode q := by
  have hlt : p.toNat % 10 < 10 := Nat.mod_lt _ (by decide)
  have hcell : (setModeBody p m s).cell (.fsel (fselCell q)) =
      if fselCell q = fselCell p.toNat then
        withModeField (s.cell (.fsel (fselCell p.toNat))) (fselShift p.toNat) m.code
      else s.cell (.fsel (fselCell q)) := by
    rw [State.cell, setModeBody_cells, Cells.read_write]
    exact if_congr Nat.add_left_cancel_iff rfl rfl
  rw [State.modeCode, hcell]
  split_ifs with hsame hq hq
  · rw [hq]
    exact modeField_withModeField _ _ _ hlt
  · have hfield : q % 10 ≠ p.toNat % 10 := by
      rw [fselCell, fselCell] at hsame
      omega
    rw [State.modeCode, hsame]
    exact modeField_withModeField_other _ _ hlt hfield
  · exact absurd (congrArg fselCell hq) hsame
  · rfl

/-- The only next state of SET_MODE on a ready pin. -/
theorem eq_setModeBody_of_exec {m : Mode} (hr : s.Ready p) (h : exec (.setMode p m) s = .next t) :
    t = setModeBody p m s := by
  rw [exec_setMode_of_ready hr] at h
  exact (Host.Outcome.next.inj h).symm

theorem ready_setModeBody (hr : s.Ready p) (m : Mode) : (setModeBody p m s).Ready p := by
  obtain ⟨-, hport, hpin⟩ := hr
  exact ⟨rfl, hport, hpin⟩

/-! ### GET_MODE (R165) -/

/-- GET_MODE's complete next state. -/
theorem getModeBody_eq (hidle : s.seq = .idle) :
    getModeBody p s =
      { s with
        history :=
          .result ⟨.ok, .mode (s.modeCode p.toNat)⟩ ::
            .read (CellName.index s.cfg (.fsel (fselCell p.toNat))) (s.cell (.fsel (fselCell p.toNat))) ::
            s.history } := by
  cases s
  cases hidle
  rfl

/-- Settles O33: GET_MODE's next state, written out. -/
theorem getModeReturnsField : Obligations.GetModeReturnsField := by
  intro s p hr i v
  rw [exec_getMode_of_ready hr, getModeBody_eq hr.1]
  rfl

/-- Settles O32: the codes after SET_MODE, of which GET_MODE answers its pin's. -/
theorem setModeIsolatesPins : Obligations.SetModeIsolatesPins := by
  intro s t p m hr h
  obtain rfl := eq_setModeBody_of_exec hr h
  have hcode : (setModeBody p m s).modeCode p.toNat = m.code := by
    rw [modeCode_setModeBody, if_pos rfl]
  refine ⟨?_, fun q hq => ?_, _, exec_getMode_of_ready (ready_setModeBody hr m), ?_⟩
  · rw [State.mode, hcode, Mode.ofCode_code]
  · rw [modeCode_setModeBody, if_neg hq]
  · rw [getModeBody_eq rfl, hcode]
    rfl

/-- Settles O34: the pad follows the mode, and SET_MODE moves no latch. -/
theorem setModeDrivesPadExactlyInOutput : Obligations.SetModeDrivesPadExactlyInOutput := by
  intro s t p m hr h
  obtain rfl := eq_setModeBody_of_exec hr h
  have hpad : ∀ q, (setModeBody p m s).padDrive q =
      if q < s.cfg.numPins ∧ (setModeBody p m s).mode q = .output then some (s.latchOf q) else none :=
    fun _ => rfl
  refine ⟨?_, fun q hq => ?_⟩
  · rw [hpad, State.mode, modeCode_setModeBody, if_pos rfl, Mode.ofCode_code]
    simp only [hr.2.2, true_and]
  · rw [hpad, State.mode, modeCode_setModeBody, if_neg hq]
    rfl

end Sys2Proof.Machine
end

section
/-! PROOFS. Commands that wait: their begin is their first pass from the state in which they wait, and a run
of passes that go on only reads the clock (R11, R22, log 1). -/

namespace Sys2Proof.Machine

variable {s t : State} {p : Pin}

/-! ### A pass does not read the sequencer -/

theorem settlePass_wait (m : Pull) (t0 : Clock) (s : State) (c : Instr) (ph : Phase) :
    settlePass p m t0 (s.wait c ph) = settlePass p m t0 s := by
  rcases settlePass_cases p m t0 s with ⟨h, he⟩ | ⟨h, he⟩
  · rw [he, settlePass_of_lt (s := s.wait c ph) h]
    rfl
  · rw [he, settlePass_of_le (s := s.wait c ph) h]
    rfl

theorem holdPass_wait (l : Level) (d : Micros) (t0 : Clock) (s : State) (c : Instr) (ph : Phase) :
    holdPass p l d t0 (s.wait c ph) = holdPass p l d t0 s := by
  rcases holdPass_cases p l d t0 s with ⟨h, he⟩ | ⟨h, he⟩
  · rw [he, holdPass_of_lt (s := s.wait c ph) h]
    rfl
  · rw [he, holdPass_of_le (s := s.wait c ph) h]
    cases l <;> rfl

theorem readPulsePass_wait (target : Level) (timeout : Micros) (t0 e : Clock) (s : State) (c : Instr)
    (ph : Phase) :
    readPulsePass p target timeout t0 e (s.wait c ph) =
      readPulsePass p target timeout t0 e s := by
  rcases readPulsePass_cases p target timeout t0 e s with ⟨h, he⟩ | ⟨h, ht, he⟩ | ⟨h, ht, he⟩
  · rw [he, readPulsePass_of_ne (s := s.wait c ph) h]
    rfl
  · rw [he, readPulsePass_of_late (s := s.wait c ph) h ht]
    rfl
  · rw [he, readPulsePass_of_again (s := s.wait c ph) h ht]
    rfl

theorem afterHalf_wait (n : BitCount) (timeout : Micros) (i : Nat) (half : Half) (buf : List Byte)
    (d : Micros) (s : State) (c : Instr) (ph : Phase) :
    afterHalf p n timeout i half buf d (s.wait c ph) = afterHalf p n timeout i half buf d s := by
  rcases afterHalf_cases p n timeout i half buf d s with
    ⟨h, he⟩ | ⟨h, rfl, he⟩ | ⟨pivot, h, rfl, hn, he⟩ | ⟨pivot, h, rfl, hn, he⟩
  · rw [he, afterHalf_of_le h]
    rfl
  · rw [he, afterHalf_pivot h]
    rfl
  · rw [he, afterHalf_pulse_next h hn]
    rfl
  · rw [he, afterHalf_pulse_last h hn]
    rfl

theorem decodePass_wait (n : BitCount) (timeout : Micros) (i : Nat) (half : Half) (t0 e : Clock)
    (buf : List Byte) (s : State) (c : Instr) (ph : Phase) :
    decodePass p n timeout i half t0 e buf (s.wait c ph) =
      decodePass p n timeout i half t0 e buf s := by
  rcases decodePass_cases p n timeout i half t0 e buf s with ⟨h, he⟩ | ⟨h, ht, he⟩ | ⟨h, ht, he⟩
  · rw [he, decodePass_of_ne (s := s.wait c ph) h]
    exact afterHalf_wait n timeout i half buf _ (s.sample p).2 c ph
  · rw [he, decodePass_of_late (s := s.wait c ph) h ht]
    exact afterHalf_wait n timeout i half buf _ (s.sample p).2.now.2 c ph
  · rw [he, decodePass_of_again (s := s.wait c ph) h ht]
    rfl

/-! ### Runs -/

/-- Runs from states that make the same step are the same. -/
theorem run_congr_step {k : Nat} (h : step s = step t) :
    Host.Core.run Sys2Proof.core (k + 1) s = Host.Core.run Sys2Proof.core (k + 1) t := by
  have h' : Sys2Proof.core.step s = Sys2Proof.core.step t := h
  simp only [Host.Core.run, h']

theorem run_one (h : step s = .next t) : Host.Core.run Sys2Proof.core 1 s = .next t := run_succ h

/-- The state after the clock readings `ts`, with the answers `rest` still to come. -/
def State.tick (s : State) (ts rest : List Clock) : State :=
  { s with
    clock := ts.getLastD s.clock,
    env := { s.env with clock := rest },
    history := (ts.map .clock).reverse ++ s.history }

/-- A reading that the environment has fixed and that does not lie below the last one. -/
theorem now_of_cons {t : Clock} {rest : List Clock} (h : s.env.clock = t :: rest) (hle : s.clock ≤ t) :
    s.now.2 = s.tick [t] rest := by
  rw [State.now, s.nextReading_of_cons h hle, Env.takeClock_of_cons h]
  rfl

/-- While each of the readings `ts` lets a waiting command go on, a run only takes them. -/
theorem run_tick {cmd : Instr} {ph : Phase} {goesOn : Clock → Prop}
    (hwait : ∀ u : State, u.seq = .busy cmd ph → goesOn u.nextReading →
      exec cmd u = .next (u.now.2.wait cmd ph))
    (hv : s.cfg.Valid) (hs : s.seq = .busy cmd ph) {ts rest : List Clock}
    (hclock : s.env.clock = ts ++ rest) (hback : NeverBack s.clock ts) (hgo : ∀ t ∈ ts, goesOn t)
    (k : Nat) :
    Host.Core.run Sys2Proof.core (ts.length + k) s =
      Host.Core.run Sys2Proof.core k (s.tick ts rest) := by
  induction ts generalizing s with
  | nil =>
    have htick : s.tick [] rest = s := by
      obtain ⟨cfg, port, seq, cells, latch, pull, clock, history, host, env⟩ := s
      obtain rfl : env.clock = rest := hclock
      rfl
    rw [htick, List.length_nil, Nat.zero_add]
  | cons t ts ih =>
    obtain ⟨hle, hback⟩ := List.pairwise_cons.1 hback
    have hle : s.clock ≤ t := hle t (.head _)
    obtain ⟨hgo, hgos⟩ := List.forall_mem_cons.1 hgo
    have hnow : s.now.2 = s.tick [t] (ts ++ rest) := now_of_cons hclock hle
    have hstep : step s = .next ((s.tick [t] (ts ++ rest)).wait cmd ph) := by
      rw [step_busy hv hs, hwait s hs (by rwa [s.nextReading_of_cons hclock hle]), hnow]
    have hseq : (s.tick [t] (ts ++ rest)).wait cmd ph = s.tick [t] (ts ++ rest) := by
      cases s
      cases hs
      rfl
    have hlater : (s.tick [t] (ts ++ rest)).tick ts rest = s.tick (t :: ts) rest := by
      simp [State.tick, List.getLast?_cons]
    rw [List.length_cons, Nat.add_right_comm, run_succ hstep, hseq,
      ih (s := s.tick [t] (ts ++ rest)) hv hs rfl hback hgos, hlater]

/-- A reading lies at or above the last one before it. -/
theorem NeverBack.getLastD_le {c t1 : Clock} {ts : List Clock} (h : NeverBack c (ts ++ [t1])) :
    ts.getLastD c ≤ t1 := by
  have h : (c :: ts ++ [t1]).Pairwise fun a b => a ≤ b := h
  exact (List.pairwise_append.1 h).2.2 _ List.getLastD_mem_cons _ (.head _)

/-- Readings that never move back do not before the last of them either. -/
theorem NeverBack.init {c t1 : Clock} {ts : List Clock} (h : NeverBack c (ts ++ [t1])) :
    NeverBack c ts :=
  (List.pairwise_append (l₁ := c :: ts).1 h).1

/-- The reading that follows the readings `ts`, and the state after it. -/
theorem now_tick {ts rest : List Clock} {t1 : Clock} (hback : NeverBack s.clock (ts ++ [t1])) :
    (s.tick ts (t1 :: rest)).nextReading = t1 ∧
      (s.tick ts (t1 :: rest)).now.2 = s.tick (ts ++ [t1]) rest := by
  have hle : ts.getLastD s.clock ≤ t1 := hback.getLastD_le
  refine ⟨State.nextReading_of_cons _ rfl hle, ?_⟩
  rw [now_of_cons (s := s.tick ts (t1 :: rest)) rfl hle]
  simp [State.tick]

/-- A run of a whole command that waits. From the state `s1` after its first writes it reads the start `t0`
of its wait, the readings `ts` let it go on, and the reading `t1` ends it in the state `t`. -/
theorem run_waiting {s1 : State} {w : CommandWord} {ws : List CommandWord} {cmd : Instr} {ph : Phase}
    {goesOn : Clock → Prop} {t0 t1 : Clock} {ts rest : List Clock}
    (hv : s.cfg.Valid) (hs : s.seq = .idle) (hh : s.host = w :: ws) (hd : decode w = .ok cmd)
    (hbegin : exec cmd (s.issue w ws) = exec cmd (s1.now.2.wait cmd ph)) (hcfg : s1.cfg = s.cfg)
    (hclock : s1.env.clock = t0 :: ts ++ t1 :: rest) (hback : NeverBack s1.clock (t0 :: ts ++ [t1]))
    (hwait : ∀ u : State, u.seq = .busy cmd ph → goesOn u.nextReading →
      exec cmd u = .next (u.now.2.wait cmd ph))
    (hgo : ∀ t ∈ ts, goesOn t)
    (hend : exec cmd ((s1.tick (t0 :: ts) (t1 :: rest)).wait cmd ph) = .next t) :
    Host.Core.run Sys2Proof.core (ts.length + 1) s = .next t := by
  have hprefix : NeverBack s1.clock (t0 :: ts) := NeverBack.init (ts := t0 :: ts) hback
  obtain ⟨hle, hback0⟩ := List.pairwise_cons.1 hprefix
  have hle : s1.clock ≤ t0 := hle t0 (.head _)
  have hnow : s1.now.2 = s1.tick [t0] (ts ++ t1 :: rest) := now_of_cons hclock hle
  have hv1 : s1.cfg.Valid := hcfg ▸ hv
  have hfirst : step s = step (s1.now.2.wait cmd ph) := by
    rw [step_issues hv hs hh hd, hbegin, step_busy (by exact hv1) rfl]
  have hticks : (s1.now.2.wait cmd ph).tick ts (t1 :: rest) =
      (s1.tick (t0 :: ts) (t1 :: rest)).wait cmd ph := by
    rw [hnow]
    simp [State.tick, State.wait, List.getLast?_cons]
  rw [run_congr_step hfirst, run_tick hwait (by exact hv1) rfl (by rw [hnow]; rfl)
    (by rw [hnow]; exact hback0) hgo 1, hticks]
  exact run_one ((step_busy (by exact hv1) rfl).trans hend)

end Sys2Proof.Machine
end

section
/-! PROOFS. SET_PULL (R170 to R173). -/

namespace Sys2Proof.Machine

variable {s : State} {p : Pin} {m : Pull}

/-- SET_PULL begins as a command that waits, after its first three events, in its settle delay. -/
theorem exec_setPull_begins (hr : s.Ready p) (m : Pull) :
    exec (.setPull p m) s = exec (.setPull p m)
      ((s.assertPull p m).now.2.wait (.setPull p m) (.settle (s.assertPull p m).nextReading)) := by
  rw [exec_setPull_of_ready hr, exec_setPull_of_busy (State.wait_seq _ _ _), setPullBody_eq]
  exact congrArg _ (settlePass_wait m _ _ _ _).symm

/-- Settles O35: the state in which SET_PULL begins to wait, written out. -/
theorem setPullBegins : Obligations.SetPullBegins := by
  intro s p m hr
  simp only [← bank_eq]
  exact exec_setPull_begins hr m

theorem releasePull_cells (s : State) (p : Pin) (m : Pull) :
    (s.releasePull p m).cells =
      Cells.write (Cells.write s.cells (CellName.pud.index s.cfg) 0)
        ((CellName.pudclk (bank p.toNat)).index s.cfg) 0 := rfl

/-- The release leaves 0 in both pull cells, and every other cell as it was. -/
theorem read_releasePull_cells (s : State) (p : Pin) (m : Pull) (k : Nat) :
    Cells.read (s.releasePull p m).cells k =
      if k = CellName.pud.index s.cfg ∨ k = (CellName.pudclk (bank p.toNat)).index s.cfg then 0
      else Cells.read s.cells k := by
  rw [releasePull_cells, Cells.read_write, Cells.read_write]
  split_ifs <;> simp_all

theorem pullOf_releasePull (s : State) (p : Pin) (m : Pull) (q : Nat) :
    (s.releasePull p m).pullOf q = if q = p.toNat then some m else s.pullOf q :=
  Table.get?_set s.pull p.toNat q m

/-- Settles O36: both ends of a settle pass. -/
theorem setPullSettles : Obligations.SetPullSettles := by
  intro s p m t0 hs
  simp only [← bank_eq]
  rw [exec_setPull_of_busy hs]
  refine ⟨fun hlt => ?_, fun hle => ?_⟩
  · rw [settlePass_of_lt hlt]
    cases s
    cases hs
    rfl
  · rw [settlePass_of_le hle]
    refine ⟨_, rfl, rfl, ?_, ?_, fun k hi hj => ?_, ?_, fun q hq => ?_⟩
    · exact (read_releasePull_cells _ _ _ _).trans (if_pos (.inl rfl))
    · exact (read_releasePull_cells _ _ _ _).trans (if_pos (.inr rfl))
    · exact (read_releasePull_cells _ _ _ _).trans (if_neg (not_or.2 ⟨hi, hj⟩))
    · rw [pullOf_releasePull, if_pos rfl]
    · rw [pullOf_releasePull, if_neg hq]
      rfl

/-- Every cell but the pull cells is as it was when the command begins to wait. -/
theorem read_assertPull_cells (s : State) (p : Pin) (m : Pull) {k : Nat}
    (hi : k ≠ CellName.pud.index s.cfg) (hj : k ≠ (CellName.pudclk (bank p.toNat)).index s.cfg) :
    Cells.read (s.assertPull p m).cells k = Cells.read s.cells k :=
  read_assertPull s p m hi.symm hj.symm

/-- At its beginning SET_PULL forgets every other pull whose clock-enable bit is 1 (R173). -/
theorem pullOf_assertPull (s : State) (p : Pin) (m : Pull) {q : Nat} (hq : q ≠ p.toNat) :
    (s.assertPull p m).pullOf q = if s.clockEnabled q = true then none else s.pullOf q := by
  have hfilter : (s.assertPull p m).pullOf q =
      if (q == p.toNat || !s.clockEnabled q) = true then s.pullOf q else none :=
    Table.get?_filter s.pull (fun k => k == p.toNat || !s.clockEnabled k) q
  rw [hfilter]
  cases s.clockEnabled q <;> simp [hq]

/-- The state in which a whole SET_PULL ends. -/
theorem run_setPull {w : CommandWord} {ws : List CommandWord} {t0 t1 : Clock} {ts cs : List Clock}
    (hv : s.cfg.Valid) (hr : s.Ready p) (hh : s.host = w :: ws) (hd : decode w = .ok (.setPull p m))
    (hclock : s.env.clock = t0 :: ts ++ t1 :: cs) (hback : NeverBack s.clock (t0 :: ts ++ [t1]))
    (hbelow : StaysBelow t0 20 ts) (hend : 20 ≤ t1 - t0) :
    Host.Core.run Sys2Proof.core (ts.length + 1) s =
      .next ((((s.issue w ws).assertPull p m).tick (t0 :: ts ++ [t1]) cs).releasePull p m) := by
  have hstart : ((s.issue w ws).assertPull p m).nextReading = t0 :=
    State.nextReading_of_cons _ hclock ((List.pairwise_cons.1 hback).1 t0 (.head _))
  have hbegin := exec_setPull_begins (s := s.issue w ws) hr m
  rw [hstart] at hbegin
  obtain ⟨hreading, hlast⟩ := now_tick (s := (s.issue w ws).assertPull p m) (rest := cs) hback
  refine run_waiting (goesOn := fun t => t - t0 < 20) hv hr.1 hh hd hbegin rfl hclock hback
    (fun u hu hlt => ?_) hbelow ?_
  · rw [exec_setPull_of_busy hu, settlePass_of_lt hlt]
  · rw [exec_setPull_of_busy rfl, settlePass_wait, settlePass_of_le (by rwa [hreading]), hlast]

/-- Settles O37: the fields of the state in which the command ends. -/
theorem setPullRunsProtocol : Obligations.SetPullRunsProtocol := by
  intro s w ws p m t0 t1 ts cs hv hr hh hd hclock hback hbelow hend
  simp only [← bank_eq]
  refine ⟨_, run_setPull hv hr hh hd hclock hback hbelow hend, ?_, ?_, ?_, ?_, fun k hi hj => ?_, ?_,
    fun q hq => ?_⟩
  · obtain ⟨hidle, -⟩ := hr
    rw [State.tick, List.getLastD_concat]
    cases s
    cases hidle
    rfl
  · simp [State.events, State.releasePull, State.tick, State.assertPull, CellName.index, pinMask, bitpos]
  · exact (read_releasePull_cells _ _ _ _).trans (if_pos (.inl rfl))
  · exact (read_releasePull_cells _ _ _ _).trans (if_pos (.inr rfl))
  · exact (read_releasePull_cells _ _ _ _).trans ((if_neg (not_or.2 ⟨hi, hj⟩)).trans
      (read_assertPull_cells _ _ _ hi hj))
  · rw [pullOf_releasePull, if_pos rfl]
  · rw [pullOf_releasePull, if_neg hq]
    exact pullOf_assertPull (s.issue w ws) p m hq

end Sys2Proof.Machine
end

section
/-! PROOFS. READ, WRITE and TRIGGER_PULSE (R29 to R33, R190 to R203). -/

namespace Sys2Proof.Machine

variable {s t : State} {p : Pin} {l : Level} {d : Micros}

/-! ### The level cells and READ (R32, R33, R190) -/

theorem bit_eq_decide (l : Level) : l.bit = decide (l = .high) := by cases l <;> rfl

/-- Settles O38: the bits of a level cell. -/
theorem levelCellFormedAtRead : Obligations.LevelCellFormedAtRead := by
  intro s b i hi
  rw [State.nextLevelWord, State.getLsbD_levelWord _ _ _ _ hi, bit_eq_decide]

/-- READ's complete next state. -/
theorem readBody_eq (hidle : s.seq = .idle) :
    readBody p s =
      { s with
        env := s.env.takePads,
        history := .result ⟨.ok, .level (s.nextLevel p.toNat)⟩ :: (s.sampleEvents p ++ s.history) } := by
  cases s
  cases hidle
  rfl

/-- Settles O39: the sample's level and the word that holds it. -/
theorem readReturnsLevel : Obligations.ReadReturnsLevel := by
  intro s p hr i out
  refine ⟨s.nextLevel p.toNat, s.nextLevelWord (bank p.toNat), ?_, ?_, fun hout => ?_, fun hout => ?_⟩
  · rw [exec_read_of_ready hr, readBody_eq hr.1]
    simp only [i, ← bank_eq]
    rfl
  · exact (Level.ofBit_eq_high _).symm
  · rw [s.nextLevel_eq _ hr.2.2, if_pos hout]
  · rw [s.nextLevel_eq _ hr.2.2, if_neg hout]
    exact Level.ofBit_eq_high _

/-! ### The set and clear cells and WRITE (R29 to R31, R195) -/

/-- Settles O40: the latches after a write of a whole set or clear cell. -/
theorem setAndClearCellsAct : Obligations.SetAndClearCellsAct := by
  intro s b v q
  have hlt : q % 32 < 32 := Nat.mod_lt q (by decide)
  simp only [State.latchOf, State.writeSet_latch, State.writeClr_latch,
    get?_latchBits _ _ _ _ _ _ (le_refl 32), hlt, true_and]
  constructor <;> split_ifs <;> rfl

theorem index_driveCell (c : Config) (p : Nat) (l : Level) :
    (driveCell p l).index c =
      (if l = .high then c.layout.setBase else c.layout.clrBase) + p / 32 := by
  rw [← bank_eq]
  cases l <;> rfl

theorem writeBody_eq (hidle : s.seq = .idle) (l : Level) :
    writeBody p l s =
      { s with
        latch := (s.drive p l).latch,
        history := .result ⟨.ok, .none⟩ ::
          .write ((driveCell p.toNat l).index s.cfg) (pinMask p.toNat) :: s.history } := by
  rw [writeBody, s.drive_eq]
  cases s
  cases hidle
  rfl

/-- Settles O41: WRITE is one drive of its pin. -/
theorem writeMovesOneLatch : Obligations.WriteMovesOneLatch := by
  intro s p l hr i
  have hdrive := s.latchOf_drive p l hr.2.2
  refine ⟨_, exec_write_of_ready hr l, ?_, ?_, fun q hq => ?_⟩
  · rw [writeBody_eq hr.1, index_driveCell]
    rfl
  · rw [writeBody_eq hr.1]
    exact (hdrive p.toNat).trans (if_pos rfl)
  · rw [writeBody_eq hr.1]
    exact (hdrive q).trans (if_neg hq)

/-! ### TRIGGER_PULSE (R200 to R203) -/

/-- TRIGGER_PULSE begins as a command that waits, after its lead write and the start of its hold. -/
theorem exec_triggerPulse_begins (hr : s.Ready p) (l : Level) (d : Micros) :
    exec (.triggerPulse p l d) s = exec (.triggerPulse p l d)
      ((s.drive p l).now.2.wait (.triggerPulse p l d) (.hold (s.drive p l).nextReading)) := by
  rw [exec_triggerPulse_of_ready hr, exec_triggerPulse_of_busy (State.wait_seq _ _ _),
    triggerPulseBody_eq, holdPass_wait]

/-- Driving a pin takes no answer of the clock. -/
theorem nextReading_drive (s : State) (p : Pin) (l : Level) :
    (s.drive p l).nextReading = s.nextReading := by
  rw [s.drive_eq]
  rfl

/-- Settles O42: the state in which TRIGGER_PULSE begins to wait, written out. -/
theorem triggerPulseBegins : Obligations.TriggerPulseBegins := by
  intro s p l d hr i
  refine ⟨_, exec_triggerPulse_begins hr l d, ?_, ?_, fun q hq => ?_⟩
  · rw [nextReading_drive, s.drive_eq, index_driveCell]
    rfl
  · exact (s.latchOf_drive p l hr.2.2 _).trans (if_pos rfl)
  · exact (s.latchOf_drive p l hr.2.2 _).trans (if_neg hq)

theorem latchOf_drive_now (s : State) {p : Pin} (hp : p.toNat < s.cfg.numPins) (l : Level) (q : Nat) :
    (s.now.2.drive p l).latchOf q = if q = p.toNat then l else s.latchOf q :=
  s.now.2.latchOf_drive p l hp q

/-- Settles O43: both ends of a hold pass. -/
theorem triggerPulseHolds : Obligations.TriggerPulseHolds := by
  intro s p l d t0 hs hp i t
  rw [exec_triggerPulse_of_busy hs]
  refine ⟨fun hlt => ?_, fun hle => ?_⟩
  · rw [holdPass_of_lt hlt]
    cases s
    cases hs
    rfl
  · rw [holdPass_of_le hle]
    refine ⟨_, rfl, ?_, ?_, fun q hq => ?_⟩
    · have hindex : (driveCell p.toNat l.flip).index s.cfg = i := by
        rw [index_driveCell]
        cases l <;> rfl
      rw [← hindex, State.drive_eq]
      rfl
    · exact (latchOf_drive_now s hp _ _).trans (if_pos rfl)
    · exact (latchOf_drive_now s hp _ _).trans (if_neg hq)

/-- Settles O44: a hold of 0 microseconds is over at its first reading, whatever the clock answers. -/
theorem zeroTriggerEndsAtOnce : Obligations.ZeroTriggerEndsAtOnce := by
  intro s p l hr
  have hzero : (0 : Micros).setWidth 64 ≤
      (s.drive p l).now.2.nextReading - (s.drive p l).nextReading :=
    BitVec.le_def.2 (Nat.zero_le _)
  have hp : p.toNat < (s.drive p l).now.2.cfg.numPins := by simpa using hr.2.2
  refine ⟨_, (s.drive p l).nextReading, (s.drive p l).now.2.nextReading,
    exec_triggerPulse_of_ready hr l 0, ?_⟩
  rw [triggerPulseBody_eq, holdPass_of_le hzero]
  refine ⟨rfl, State.le_nextReading (s.drive p l).now.2, ?_, ?_, ?_⟩
  · exact (latchOf_drive_now _ hp _ _).trans (if_pos rfl)
  · simp
  · simp

/-- The state in which a whole TRIGGER_PULSE ends. -/
theorem run_triggerPulse {w : CommandWord} {ws : List CommandWord} {t0 t1 : Clock} {ts cs : List Clock}
    (hv : s.cfg.Valid) (hr : s.Ready p) (hh : s.host = w :: ws)
    (hd : decode w = .ok (.triggerPulse p l d)) (hclock : s.env.clock = t0 :: ts ++ t1 :: cs)
    (hback : NeverBack s.clock (t0 :: ts ++ [t1])) (hbelow : StaysBelow t0 d ts)
    (hend : d.setWidth 64 ≤ t1 - t0) :
    Host.Core.run Sys2Proof.core (ts.length + 1) s =
      .next (State.succeed
        ((((s.issue w ws).drive p l).tick (t0 :: ts ++ [t1]) cs).drive p l.flip) .none) := by
  have hclock1 : ((s.issue w ws).drive p l).env.clock = t0 :: ts ++ t1 :: cs := by simpa using hclock
  have hback1 : NeverBack ((s.issue w ws).drive p l).clock (t0 :: ts ++ [t1]) := by simpa using hback
  have hstart : ((s.issue w ws).drive p l).nextReading = t0 :=
    State.nextReading_of_cons _ hclock1 ((List.pairwise_cons.1 hback1).1 t0 (.head _))
  have hbegin := exec_triggerPulse_begins (s := s.issue w ws) hr l d
  rw [hstart] at hbegin
  obtain ⟨hreading, hlast⟩ := now_tick (rest := cs) hback1
  refine run_waiting (goesOn := fun t => t - t0 < d.setWidth 64) hv hr.1 hh hd hbegin (by simp) hclock1
    hback1 (fun u hu hlt => ?_) hbelow ?_
  · rw [exec_triggerPulse_of_busy hu, holdPass_of_lt hlt]
  · rw [exec_triggerPulse_of_busy rfl, holdPass_wait, holdPass_of_le (by rwa [hreading]), hlast]

/-- Settles O45: the fields of the state in which the command ends. -/
theorem triggerPulseRuns : Obligations.TriggerPulseRuns := by
  intro s w ws p l d t0 t1 ts cs hv hr hh hd hclock hback hbelow hend
  have hp : p.toNat < (s.issue w ws).cfg.numPins := hr.2.2
  have hlatch := (((s.issue w ws).drive p l).tick (t0 :: ts ++ [t1]) cs).latchOf_drive p l.flip
    (by rw [State.tick, State.drive_cfg]; exact hp)
  refine ⟨_, run_triggerPulse hv hr hh hd hclock hback hbelow hend, ?_, ?_, ?_, fun q hq => ?_⟩
  · obtain ⟨hidle, -⟩ := hr
    rw [State.drive_eq, State.tick, List.getLastD_concat, State.drive_eq]
    cases s
    cases hidle
    rfl
  · simp [State.events, State.tick, pinMask, bitpos]
  · exact (hlatch p.toNat).trans (if_pos rfl)
  · exact (hlatch q).trans ((if_neg hq).trans
      (((s.issue w ws).latchOf_drive p l hp q).trans (if_neg hq)))

/-! ### READ after a write (R81, R203(e)) -/

/-- READ of a ready pin in Output mode returns its latch. -/
theorem exec_read_of_output (hr : s.Ready p) (hout : s.mode p.toNat = .output) :
    ∃ u, exec (.read p) s = .next u ∧
      u.history.head? = some (.result ⟨.ok, .level (s.latchOf p.toNat)⟩) := by
  refine ⟨_, exec_read_of_ready hr, ?_⟩
  rw [readBody_eq hr.1, s.nextLevel_eq _ hr.2.2, if_pos hout]
  rfl

/-- A pin's mode lies in the cells alone. -/
theorem mode_eq_of_cells (hcells : t.cells = s.cells) (hcfg : t.cfg = s.cfg) (q : Nat) :
    t.mode q = s.mode q := by
  rw [State.mode, State.modeCode, State.cell, hcells, hcfg]
  rfl

/-- READ right after a command whose last write drove its pin, in Output mode, sees the driven level. -/
theorem exec_read_of_drive (hport : s.port = .mapped) (hp : p.toNat < s.cfg.numPins)
    (hout : s.mode p.toNat = .output) (l : Level) :
    ∃ u, exec (.read p) ((s.drive p l).succeed .none) = .next u ∧
      u.history.head? = some (.result ⟨.ok, .level l⟩) := by
  have hr : ((s.drive p l).succeed .none).Ready p := by
    refine ⟨rfl, ?_, ?_⟩ <;> simpa
  have hmode : ((s.drive p l).succeed .none).mode p.toNat = .output := by
    rw [mode_eq_of_cells (s := s) (by simp) (by simp), hout]
  have hlatch : ((s.drive p l).succeed .none).latchOf p.toNat = l :=
    (s.latchOf_drive p l hp _).trans (if_pos rfl)
  have hread := exec_read_of_output hr hmode
  rwa [hlatch] at hread

/-- A hold pass that ends the command leaves its pin driven to the opposite level. -/
theorem exec_read_of_holdPass {t0 : Clock} (hport : s.port = .mapped) (hp : p.toNat < s.cfg.numPins)
    (hout : s.mode p.toNat = .output) (hend : (holdPass p l d t0 s).seq = .idle) :
    ∃ u, exec (.read p) (holdPass p l d t0 s) = .next u ∧
      u.history.head? = some (.result ⟨.ok, .level l.flip⟩) := by
  rcases holdPass_cases p l d t0 s with ⟨-, he⟩ | ⟨-, he⟩
  · rw [he] at hend
    cases hend
  · rw [he]
    exact exec_read_of_drive (s := s.now.2) hport hp hout l.flip

/-- Settles O46: the last write of both commands is a drive of the pin. -/
theorem readSeesDrivenLevel : Obligations.ReadSeesDrivenLevel := by
  intro s t p l hport hp hout
  refine ⟨fun hidle h => ?_, fun d hs h hend => ?_⟩
  · rw [exec_write_of_ready ⟨hidle, hport, hp⟩] at h
    obtain rfl := Host.Outcome.next.inj h
    exact exec_read_of_drive hport hp hout l
  · rcases hs with hidle | ⟨t0, hs⟩
    · rw [exec_triggerPulse_of_ready ⟨hidle, hport, hp⟩] at h
      obtain rfl := Host.Outcome.next.inj h
      refine exec_read_of_holdPass (s := (s.drive p l).now.2) ?_ ?_ ?_ hend
      · simpa using hport
      · simpa using hp
      · rw [mode_eq_of_cells (s := s) (by simp) (by simp), hout]
    · rw [exec_triggerPulse_of_busy hs] at h
      obtain rfl := Host.Outcome.next.inj h
      exact exec_read_of_holdPass hport hp hout hend

end Sys2Proof.Machine
end

section
/-! PROOFS. What a measurement leaves alone, and a pass whose answers the environment has fixed (R220,
R249). -/

namespace Sys2Proof.Machine

variable {s t u : State} {p : Pin}

/-! ### States that differ by observation only -/

/-- From `s` to `u` the block has only observed: no port, cell, latch, pull or word of the host has
changed, and the history has grown by observing events. -/
def Observed (s u : State) : Prop :=
  u = { s with seq := u.seq, clock := u.clock, env := u.env, history := u.history } ∧
    ∃ es : List Event, u.history = es ++ s.history ∧ ∀ e ∈ es, e.observes = true

theorem Observed.refl (s : State) : Observed s s := ⟨rfl, [], rfl, by simp⟩

theorem Observed.trans (h : Observed s t) (h' : Observed t u) : Observed s u := by
  obtain ⟨hframe, es, hes, hobs⟩ := h
  obtain ⟨hframe', es', hes', hobs'⟩ := h'
  refine ⟨?_, es' ++ es, by rw [hes', hes, List.append_assoc], List.forall_mem_append.2 ⟨hobs', hobs⟩⟩
  rw [hframe', hframe]

theorem observed_now (s : State) : Observed s s.now.2 := ⟨rfl, [_], rfl, by simp [Event.observes]⟩

theorem observed_wait (s : State) (cmd : Instr) (ph : Phase) : Observed s (s.wait cmd ph) :=
  ⟨rfl, [], rfl, by simp⟩

theorem observes_sampleEvents (s : State) (p : Pin) : ∀ e ∈ s.sampleEvents p, e.observes = true := by
  rw [State.sampleEvents]
  split_ifs <;> simp [Event.observes]

theorem observed_sample (s : State) (p : Pin) : Observed s (s.sample p).2 :=
  ⟨rfl, s.sampleEvents p, rfl, observes_sampleEvents s p⟩

theorem Observed.now (h : Observed s t) : Observed s t.now.2 := h.trans (observed_now t)

theorem Observed.wait (h : Observed s t) (cmd : Instr) (ph : Phase) : Observed s (t.wait cmd ph) :=
  h.trans (observed_wait t cmd ph)

theorem Observed.sample (h : Observed s t) (p : Pin) : Observed s (t.sample p).2 :=
  h.trans (observed_sample t p)

theorem Observed.cfg_eq (h : Observed s u) : u.cfg = s.cfg := by rw [h.1]

theorem Observed.host_eq (h : Observed s u) : u.host = s.host := by rw [h.1]

theorem Observed.mode_eq (h : Observed s u) (q : Nat) : u.mode q = s.mode q := by
  rw [h.1]
  rfl

/-! ### A sample and a reading that the environment has fixed -/

theorem State.nextPads_of_cons {v : Word} {vs : List Word} (h : s.env.pads = v :: vs) :
    s.nextPads = v := by
  simp [State.nextPads, h]

/-- A pin outside Output mode is seen at its pad (R33). -/
theorem nextLevel_of_pads {v : Word} {vs : List Word} (hp : p.toNat < s.cfg.numPins)
    (hmode : s.mode p.toNat ≠ .output) (h : s.env.pads = v :: vs) :
    s.nextLevel p.toNat = Level.ofBit (v.getLsbD (p.toNat % 32)) := by
  rw [s.nextLevel_eq _ hp, if_neg hmode, s.nextPads_of_cons h, bitpos]

theorem env_sample {v : Word} {vs : List Word} (h : s.env.pads = v :: vs) :
    (s.sample p).2.env = { s.env with pads := vs } := by
  rw [State.sample_env, Env.takePads_of_cons h]

theorem nextReading_sample {v : Word} {vs : List Word} {t : Clock} {ts : List Clock}
    (hpads : s.env.pads = v :: vs) (hclock : s.env.clock = t :: ts) (hle : s.clock ≤ t) :
    (s.sample p).2.nextReading = t :=
  State.nextReading_of_cons (ts := ts) _ (by rw [env_sample hpads, hclock]) hle

theorem env_sample_now {v : Word} {vs : List Word} {t : Clock} {ts : List Clock}
    (hpads : s.env.pads = v :: vs) (hclock : s.env.clock = t :: ts) :
    (s.sample p).2.now.2.env = { s.env with clock := ts, pads := vs } := by
  have hclock' : (s.sample p).2.env.clock = t :: ts := by rw [env_sample hpads, hclock]
  rw [State.now_env, Env.takeClock_of_cons hclock', env_sample hpads]

end Sys2Proof.Machine
end

section
/-! PROOFS. READ_PULSE (R220 to R226). -/

namespace Sys2Proof.Machine

variable {s t : State} {p : Pin} {target : Level} {timeout : Micros} {t0 e : Clock}

/-- READ_PULSE begins as a command that waits, after its start timestamp. -/
theorem exec_readPulse_begins (hr : s.Ready p) (target : Level) (timeout : Micros) :
    exec (.readPulse p target timeout) s = exec (.readPulse p target timeout)
      (s.now.2.wait (.readPulse p target timeout) (.poll s.nextReading 0)) := by
  rw [exec_readPulse_of_ready hr, exec_readPulse_of_busy (State.wait_seq _ _ _), readPulseBody_eq,
    readPulsePass_wait]

theorem measurement_timeout (target : Level) (timeout : Micros) :
    measurement target timeout timeout = .pulse timeout target true := by
  simp [measurement, timedOut]

/-- Settles O47: the beginning, and the three ends of a pass. -/
theorem readPulseFollowsLoop : Obligations.ReadPulseFollowsLoop := by
  intro s p target timeout cmd
  refine ⟨fun hr => exec_readPulse_begins hr target timeout, fun t0 elapsed hs => ?_⟩
  simp only [cmd]
  rw [exec_readPulse_of_busy hs]
  refine ⟨fun hne => ?_, fun heq hle => ?_, fun heq hlt => ?_⟩
  · rw [readPulsePass_of_ne hne]
    rfl
  · rw [readPulsePass_of_late heq hle, measurement_timeout]
    rfl
  · rw [readPulsePass_of_again heq hlt]
    rfl

/-- A measurement of a sound block takes no longer than its timeout: the elapsed time of the pass before
lies below it. -/
theorem Measured.le_timeout {s1 s2 : State} {d : Micros}
    (h : Measured s1 p target timeout t0 e d s2) (he : e ≤ timeout.setWidth 64) : d ≤ timeout := by
  cases h with
  | changed => bv_omega
  | late => exact BitVec.le_refl _

/-- Settles O48: the only effect that answers a pulse is a measurement that ends. -/
theorem readPulseWithinTimeout : Obligations.ReadPulseWithinTimeout := by
  rintro s t p target level timeout dur flag ⟨-, -, -, hfits⟩ h hhead
  cases exec_effect h with
  | turnedAway => simp at hhead
  | pollWaits => simp at hhead
  | pollEnds hp hm =>
    obtain ⟨-, he⟩ := hp.passFits hfits
    have hle := hm.le_timeout he
    simp only [State.succeed_history, measurement, List.head?_cons, Option.some.injEq,
      Event.result.injEq, Result.mk.injEq, Payload.pulse.injEq, true_and] at hhead
    obtain ⟨rfl, rfl, rfl⟩ := hhead
    refine ⟨hle, rfl, ?_⟩
    rw [timedOut, decide_eq_true_eq]
    exact ⟨fun hge => BitVec.le_antisymm hle hge, fun heq => heq ▸ BitVec.le_refl _⟩

/-- Settles O49: no reading is below a timeout of 0, so that the first pass ends the command. -/
theorem readPulseTimeoutZero : Obligations.ReadPulseTimeoutZero := by
  intro s p target hr
  rw [exec_readPulse_of_ready hr, readPulseBody_eq]
  obtain ⟨hidle, -⟩ := hr
  rcases readPulsePass_cases p target 0 s.nextReading 0 s.now.2 with ⟨-, he⟩ | ⟨-, -, he⟩ | ⟨-, hlt, -⟩
  · rw [he]
    cases s
    cases hidle
    exact ⟨_, rfl, rfl, rfl⟩
  · rw [he]
    cases s
    cases hidle
    exact ⟨_, rfl, rfl, rfl⟩
  · exact absurd hlt (BitVec.not_lt.2 (BitVec.le_def.2 (Nat.zero_le _)))

/-- Settles O50: the first pass ends the command with the elapsed time 0. -/
theorem readPulseFirstSampleDiffers : Obligations.ReadPulseFirstSampleDiffers := by
  intro s p target timeout hr t0 s1 hne
  have hzero : decide (timeout = 0) = timedOut 0 timeout := by
    rw [timedOut, decide_eq_decide]
    exact ⟨fun h => h ▸ BitVec.le_refl _, fun h => BitVec.le_antisymm h (BitVec.le_def.2 (Nat.zero_le _))⟩
  rw [exec_readPulse_of_ready hr, readPulseBody_eq, readPulsePass_of_ne (s := s.now.2) hne, hzero]
  obtain ⟨hidle, -⟩ := hr
  cases s
  cases hidle
  rfl

/-! ### Whole measurements (R220, R223) -/

/-- The samples `ps` see the target level at the readings `ts`, all below the timeout: the measurement is
still going on, at the last reading. -/
theorem run_polls {ts cs : List Clock} {ps vs : List Word} (hv : s.cfg.Valid)
    (hp : p.toNat < s.cfg.numPins) (hmode : s.mode p.toNat ≠ .output)
    (hs : s.seq = .busy (.readPulse p target timeout) (.poll t0 (s.clock - t0)))
    (hclock : s.env.clock = ts ++ cs) (hback : NeverBack s.clock ts)
    (hbelow : StaysBelow t0 timeout ts) (hpads : s.env.pads = ps ++ vs) (hlen : ps.length = ts.length)
    (hsee : ∀ x ∈ ps, Level.ofBit (x.getLsbD (p.toNat % 32)) = target) (k : Nat) :
    ∃ u : State, Host.Core.run Sys2Proof.core (ts.length + k) s = Host.Core.run Sys2Proof.core k u ∧
      Observed s u ∧ u.clock = ts.getLastD s.clock ∧
      u.env = { s.env with clock := cs, pads := vs } ∧
      u.seq = .busy (.readPulse p target timeout) (.poll t0 (u.clock - t0)) := by
  induction ts generalizing s ps with
  | nil =>
    obtain rfl := List.eq_nil_of_length_eq_zero hlen
    refine ⟨s, by simp, .refl s, rfl, ?_, hs⟩
    rw [← hclock.trans (List.nil_append cs), ← hpads.trans (List.nil_append vs)]
  | cons t ts ih =>
    obtain ⟨v, ps, rfl⟩ := List.exists_cons_of_length_eq_add_one hlen
    obtain ⟨hle, hback⟩ := List.pairwise_cons.1 hback
    have hle : s.clock ≤ t := hle t (.head _)
    obtain ⟨hsee, hsees⟩ := List.forall_mem_cons.1 hsee
    obtain ⟨hbelow, hbelows⟩ := List.forall_mem_cons.1 hbelow
    have hlevel : s.nextLevel p.toNat = target := (nextLevel_of_pads hp hmode hpads).trans hsee
    have hreading : (s.sample p).2.nextReading = t := nextReading_sample hpads hclock hle
    have hstep : step s = .next
        ((s.sample p).2.now.2.wait (.readPulse p target timeout) (.poll t0 (t - t0))) := by
      rw [step_busy hv hs, exec_readPulse_of_busy hs,
        readPulsePass_of_again hlevel (by rwa [hreading]), hreading]
    have hobs := ((observed_sample s p).now).wait (.readPulse p target timeout) (.poll t0 (t - t0))
    obtain ⟨u, hrun, hu, huclock, huenv, huseq⟩ :=
      ih (s := (s.sample p).2.now.2.wait (.readPulse p target timeout) (.poll t0 (t - t0))) (ps := ps)
        hv hp hmode (by simp [hreading])
        (by rw [State.wait_env, env_sample_now hpads hclock]; rfl) (by simpa [hreading] using hback) hbelows
        (by rw [State.wait_env, env_sample_now hpads hclock]; rfl) (by simpa using hlen) hsees
    refine ⟨u, ?_, hobs.trans hu, ?_, ?_, huseq⟩
    · rw [List.length_cons, Nat.add_right_comm, run_succ hstep, hrun]
    · rw [huclock]
      simp [hreading, List.getLast?_cons]
    · rw [huenv, State.wait_env, env_sample_now hpads hclock]

/-! ### Runs that begin with the command's word -/

/-- The state in which a READ_PULSE that the host issues begins to wait. -/
def State.polls (s : State) (w : CommandWord) (ws : List CommandWord) (p : Pin) (target : Level)
    (timeout : Micros) : State :=
  (s.issue w ws).now.2.wait (.readPulse p target timeout) (.poll s.nextReading 0)

theorem observed_polls (s : State) (w : CommandWord) (ws : List CommandWord) (p : Pin) (target : Level)
    (timeout : Micros) : Observed (s.issue w ws) (s.polls w ws p target timeout) :=
  (observed_now _).wait _ _

theorem step_polls {w : CommandWord} {ws : List CommandWord} (hv : s.cfg.Valid) (hr : s.Ready p)
    (hh : s.host = w :: ws) (hd : decode w = .ok (.readPulse p target timeout)) :
    step s = step (s.polls w ws p target timeout) := by
  have hv' : (s.polls w ws p target timeout).cfg.Valid := hv
  rw [step_issues hv hr.1 hh hd, exec_readPulse_begins (s := s.issue w ws) hr, step_busy hv' rfl]
  rfl

/-- A command that has only observed since its issue ends as it began, but for the clock, the answers
taken and the history. -/
theorem succeed_of_observed {w : CommandWord} {ws : List CommandWord} (hidle : s.seq = .idle)
    (h : Observed (s.issue w ws) t) (x : Payload) :
    t.succeed x =
      { s with clock := t.clock, host := ws, env := t.env, history := (t.succeed x).history } := by
  calc t.succeed x
      = State.succeed
          { s.issue w ws with seq := t.seq, clock := t.clock, env := t.env, history := t.history } x :=
        congrArg (State.succeed · x) h.1
    _ = { s with clock := t.clock, host := ws, env := t.env, history := (t.succeed x).history } := by
        cases s
        cases hidle
        rfl

/-- A READ_PULSE that the host issues, after the samples `ps` that see the target level at the readings
`ts`. -/
theorem run_issued_polls {w : CommandWord} {ws : List CommandWord} {ts cs : List Clock}
    {ps vs : List Word} (hv : s.cfg.Valid) (hr : s.Ready p) (hmode : s.mode p.toNat ≠ .output)
    (hh : s.host = w :: ws) (hd : decode w = .ok (.readPulse p target timeout))
    (hclock : s.env.clock = t0 :: ts ++ cs) (hback : NeverBack s.clock (t0 :: ts))
    (hbelow : StaysBelow t0 timeout ts) (hpads : s.env.pads = ps ++ vs) (hlen : ps.length = ts.length)
    (hsees : ∀ x ∈ ps, Level.ofBit (x.getLsbD (p.toNat % 32)) = target) (k : Nat) :
    ∃ u : State, Host.Core.run Sys2Proof.core (ts.length + (k + 1)) s =
        Host.Core.run Sys2Proof.core (k + 1) u ∧
      Observed (s.issue w ws) u ∧ u.clock = ts.getLastD t0 ∧
      u.env = { s.env with clock := cs, pads := vs } ∧
      u.seq = .busy (.readPulse p target timeout) (.poll t0 (u.clock - t0)) := by
  obtain ⟨hle, hback⟩ := List.pairwise_cons.1 hback
  have hstart : s.nextReading = t0 := s.nextReading_of_cons hclock (hle t0 (.head _))
  have henv : (s.polls w ws p target timeout).env = { s.env with clock := ts ++ cs } :=
    Env.takeClock_of_cons hclock
  have hstart' : (s.polls w ws p target timeout).clock = t0 := hstart
  obtain ⟨u, hrun, hu, huclock, huenv, huseq⟩ :=
    run_polls (s := s.polls w ws p target timeout) (t0 := t0) hv hr.2.2 hmode
      (by rw [hstart', BitVec.sub_self, ← hstart]; rfl) (by rw [henv]) (by rwa [hstart']) hbelow
      (by rw [henv]; exact hpads) hlen hsees (k + 1)
  refine ⟨u, ?_, (observed_polls s w ws p target timeout).trans hu, ?_, ?_, huseq⟩
  · exact (run_congr_step (step_polls hv hr hh hd)).trans hrun
  · rw [huclock, hstart']
  · rw [huenv, henv]

/-- Settles O51: the passes that hold, then the pass that ends. -/
theorem readPulseMeasures : Obligations.ReadPulseMeasures := by
  intro s w ws p target timeout t0 ts cs ps vs v see hv hr hmode hh hd hbelow hlen hsees hpads
  have hlast : ∀ h, (t0 :: ts).getLast h = ts.getLastD t0 := fun _ => List.getLast_eq_getLastD _
  simp only [hlast]
  refine ⟨fun hclock hback hsee => ?_, fun t1 hclock hback hsee hend => ?_⟩
  · obtain ⟨u, hrun, hu, huclock, huenv, hseq⟩ :=
      run_issued_polls hv hr hmode hh hd hclock hback hbelow hpads hlen hsees 0
    have hcfg : u.cfg = s.cfg := hu.cfg_eq
    have hpads : u.env.pads = v :: vs := by rw [huenv]
    have hlevel : u.nextLevel p.toNat ≠ target := by
      rwa [nextLevel_of_pads (hcfg ▸ hr.2.2) (by rwa [hu.mode_eq]) hpads]
    have hstep : step u = .next ((u.sample p).2.succeed
        (measurement target timeout ((u.clock - t0).setWidth 32))) := by
      rw [step_busy (hcfg ▸ hv) hseq, exec_readPulse_of_busy hseq, readPulsePass_of_ne hlevel]
    refine ⟨_, hrun.trans (run_one hstep), ?_, ?_⟩
    · rw [succeed_of_observed hr.1 (hu.sample p), env_sample hpads, huenv, State.sample_clock, huclock]
    · rw [huclock]
      rfl
  · obtain ⟨u, hrun, hu, huclock, huenv, hseq⟩ :=
      run_issued_polls hv hr hmode hh hd hclock (NeverBack.init (ts := t0 :: ts) hback) hbelow hpads hlen
        hsees 0
    have hcfg : u.cfg = s.cfg := hu.cfg_eq
    have hpads : u.env.pads = v :: vs := by rw [huenv]
    have huclocks : u.env.clock = t1 :: cs := by rw [huenv]
    have hle : u.clock ≤ t1 := by
      rw [huclock, ← List.getLastD_cons (a := s.clock)]
      exact NeverBack.getLastD_le (ts := t0 :: ts) hback
    have hlevel : u.nextLevel p.toNat = target := by
      rwa [nextLevel_of_pads (hcfg ▸ hr.2.2) (by rwa [hu.mode_eq]) hpads]
    have hreading : (u.sample p).2.nextReading = t1 := nextReading_sample hpads huclocks hle
    have hstep : step u = .next ((u.sample p).2.now.2.succeed (.pulse timeout target true)) := by
      rw [step_busy (hcfg ▸ hv) hseq, exec_readPulse_of_busy hseq,
        readPulsePass_of_late hlevel (by rwa [hreading]), measurement_timeout]
    refine ⟨_, hrun.trans (run_one hstep), ?_, rfl⟩
    rw [succeed_of_observed hr.1 (hu.sample p).now, env_sample_now hpads huclocks, huenv, State.now_clock,
      hreading]

/-! ### Runs whose clock reaches the timeout (R45, R224) -/

/-- A step of a READ_PULSE that waits has its result after observing only, or goes round again below the
timeout. -/
theorem step_readPulse (hv : s.cfg.Valid)
    (hs : s.seq = .busy (.readPulse p target timeout) (.poll t0 e)) :
    (∃ (v : State) (dur : Micros) (flag : Bool), Observed s v ∧
      step s = .next (v.succeed (.pulse dur target flag))) ∨
    ((s.sample p).2.nextReading - t0 < timeout.setWidth 64 ∧
      step s = .next ((s.sample p).2.now.2.wait (.readPulse p target timeout)
        (.poll t0 ((s.sample p).2.nextReading - t0)))) := by
  rw [step_busy hv hs, exec_readPulse_of_busy hs]
  rcases readPulsePass_cases p target timeout t0 e s with ⟨-, he⟩ | ⟨-, -, he⟩ | ⟨-, hlt, he⟩
  · exact .inl ⟨_, _, _, observed_sample s p, by rw [he]; rfl⟩
  · exact .inl ⟨_, _, _, (observed_sample s p).now, by rw [he]; rfl⟩
  · exact .inr ⟨hlt, by rw [he]⟩

@[simp] theorem Env.takePads_clock (e : Env) : e.takePads.clock = e.clock := by
  unfold Env.takePads
  split <;> rfl

theorem observed_again (s : State) (p : Pin) (cmd : Instr) (ph : Phase) :
    Observed s ((s.sample p).2.now.2.wait cmd ph) :=
  ((observed_sample s p).now).wait cmd ph

/-- A READ_PULSE that waits ends within the readings `ts`, one of which reaches the timeout. -/
theorem run_reaches_timeout {ts cs : List Clock} (hv : s.cfg.Valid)
    (hs : s.seq = .busy (.readPulse p target timeout) (.poll t0 e)) (hclock : s.env.clock = ts ++ cs)
    (hback : NeverBack s.clock ts) (hreach : ∃ t ∈ ts, timeout.setWidth 64 ≤ t - t0) :
    ∃ (k : Nat) (v : State) (dur : Micros) (flag : Bool), 1 ≤ k ∧ k ≤ ts.length ∧ Observed s v ∧
      Host.Core.run Sys2Proof.core k s = .next (v.succeed (.pulse dur target flag)) := by
  induction ts generalizing s e with
  | nil =>
    obtain ⟨t, ht, -⟩ := hreach
    cases ht
  | cons t ts ih =>
    rcases step_readPulse hv hs with ⟨v, dur, flag, hobs, hstep⟩ | ⟨hlt, hstep⟩
    · exact ⟨1, v, dur, flag, le_refl 1, by simp, hobs, run_one hstep⟩
    · obtain ⟨hle, hback⟩ := List.pairwise_cons.1 hback
      have hclock' : (s.sample p).2.env.clock = t :: (ts ++ cs) := by simpa using hclock
      have hreading : (s.sample p).2.nextReading = t :=
        State.nextReading_of_cons _ hclock' (hle t (.head _))
      have hreach : ∃ t ∈ ts, timeout.setWidth 64 ≤ t - t0 := by
        obtain ⟨t', ht', hge⟩ := hreach
        rcases List.mem_cons.1 ht' with rfl | ht'
        · exact absurd (hreading ▸ hlt) (BitVec.not_lt.2 hge)
        · exact ⟨t', ht', hge⟩
      have hobs := observed_again s p (.readPulse p target timeout)
        (.poll t0 ((s.sample p).2.nextReading - t0))
      obtain ⟨k, v, dur, flag, h1, hk, hv', hrun⟩ := ih
        (s := (s.sample p).2.now.2.wait (.readPulse p target timeout)
          (.poll t0 ((s.sample p).2.nextReading - t0))) (hobs.cfg_eq ▸ hv) rfl
        (by rw [State.wait_env, State.now_env, Env.takeClock_of_cons hclock'])
        (by rw [State.wait_clock, State.now_clock, hreading]; exact hback) hreach
      exact ⟨k + 1, v, dur, flag, by omega, by simpa using hk, hobs.trans hv',
        (run_succ hstep).trans hrun⟩

/-- What the statements about R224 say of the state in which a READ_PULSE that the host issued ends. -/
theorem succeed_of_observed_issue {w : CommandWord} {ws : List CommandWord} (h : Observed (s.issue w ws) t)
    (x : Payload) :
    (t.succeed x).seq = .idle ∧ (t.succeed x).host = ws ∧
      ∃ es : List Event, (t.succeed x).history = .result ⟨.ok, x⟩ :: (es ++ .issue w :: s.history) ∧
        ∀ e ∈ es, e.observes = true := by
  obtain ⟨es, hes, hobs⟩ := h.2
  exact ⟨rfl, h.host_eq, es, by rw [State.succeed_history, hes]; rfl, hobs⟩

/-- Settles O52: the run is one of a command that waits, and one of its readings reaches the timeout. -/
theorem fairClockEndsReadPulse : Obligations.FairClockEndsReadPulse := by
  intro s w ws p target timeout t0 ts cs hv hr hh hd hclock hback hreach
  obtain ⟨hle, hback⟩ := List.pairwise_cons.1 hback
  have hstart : s.nextReading = t0 := s.nextReading_of_cons hclock (hle t0 (.head _))
  have hbegin := observed_polls s w ws p target timeout
  obtain ⟨k, v, dur, flag, h1, hk, hobs, hrun⟩ :=
    run_reaches_timeout (s := s.polls w ws p target timeout) (t0 := t0) (e := 0) (cs := cs) hv
      (by rw [← hstart]; rfl) (congrArg Env.clock (Env.takeClock_of_cons hclock))
      (by rw [← hstart] at hback; exact hback) hreach
  obtain ⟨hidle, hhost, es, hes, hobserves⟩ :=
    succeed_of_observed_issue (hbegin.trans hobs) (.pulse dur target flag)
  obtain ⟨k, rfl⟩ : ∃ j, k = j + 1 := ⟨k - 1, by omega⟩
  exact ⟨k + 1, _, es, dur, flag, h1, hk,
    (run_congr_step (step_polls hv hr hh hd)).trans hrun, hidle, hhost, hes, hobserves⟩

/-! ### Runs with a fair clock (R45, R224) -/

/-- The result of a READ_PULSE after some steps in which it has only observed. -/
def EndsPulse (s : State) (target : Level) : Prop :=
  ∃ (k : Nat) (v : State) (dur : Micros) (flag : Bool), Observed s v ∧
    Host.Core.run Sys2Proof.core k s = .next (v.succeed (.pulse dur target flag))

/-- A READ_PULSE that never ends reads the clock in every step, and every reading stays below the timeout. -/
theorem run_stays_below (hv : s.cfg.Valid)
    (hs : s.seq = .busy (.readPulse p target timeout) (.poll t0 e))
    (hbelow : s.clock - t0 < timeout.setWidth 64) (hend : ¬ EndsPulse s target) (k : Nat) :
    ∃ u : State, Host.Core.run Sys2Proof.core k s = .next u ∧ s.clock ≤ u.clock ∧
      u.clock - t0 < timeout.setWidth 64 ∧ k ≤ (readings u.history).length := by
  suffices h : ∃ u : State, Host.Core.run Sys2Proof.core k s = .next u ∧ s.clock ≤ u.clock ∧
      u.clock - t0 < timeout.setWidth 64 ∧
      (readings s.history).length + k ≤ (readings u.history).length by
    obtain ⟨u, hrun, hle, hlt, hcount⟩ := h
    exact ⟨u, hrun, hle, hlt, by omega⟩
  induction k generalizing s e with
  | zero => exact ⟨s, rfl, BitVec.le_refl _, hbelow, le_refl _⟩
  | succ k ih =>
    rcases step_readPulse hv hs with ⟨v, dur, flag, hobs, hstep⟩ | ⟨hlt, hstep⟩
    · exact absurd ⟨1, v, dur, flag, hobs, run_one hstep⟩ hend
    · have hobs := observed_again s p (.readPulse p target timeout)
        (.poll t0 ((s.sample p).2.nextReading - t0))
      obtain ⟨u, hrun, hle, hbelow, hcount⟩ := ih
        (s := (s.sample p).2.now.2.wait (.readPulse p target timeout)
          (.poll t0 ((s.sample p).2.nextReading - t0))) (hobs.cfg_eq ▸ hv) rfl hlt
        fun ⟨j, v, dur, flag, hv', hrun⟩ =>
          hend ⟨j + 1, v, dur, flag, hobs.trans hv', (run_succ hstep).trans hrun⟩
      refine ⟨u, (run_succ hstep).trans hrun,
        BitVec.le_trans (State.le_nextReading (s.sample p).2) hle, hbelow, ?_⟩
      simp only [State.wait_history, State.now_history, State.sample_history, readings, readings_append,
        readings_sampleEvents, List.nil_append, List.length_cons] at hcount
      omega

/-- A READ_PULSE whose deadline the clock can reach ends in a fair run: a run without its result keeps
reading the clock, so that a reading reaches the deadline. -/
theorem endsPulse_of_clockFair {s1 : State} (hv : s1.cfg.Valid) (hfair : s.ClockFair)
    (hstep : step s = .next s1) (hle : s.clock ≤ s1.clock) (ht0 : t0 ≤ s1.clock)
    (hs : s1.seq = .busy (.readPulse p target timeout) (.poll t0 e))
    (hbelow : s1.clock - t0 < timeout.setWidth 64) (hreach : t0.toNat + timeout.toNat < 2 ^ 64) :
    EndsPulse s1 target := by
  by_contra hend
  have hstays := run_stays_below hv hs hbelow hend
  have hkeeps : s.KeepsReading := (keepsReading_step hstep).2 fun n =>
    let ⟨u, hrun, _, _, hcount⟩ := hstays n
    ⟨n, u, hrun, hcount⟩
  obtain ⟨k, u, hrun, hdeadline⟩ := hfair hkeeps (t0 + timeout.setWidth 64)
  obtain ⟨v, hvle, hvbelow, hvdeadline⟩ : ∃ v : State, s1.clock ≤ v.clock ∧
      v.clock - t0 < timeout.setWidth 64 ∧ t0 + timeout.setWidth 64 ≤ v.clock := by
    cases k with
    | zero =>
      obtain rfl : s = u := Host.Outcome.next.inj hrun
      exact ⟨s1, BitVec.le_refl _, hbelow, BitVec.le_trans hdeadline hle⟩
    | succ k =>
      obtain ⟨u', hrun', hle', hbelow', -⟩ := hstays k
      obtain rfl : u' = u := Host.Outcome.next.inj (hrun'.symm.trans ((run_succ hstep).symm.trans hrun))
      exact ⟨u', hle', hbelow', hdeadline⟩
  bv_omega

/-- Settles O60: the first step ends the command, or leaves it waiting below its timeout in a fair run. -/
theorem readPulseEndsInFairRun : Obligations.ReadPulseEndsInFairRun := by
  intro s w ws p target timeout hv hr hh hd hfair hreach
  have hbegin := observed_polls s w ws p target timeout
  have hfirst : step s = step (s.polls w ws p target timeout) := step_polls hv hr hh hd
  obtain ⟨k, v, dur, flag, h1, hobs, hrun⟩ : ∃ (k : Nat) (v : State) (dur : Micros) (flag : Bool),
      1 ≤ k ∧ Observed (s.polls w ws p target timeout) v ∧
        Host.Core.run Sys2Proof.core k s = .next (v.succeed (.pulse dur target flag)) := by
    rcases step_readPulse (s := s.polls w ws p target timeout) (t0 := s.nextReading) (e := 0) hv rfl with
      ⟨v, dur, flag, hobs, hstep⟩ | ⟨hlt, hstep⟩
    · exact ⟨1, v, dur, flag, le_refl 1, hobs, run_one (hfirst.trans hstep)⟩
    · have hobs := observed_again (s.polls w ws p target timeout) p (.readPulse p target timeout)
        (.poll s.nextReading (((s.polls w ws p target timeout).sample p).2.nextReading - s.nextReading))
      have hle : s.nextReading ≤ ((s.polls w ws p target timeout).sample p).2.nextReading :=
        State.le_nextReading ((s.polls w ws p target timeout).sample p).2
      obtain ⟨k, v, dur, flag, hv', hrun⟩ := endsPulse_of_clockFair (hobs.cfg_eq ▸ hv) hfair
        (hfirst.trans hstep) (BitVec.le_trans s.le_nextReading hle) hle rfl hlt hreach
      exact ⟨k + 1, v, dur, flag, by omega, hobs.trans hv',
        (run_succ (hfirst.trans hstep)).trans hrun⟩
  obtain ⟨hidle, hhost, es, hes, hobserves⟩ :=
    succeed_of_observed_issue (hbegin.trans hobs) (.pulse dur target flag)
  exact ⟨k, _, es, dur, flag, h1, hrun, hidle, hhost, hes, hobserves⟩

end Sys2Proof.Machine
end

section
/-! PROOFS. DECODE's passes, its buffer and what it leaves alone (R240 to R249). -/

namespace Sys2Proof.Machine

variable {s t : State} {p : Pin} {n : BitCount} {timeout : Micros}

/-! ### The beginning and the passes (R240, R247) -/

/-- DECODE of some bits begins as a command that waits, after the start timestamp of the first pivot. -/
theorem exec_decode_begins (hr : s.Ready p) (hn : n ≠ 0) (timeout : Micros) :
    exec (.decode p n timeout) s = exec (.decode p n timeout)
      (s.now.2.wait (.decode p n timeout)
        (.bit 0 .pivot s.nextReading 0 (List.replicate (byteCount n.toNat) 0))) := by
  rw [exec_decode_of_ready hr, exec_decode_of_busy (State.wait_seq _ _ _), decodeBody_eq p hn,
    decodePass_wait]

/-- Settles O55: the state in which DECODE begins to wait, written out. -/
theorem decodeBegins : Obligations.DecodeBegins :=
  fun _ _ _ timeout hr hn => exec_decode_begins hr hn timeout

/-- Settles O54: no reading is below a timeout of 0, so that the first measurement ends in the first pass and
has timed out. -/
theorem decodeTimeoutZero : Obligations.DecodeTimeoutZero := by
  intro s p n hr hn t0 s1 s2 t1 s3 s'
  refine ⟨Config.freeBytes s'.env.drawn, ?_⟩
  have hzero : ∀ {w : Nat} (x : BitVec w), 0 ≤ x := fun x => BitVec.le_def.2 (Nat.zero_le _)
  have hnow : s1 = s.now.2 := rfl
  rw [exec_decode_of_ready hr, decodeBody_eq p hn]
  obtain ⟨hidle, -⟩ := hr
  by_cases hlevel : s1.nextLevel p.toNat = .low
  · rw [decodePass_of_late (s := s.now.2) (half := .pivot) hlevel (hzero _), afterHalf_of_le (hzero _)]
    simp only [s', if_pos hlevel]
    cases s
    cases hidle
    rfl
  · rw [decodePass_of_ne (s := s.now.2) (half := .pivot) hlevel, afterHalf_of_le (hzero _)]
    simp only [s', if_neg hlevel]
    cases s
    cases hidle
    rfl

theorem target_eq_ite (half : Half) :
    (if half = .pivot then Level.low else Level.high) = half.target := by
  cases half <;> rfl

/-- Settles O56: the pass goes on, or its measurement ends after `d` in the state `s'`, and what follows is
decided by `d` and the half. -/
theorem decodeFollowsLoop : Obligations.DecodeFollowsLoop := by
  intro s p n timeout i half t0 elapsed buf cmd target s1 t s2 hs
  simp only [target, cmd, target_eq_ite]
  rw [exec_decode_of_busy hs]
  refine ⟨fun heq hlt => by rw [decodePass_of_again heq hlt]; rfl, fun d s' hmeasured => ?_⟩
  have hpass : decodePass p n timeout i half t0 elapsed buf s = afterHalf p n timeout i half buf d s' := by
    rcases hmeasured with ⟨hne, rfl, rfl⟩ | ⟨heq, hle, rfl, rfl⟩
    · exact decodePass_of_ne hne
    · exact decodePass_of_late heq hle
  rw [hpass]
  refine ⟨fun hle => ⟨_, by rw [afterHalf_of_le hle]; rfl⟩, ?_, ?_⟩
  · rintro hlt rfl
    rw [afterHalf_pivot hlt]
    rfl
  · rintro pivot hlt rfl
    have hbit : (if decodedBit pivot d then setBufferBit buf i else buf) =
        if pivot < d then setBufferBit buf i else buf := by
      simp [decodedBit]
    refine ⟨fun hn => ?_, fun hn => ?_⟩
    · rw [afterHalf_pulse_next hlt hn, hbit]
      rfl
    · rw [afterHalf_pulse_last hlt hn, hbit]
      rfl

/-! ### The buffer (R243) -/

/-- The mask of one bit position of a byte. -/
theorem getLsbD_bufferMask : ∀ a < 8, ∀ b < 8, (1#8 <<< (7 - a)).getLsbD (7 - b) = decide (a = b) := by
  decide

/-- Setting bit `i` of the buffer sets it and no other (R243). -/
theorem bufferBit_setBufferBit {buf : List Byte} {i : Nat} (hi : i < 8 * buf.length) (j : Nat) :
    bufferBit (setBufferBit buf i) j = (decide (i = j) || bufferBit buf j) := by
  have hbyte : i / 8 < buf.length := by omega
  have hmask := getLsbD_bufferMask (i % 8) (Nat.mod_lt i (by decide)) (j % 8) (Nat.mod_lt j (by decide))
  rw [bufferBit, bufferBit, setBufferBit, List.getElem?_modify]
  by_cases hsame : i / 8 = j / 8
  · have hij : i = j ↔ i % 8 = j % 8 := by omega
    rw [← hsame, List.getElem?_eq_getElem hbyte]
    simp [hmask, hij, Bool.or_comm]
  · have hij : i ≠ j := fun h => hsame (congrArg (· / 8) h)
    simp [hsame, hij]

/-- Settles O57: the bit that is set lies in one byte, at one position of it. -/
theorem bufferBitsPackedMsbFirst : Obligations.BufferBitsPackedMsbFirst := fun buf i j hi =>
  ⟨length_setBufferBit buf i, bufferBit_setBufferBit hi j, rfl⟩

/-! ### What DECODE leaves alone (R249) -/

theorem PassFrom.observed {s1 : State} {ph : Phase} (h : PassFrom s (.decode p n timeout) ph s1) :
    Observed s s1 := by
  cases h with
  | resumed => exact .refl s
  | decode => exact observed_now s

theorem Measured.observed {s1 s2 : State} {target : Level} {t0 e : Clock} {d : Micros}
    (h : Measured s1 p target timeout t0 e d s2) : Observed s1 s2 := by
  cases h with
  | changed => exact observed_sample s1 p
  | late => exact (observed_sample s1 p).now

/-- A step of DECODE observes, and ends with a result or goes on; a failure draws its bytes. -/
theorem Effect.decode_observed (h : Effect s (.decode p n timeout) t) :
    Observed s t ∨ ∃ v env r, Observed s v ∧ t = State.finish { v with env := env } r := by
  cases h with
  | turnedAway => exact .inr ⟨s, s.env, _, .refl s, rfl⟩
  | decodeNothing => exact .inr ⟨s, s.env, _, .refl s, rfl⟩
  | bitWaits hp => exact .inl (hp.observed.trans (observed_again _ _ _ _))
  | pivotEnds hp hm | pulseEnds hp hm => exact .inl ((hp.observed.trans hm.observed).now.wait _ _)
  | bitFails hp hm => exact .inr ⟨_, _, _, hp.observed.trans hm.observed, rfl⟩
  | @lastPulseEnds _ _ _ _ _ _ _ _ _ _ s2 hp hm =>
    exact .inr ⟨s2, s2.env, _, hp.observed.trans hm.observed, rfl⟩

/-- Settles O58: a step observes, and adds at most a result. -/
theorem decodeOnlyObserves : Obligations.DecodeOnlyObserves := by
  intro s t p n timeout h
  rcases (exec_effect h).decode_observed with ⟨hframe, es, hes, hobs⟩ | ⟨v, env, r, hv, rfl⟩
  · exact ⟨hframe, es, hes, fun e he => .inl (hobs e he)⟩
  · obtain ⟨hframe, es, hes, hobs⟩ := hv
    refine ⟨?_, .result r :: es, by simp [hes], List.forall_mem_cons.2
      ⟨.inr ⟨r, rfl⟩, fun e he => .inl (hobs e he)⟩⟩
    rw [hframe]
    rfl

end Sys2Proof.Machine
end

section
/-! PROOFS. A whole DECODE of a pulse train (R240 to R244). -/

namespace Sys2Proof.Machine

variable {s t : State} {p : Pin} {n : BitCount} {timeout : Micros}

/-! ### The bytes of a train (R242, R243) -/

/-- The buffer after the bits of the pairs, the first of which is bit `i`. -/
def packBits (i : Nat) (buf : List Byte) : List BitPair → List Byte
  | [] => buf
  | q :: rest => packBits (i + 1) (if decodedBit q.1 q.2 then setBufferBit buf i else buf) rest

theorem length_packBits (i : Nat) (buf : List Byte) (pairs : List BitPair) :
    (packBits i buf pairs).length = buf.length := by
  induction pairs generalizing i buf with
  | nil => rfl
  | cons q rest ih =>
    rw [packBits, ih, length_ite_setBufferBit]

/-- A pair sets its own bit, when its pulse is longer than its pivot. -/
theorem bufferBit_packBits {i : Nat} {buf : List Byte} {pairs : List BitPair}
    (h : i + pairs.length ≤ 8 * buf.length) (j : Nat) :
    bufferBit (packBits i buf pairs) j =
      (bufferBit buf j || (decide (i ≤ j) && (pairs[j - i]?).any fun q => decide (q.1 < q.2))) := by
  induction pairs generalizing i buf with
  | nil => simp [packBits]
  | cons q rest ih =>
    rw [List.length_cons] at h
    have hfirst : bufferBit (if decodedBit q.1 q.2 then setBufferBit buf i else buf) j =
        (bufferBit buf j || (decide (i = j) && decide (q.1 < q.2))) := by
      rw [decodedBit]
      split_ifs with hbit
      · rw [bufferBit_setBufferBit (by omega), hbit, Bool.and_true, Bool.or_comm]
      · simp [hbit]
    rw [packBits, ih (by rw [length_ite_setBufferBit]; omega), hfirst, Bool.or_assoc]
    congr 1
    rcases Nat.lt_trichotomy j i with hlt | rfl | hgt
    · simp [Nat.not_le.2 hlt, Nat.lt_asymm hlt, Nat.ne_of_gt hlt]
    · simp
    · obtain ⟨k, rfl⟩ : ∃ k, j = i + 1 + k := ⟨j - (i + 1), by omega⟩
      have hsub : i + 1 + k - i = k + 1 := by omega
      have hne : i ≠ i + 1 + k := by omega
      have hle : i ≤ i + 1 + k := by omega
      simp [hsub, hne, hle]

theorem bufferBit_replicate_zero (m j : Nat) : bufferBit (List.replicate m 0) j = false := by
  rw [bufferBit, List.getElem?_replicate]
  split_ifs <;> simp

/-! ### The passes of a train -/

/-- A half-bit of duration `d` that is sampled twice takes two steps. -/
theorem run_half {i : Nat} {half : Half} {buf : List Byte} {d : Micros} {v v' : Word} {vs : List Word}
    {rest : List Clock} (hv : s.cfg.Valid) (hp : p.toNat < s.cfg.numPins)
    (hmode : s.mode p.toNat ≠ .output)
    (hs : s.seq = .busy (.decode p n timeout) (.bit i half s.clock 0 buf))
    (hpads : s.env.pads = v :: v' :: vs) (hholds : Level.ofBit (v.getLsbD (p.toNat % 32)) = half.target)
    (hchanges : Level.ofBit (v'.getLsbD (p.toNat % 32)) ≠ half.target)
    (hclock : s.env.clock = (s.clock + d.setWidth 64) :: rest) (hle : s.clock ≤ s.clock + d.setWidth 64)
    (hd : d < timeout) :
    ∃ u : State, Observed s u ∧ u.clock = s.clock + d.setWidth 64 ∧
      u.env = { s.env with clock := rest, pads := vs } ∧
      ∀ k, Host.Core.run Sys2Proof.core (k + 2) s =
        Host.Core.run Sys2Proof.core k (afterHalf p n timeout i half buf d u) := by
  have hreading : (s.sample p).2.nextReading = s.clock + d.setWidth 64 :=
    nextReading_sample hpads hclock hle
  have helapsed : s.clock + d.setWidth 64 - s.clock = d.setWidth 64 := by
    rw [BitVec.add_comm, BitVec.add_sub_cancel]
  have hbelow : d.setWidth 64 < timeout.setWidth 64 := by bv_omega
  obtain ⟨s1, hfirst, hobs, hclock1, henv1, hseq1⟩ : ∃ s1 : State, step s = .next s1 ∧ Observed s s1 ∧
      s1.clock = s.clock + d.setWidth 64 ∧ s1.env = { s.env with clock := rest, pads := v' :: vs } ∧
      s1.seq = .busy (.decode p n timeout) (.bit i half s.clock (d.setWidth 64) buf) := by
    refine ⟨_, ?_, observed_again s p (.decode p n timeout) (.bit i half s.clock (d.setWidth 64) buf),
      by rw [State.wait_clock, State.now_clock, hreading],
      by rw [State.wait_env, env_sample_now hpads hclock], rfl⟩
    rw [step_busy hv hs, exec_decode_of_busy hs,
      decodePass_of_again ((nextLevel_of_pads hp hmode hpads).trans hholds)
        (by rwa [hreading, helapsed]), hreading, helapsed]
  have hpads1 : s1.env.pads = v' :: vs := by rw [henv1]
  have hlevel1 : s1.nextLevel p.toNat ≠ half.target := by
    rwa [nextLevel_of_pads (by rwa [hobs.cfg_eq]) (by rwa [hobs.mode_eq]) hpads1]
  have hd32 : (d.setWidth 64).setWidth 32 = d := by bv_omega
  have hsecond : step s1 = .next (afterHalf p n timeout i half buf d (s1.sample p).2) := by
    rw [step_busy (hobs.cfg_eq ▸ hv) hseq1, exec_decode_of_busy hseq1, decodePass_of_ne hlevel1, hd32]
  refine ⟨(s1.sample p).2, hobs.sample p, hclock1, ?_, fun k => ?_⟩
  · rw [env_sample hpads1, henv1]
  · rw [run_succ hfirst, run_succ hsecond]

/-- The two half-bits of a pair take four steps, with a clock reading between them. -/
theorem run_pair {i : Nat} {buf : List Byte} {lo hi : Micros} {v1 v2 v3 v4 : Word} {vs : List Word}
    {rest : List Clock} (hv : s.cfg.Valid) (hp : p.toNat < s.cfg.numPins)
    (hmode : s.mode p.toNat ≠ .output)
    (hs : s.seq = .busy (.decode p n timeout) (.bit i .pivot s.clock 0 buf))
    (hpads : s.env.pads = v1 :: v2 :: v3 :: v4 :: vs)
    (hlevels : [v1, v2, v3, v4].map (fun v => Level.ofBit (v.getLsbD (p.toNat % 32))) =
      [.low, .high, .high, .low])
    (hclock : s.env.clock = (s.clock + lo.setWidth 64) :: (s.clock + lo.setWidth 64) ::
      (s.clock + lo.setWidth 64 + hi.setWidth 64) :: rest)
    (hfits : s.clock.toNat + lo.toNat + hi.toNat < 2 ^ 64) (hlo : lo < timeout) (hhi : hi < timeout) :
    ∃ u : State, Observed s u ∧ u.clock = s.clock + lo.setWidth 64 + hi.setWidth 64 ∧
      u.env = { s.env with clock := rest, pads := vs } ∧
      ∀ k, Host.Core.run Sys2Proof.core (k + 4) s =
        Host.Core.run Sys2Proof.core k (afterHalf p n timeout i (.pulse lo) buf hi u) := by
  simp only [List.map_cons, List.map_nil, List.cons.injEq, and_true] at hlevels
  obtain ⟨h1, h2, h3, h4⟩ := hlevels
  obtain ⟨u1, hobs1, hclock1, henv1, hrun1⟩ := run_half hv hp hmode hs hpads h1
    (by rw [h2]; exact nofun) hclock (by bv_omega) hlo
  have hreading : u1.nextReading = s.clock + lo.setWidth 64 :=
    u1.nextReading_of_cons (by rw [henv1]) (by rw [hclock1]; exact BitVec.le_refl _)
  obtain ⟨s2, hs2, hobs2, hclock2, henv2, hseq2⟩ : ∃ s2 : State,
      afterHalf p n timeout i .pivot buf lo u1 = s2 ∧ Observed s s2 ∧
      s2.clock = s.clock + lo.setWidth 64 ∧
      s2.env = { s.env with
        clock := (s.clock + lo.setWidth 64 + hi.setWidth 64) :: rest, pads := v3 :: v4 :: vs } ∧
      s2.seq = .busy (.decode p n timeout) (.bit i (.pulse lo) s2.clock 0 buf) := by
    refine ⟨_, afterHalf_pivot hlo, hobs1.now.wait _ _, hreading, ?_, rfl⟩
    rw [State.wait_env, State.now_env, henv1]
    rfl
  obtain ⟨u, hobs, hclocku, henvu, hrun2⟩ := run_half (d := hi) (hobs2.cfg_eq ▸ hv) (by rwa [hobs2.cfg_eq])
    (by rwa [hobs2.mode_eq]) hseq2 (by rw [henv2]) h3 (by rw [h4]; exact nofun) (by rw [henv2, hclock2])
    (by rw [hclock2]; bv_omega) hhi
  refine ⟨u, hobs2.trans hobs, by rw [hclocku, hclock2], by rw [henvu, henv2], fun k => ?_⟩
  rw [hrun1 (k + 2), hs2, hrun2 k]

/-- The four samples of a train's first pair, and those of the rest. -/
theorem exists_samples_of_train {see : Word → Level} {ps : List Word} {q : BitPair}
    {rest : List BitPair} (h : ps.map see = trainLevels (q :: rest)) :
    ∃ v1 v2 v3 v4 ps', ps = v1 :: v2 :: v3 :: v4 :: ps' ∧
      [v1, v2, v3, v4].map see = [.low, .high, .high, .low] ∧ ps'.map see = trainLevels rest := by
  rw [trainLevels, List.map_eq_append_iff] at h
  obtain ⟨first, ps', rfl, hfirst, hrest⟩ := h
  have hlength : first.length = 4 := by simpa using congrArg List.length hfirst
  obtain ⟨v1, v2, v3, v4, rfl⟩ := List.length_eq_four.1 hlength
  exact ⟨v1, v2, v3, v4, ps', rfl, hfirst, hrest⟩

/-- The first pair of a train, and what it leaves for the rest. -/
theorem run_first_pair {i : Nat} {buf : List Byte} {q : BitPair} {rest : List BitPair} {ps vs : List Word}
    {cs : List Clock} (hv : s.cfg.Valid) (hp : p.toNat < s.cfg.numPins)
    (hmode : s.mode p.toNat ≠ .output)
    (hs : s.seq = .busy (.decode p n timeout) (.bit i .pivot s.clock 0 buf))
    (hbelow : q.1 < timeout ∧ q.2 < timeout)
    (hfits : s.clock.toNat + trainLength (q :: rest) < 2 ^ 64)
    (hclock : s.clock :: s.env.clock = trainClocks s.clock (q :: rest) ++ cs)
    (hpads : s.env.pads = ps ++ vs)
    (hlevels : ps.map (fun v => Level.ofBit (v.getLsbD (p.toNat % 32))) = trainLevels (q :: rest)) :
    ∃ (u : State) (ps' : List Word), Observed s u ∧
      u.env = { s.env with clock := trainClocks u.clock rest ++ cs, pads := ps' ++ vs } ∧
      ps'.map (fun v => Level.ofBit (v.getLsbD (p.toNat % 32))) = trainLevels rest ∧
      u.clock.toNat + trainLength rest < 2 ^ 64 ∧
      ∀ k, Host.Core.run Sys2Proof.core (k + 4) s =
        Host.Core.run Sys2Proof.core k (afterHalf p n timeout i (.pulse q.1) buf q.2 u) := by
  obtain ⟨lo, hi⟩ := q
  obtain ⟨hlo, hhi⟩ := hbelow
  obtain ⟨v1, v2, v3, v4, ps', rfl, hfirst, hrest⟩ := exists_samples_of_train hlevels
  rw [trainLength] at hfits
  have hclock : s.env.clock = (s.clock + lo.setWidth 64) :: (s.clock + lo.setWidth 64) ::
      (s.clock + lo.setWidth 64 + hi.setWidth 64) ::
      (trainClocks (s.clock + lo.setWidth 64 + hi.setWidth 64) rest ++ cs) := by
    simpa [trainClocks, halfClocks] using hclock
  obtain ⟨u, hobs, huclock, huenv, hrun⟩ :=
    run_pair (hi := hi) hv hp hmode hs hpads hfirst hclock (by omega) hlo hhi
  refine ⟨u, ps', hobs, ?_, hrest, ?_, hrun⟩
  · rw [huenv, huclock]
    rfl
  · have hend : u.clock.toNat = s.clock.toNat + lo.toNat + hi.toNat := by
      rw [huclock]
      bv_omega
    omega

/-- From the start of bit `i`'s pivot the rest of the train gives the rest of the bytes. -/
theorem run_train {i : Nat} {buf : List Byte} {q : BitPair} {rest : List BitPair} {ps vs : List Word}
    {cs : List Clock} (hv : s.cfg.Valid) (hp : p.toNat < s.cfg.numPins)
    (hmode : s.mode p.toNat ≠ .output)
    (hs : s.seq = .busy (.decode p n timeout) (.bit i .pivot s.clock 0 buf))
    (hn : n.toNat = i + (rest.length + 1))
    (hbelow : ∀ r ∈ q :: rest, r.1 < timeout ∧ r.2 < timeout)
    (hfits : s.clock.toNat + trainLength (q :: rest) < 2 ^ 64)
    (hclock : s.clock :: s.env.clock = trainClocks s.clock (q :: rest) ++ cs)
    (hpads : s.env.pads = ps ++ vs)
    (hlevels : ps.map (fun v => Level.ofBit (v.getLsbD (p.toNat % 32))) = trainLevels (q :: rest)) :
    ∃ (k : Nat) (u : State), Observed s u ∧ u.env = { s.env with clock := cs, pads := vs } ∧
      Host.Core.run Sys2Proof.core (k + 1) s =
        .next (u.succeed (.decoded (packBits i buf (q :: rest)) true)) := by
  induction rest generalizing s i buf q ps with
  | nil =>
    obtain ⟨hfirst, -⟩ := List.forall_mem_cons.1 hbelow
    obtain ⟨u, ps', hobs, henv, hlevels', -, hrun⟩ :=
      run_first_pair hv hp hmode hs hfirst hfits hclock hpads hlevels
    obtain rfl := List.map_eq_nil_iff.1 hlevels'
    refine ⟨3, u, hobs, henv, ?_⟩
    rw [hrun 0, afterHalf_pulse_last hfirst.2 (by rw [hn]; exact le_refl _)]
    rfl
  | cons r rest ih =>
    obtain ⟨hfirst, hbelow⟩ := List.forall_mem_cons.1 hbelow
    obtain ⟨u, ps', hobs, henv, hlevels', hfits', hrun⟩ :=
      run_first_pair hv hp hmode hs hfirst hfits hclock hpads hlevels
    have huclock : u.env.clock = u.clock :: (trainClocks u.clock (r :: rest) ++ cs).tail := by
      rw [henv]
      rfl
    have hreading : u.nextReading = u.clock := u.nextReading_of_cons huclock (BitVec.le_refl _)
    obtain ⟨s2, hs2, hobs2, hclock2, henv2, hseq2⟩ : ∃ s2 : State,
        afterHalf p n timeout i (.pulse q.1) buf q.2 u = s2 ∧ Observed s s2 ∧ s2.clock = u.clock ∧
        s2.env = { s.env with
          clock := (trainClocks u.clock (r :: rest) ++ cs).tail, pads := ps' ++ vs } ∧
        s2.seq = .busy (.decode p n timeout) (.bit (i + 1) .pivot s2.clock 0
          (if decodedBit q.1 q.2 then setBufferBit buf i else buf)) := by
      refine ⟨_, afterHalf_pulse_next hfirst.2 (by rw [hn, List.length_cons]; omega),
        hobs.now.wait _ _, hreading, ?_, rfl⟩
      rw [State.wait_env, State.now_env, Env.takeClock_of_cons huclock, henv]
    obtain ⟨k, v, hobsv, henvv, hrunv⟩ := ih (i := i + 1) (q := r) (ps := ps') (hobs2.cfg_eq ▸ hv)
      (by rwa [hobs2.cfg_eq]) (by rwa [hobs2.mode_eq]) hseq2 (by rw [hn, List.length_cons]; omega) hbelow
      (by rwa [hclock2]) (by rw [hclock2, henv2]; rfl) (by rw [henv2]) hlevels'
    refine ⟨k + 4, v, hobs2.trans hobsv, by rw [henvv, henv2], ?_⟩
    rw [Nat.add_right_comm, hrun (k + 1), hs2, hrunv]
    rfl

/-- The state in which a DECODE that the host issues begins to wait, at the start of its first pivot. -/
theorem exists_first_pivot {w : CommandWord} {ws : List CommandWord} {t : Clock} {rest : List Clock}
    (hv : s.cfg.Valid) (hr : s.Ready p) (hh : s.host = w :: ws)
    (hd : decode w = .ok (.decode p n timeout)) (hn : n ≠ 0) (hclock : s.env.clock = t :: rest)
    (hle : s.clock ≤ t) :
    ∃ s1 : State, step s = step s1 ∧ Observed (s.issue w ws) s1 ∧ s1.clock = t ∧
      s1.env = { s.env with clock := rest } ∧
      s1.seq = .busy (.decode p n timeout)
        (.bit 0 .pivot s1.clock 0 (List.replicate (byteCount n.toNat) 0)) := by
  have hstart : s.nextReading = t := s.nextReading_of_cons hclock hle
  refine ⟨_, ?_, (observed_now (s.issue w ws)).wait (.decode p n timeout)
    (.bit 0 .pivot s.nextReading 0 (List.replicate (byteCount n.toNat) 0)), hstart,
    Env.takeClock_of_cons hclock, rfl⟩
  rw [step_issues hv hr.1 hh hd, exec_decode_begins (s := s.issue w ws) hr hn]
  exact (step_busy (by exact hv) rfl).symm

/-- Settles O59: a train of no pairs is a DECODE of no bits, and a train of some pairs is run from the start
of its first pivot. -/
theorem decodeReadsTrain : Obligations.DecodeReadsTrain := by
  intro s w ws p timeout t pairs cs ps vs hv hr hmode hh hlen hd hbelow hle hfits hclock hpads hlevels
  have hcount : (BitVec.ofNat 16 pairs.length).toNat = pairs.length := by
    rw [BitVec.toNat_ofNat, Nat.mod_eq_of_lt hlen]
  cases pairs with
  | nil =>
    obtain rfl := List.map_eq_nil_iff.1 hlevels
    have henv : { s.env with clock := cs, pads := vs } = s.env := by
      rw [← hclock.trans (List.nil_append cs), ← hpads.trans (List.nil_append vs)]
    refine ⟨1, (s.issue w ws).succeed (.decoded [] true), [], ?_, ?_, rfl, rfl, by simp⟩
    · refine run_one ((step_issues hv hr.1 hh hd).trans ?_)
      rw [exec_decode_of_ready (s := s.issue w ws) hr]
      rfl
    · rw [henv]
      exact succeed_of_observed hr.1 (.refl (s.issue w ws)) _
  | cons q rest =>
    have hn : BitVec.ofNat 16 (q :: rest).length ≠ 0 := by
      intro h
      rw [h] at hcount
      exact absurd hcount (Nat.succ_ne_zero _).symm
    obtain ⟨s1, hstep, hobs, hclock1, henv1, hseq1⟩ :=
      exists_first_pivot (rest := (trainClocks t (q :: rest) ++ cs).tail) hv hr hh hd hn hclock hle
    rw [hcount] at hseq1
    obtain ⟨k, u, hobsu, henvu, hrun⟩ := run_train (i := 0) (ps := ps) (vs := vs) (cs := cs)
      (hobs.cfg_eq ▸ hv) (by rw [hobs.cfg_eq]; exact hr.2.2) (by rw [hobs.mode_eq]; exact hmode) hseq1
      (by rw [hcount, Nat.zero_add, List.length_cons]) hbelow (by rwa [hclock1])
      (by rw [hclock1, henv1]; rfl) (by rw [henv1]; exact hpads) hlevels
    refine ⟨k + 1, _, packBits 0 (List.replicate (byteCount (q :: rest).length) 0) (q :: rest),
      (run_congr_step hstep).trans hrun, ?_, rfl, ?_, fun i _ => ?_⟩
    · rw [succeed_of_observed hr.1 (hobs.trans hobsu), henvu, henv1]
    · rw [length_packBits, List.length_replicate, byteCount]
    · rw [bufferBit_packBits, bufferBit_replicate_zero]
      · simp
      · rw [List.length_replicate, byteCount]
        omega

end Sys2Proof.Machine
end
